-- ==== Sys2Proof/Word.lean ====
section
/-! DEFINITION. The word types of the machine and the two kinds of width: operand widths (8, 16, 32) and the
operand-size and address-size choices of an instruction (16 or 32). -/

namespace Sys2Proof

/-- One memory location or one instruction byte (20_memory.md R50). -/
abbrev Byte := BitVec 8

/-- A 32-bit register value or address (00_scope.md R6). -/
abbrev Word := BitVec 32

/-- The width of an operand or of one memory access: 8, 16 or 32 bits. There is no 64-bit width (00_scope.md R2). -/
inductive Width where
  | w8 | w16 | w32
  deriving DecidableEq, Repr

/-- The width in bits. -/
abbrev Width.bits : Width → Nat
  | .w8 => 8
  | .w16 => 16
  | .w32 => 32

/-- The width in bytes: n of `MemRead(addr, n)`, in {1, 2, 4} (20_memory.md R53). -/
abbrev Width.bytes : Width → Nat
  | .w8 => 1
  | .w16 => 2
  | .w32 => 4

/-- The operand width w of the forms marked "v" or "z" (30_encoding.md R72, R87). -/
inductive OpSize where
  | o16 | o32
  deriving DecidableEq, Repr

/-- The operand width an operand size stands for. -/
abbrev OpSize.width : OpSize → Width
  | .o16 => .w16
  | .o32 => .w32

/-- The address width asz of a ModR/M memory operand (30_encoding.md R73). -/
inductive AdSize where
  | a16 | a32
  deriving DecidableEq, Repr

end Sys2Proof
end

