-- ==== Sys2Proof/Config.lean ====
section
/-! DEFINITION. The implementation parameters of 00_scope.md section 4. The fixed ones are constants; the three the
spec leaves to the construction of a core (R3, R7, R8) are the fields of `Config`, which the machine's state carries
unchanged, so that a statement about every state holds under every value of them. MEM_INIT (R9) is the contents of
the state's memory, for the same reason. -/

namespace Sys2Proof

/-- What ADD and ADC write to OF when the CF/SF refinement does not fire (00_scope.md R7, D11). -/
inductive OfPolicy where
  | clear | preserve
  deriving DecidableEq, Repr

/-- The parameters fixed when a core is constructed. -/
structure Config where
  /-- `MEM_SIZE`, N: the memory's capacity in bytes (R3). -/
  memSize : Nat
  /-- `ADD_OF_UNTRIGGERED` (R7). -/
  ofUntriggered : OfPolicy
  /-- `HLT_ADVANCES_EIP` (R8). -/
  hltAdvancesEip : Bool
  deriving DecidableEq, Repr

/-- The range the spec requires of N: 1 <= N <= 2^32 (R3, D29). -/
abbrev Config.wf (c : Config) : Prop := 1 ≤ c.memSize ∧ c.memSize ≤ 2 ^ 32

/-- The construction of `Machine.State.reset`: the spec's values of R7 (`clear`) and R8 (`true`).
DESIGN CHOICE (log entry 1): N = 0x20000, the value of 95_test_vectors.md Part 3; the spec leaves N open. -/
def Config.initial : Config := { memSize := 0x20000, ofUntriggered := .clear, hltAdvancesEip := true }

/-- `DEFAULT_OPSIZE = 32` (R4). -/
def defaultOpSize : OpSize := .o32

/-- `DEFAULT_ADSIZE = 32` (R5, D1). -/
def defaultAdSize : AdSize := .a32

/-- `LONG_MODE = false` for every rule (R2): the capability query always reports false. A configuration with it true
cannot be written (93_implementation_defined.md U8), and no `Width` is 64 bits. -/
def longMode : Bool := false

/-- `FLAG_INDEX_COUNT = 32` (R6, D14). -/
abbrev flagIndexCount : Nat := 32

end Sys2Proof
end

