-- ==== Sys2Proof/Syntax.lean ====
section
/-! DEFINITION. The instructions. `Instr` has one constructor per row of spec/opcode_table.json: the 24 instructions
of 30_encoding.md R86 and the 8 prefix bytes of R71. Since one cycle executes one instruction WITH its prefixes
(R70, 41_fetch_dispatch.md R122), a prefix constructor holds the instruction it stands before. -/

namespace Sys2Proof

/-- A 3-bit register number, from ModR/M reg or rm or from SIB index or base (30_encoding.md R79). Which register it
names depends on the width. -/
inductive RegNum where
  | r0 | r1 | r2 | r3 | r4 | r5 | r6 | r7
  deriving DecidableEq, Repr

/-- The displacement of an address with a base: none (mod = 00b), the byte disp8 (mod = 01b), or the full-width
disp16 or disp32 of n bits (mod = 10b) (30_encoding.md R80, R81, R83). -/
inductive Disp (n : Nat) where
  | d0
  | d8 (d : BitVec 8)
  | full (d : BitVec n)
  deriving DecidableEq, Repr

/-- The base expressions of 16-bit addressing, in the order rm = 0 to 7 (30_encoding.md R80). -/
inductive Base16 where
  | bxsi | bxdi | bpsi | bpdi | si | di | bp | bx
  deriving DecidableEq, Repr

/-- A 16-bit address (30_encoding.md R80). -/
inductive Addr16 where
  /-- mod = 00b, rm = 6: a disp16 alone. -/
  | disp (d : BitVec 16)
  | based (b : Base16) (d : Disp 16)
  deriving DecidableEq, Repr

/-- The SIB scale: the index is multiplied by 1, 2, 4 or 8 (30_encoding.md R77). -/
inductive Scale where
  | x1 | x2 | x4 | x8
  deriving DecidableEq, Repr

/-- A 32-bit address (30_encoding.md R81, R82). An index of `none` is SIB index = 4, "no index"; its scale is kept
because every scale is a legal encoding of it (R82, R90). -/
inductive Addr32 where
  /-- mod = 00b, rm = 5: a disp32 alone. -/
  | disp (d : BitVec 32)
  | based (b : RegNum) (d : Disp 32)
  /-- rm = 4 with a base register. -/
  | sib (scale : Scale) (index : Option RegNum) (base : RegNum) (d : Disp 32)
  /-- rm = 4, SIB base = 5, mod = 00b: no base, a disp32. -/
  | sibDisp (scale : Scale) (index : Option RegNum) (d : BitVec 32)
  deriving DecidableEq, Repr

/-- A memory operand's address expression, by address width (30_encoding.md R73). -/
inductive Addr where
  | a16 (x : Addr16)
  | a32 (x : Addr32)
  deriving DecidableEq, Repr

/-- The ModR/M rm operand E: a register (mod = 11b) or memory (40_effective_address.md R101). -/
inductive RM where
  | reg (n : RegNum)
  | mem (x : Addr)
  deriving DecidableEq, Repr

/-- The immediate of the "Iz" forms: two bytes when w = 16, four when w = 32 (30_encoding.md R85). -/
inductive ImmZ where
  | i16 (v : BitVec 16)
  | i32 (v : BitVec 32)
  deriving DecidableEq, Repr

/-- The operand size an Iz immediate fixes. -/
def ImmZ.size : ImmZ → OpSize
  | .i16 _ => .o16
  | .i32 _ => .o32

/-- The eight legacy prefixes (30_encoding.md R71). -/
inductive Prefix where
  | es | cs | ss | ds | fs | gs | o16 | a16
  deriving DecidableEq, Repr

/-- The instructions (30_encoding.md R86, R87) and the prefixes (R71). The "v" forms carry their operand width. -/
inductive Instr where
  | addEbGb (e : RM) (g : RegNum)
  | addEvGv (w : OpSize) (e : RM) (g : RegNum)
  | addGbEb (g : RegNum) (e : RM)
  | addGvEv (w : OpSize) (g : RegNum) (e : RM)
  | addALIb (imm : BitVec 8)
  | addEAXIz (imm : ImmZ)
  | orEbGb (e : RM) (g : RegNum)
  | orEvGv (w : OpSize) (e : RM) (g : RegNum)
  | orGbEb (g : RegNum) (e : RM)
  | orGvEv (w : OpSize) (g : RegNum) (e : RM)
  | orALIb (imm : BitVec 8)
  | orEAXIz (imm : ImmZ)
  | adcEbGb (e : RM) (g : RegNum)
  | adcEvGv (w : OpSize) (e : RM) (g : RegNum)
  | adcGbEb (g : RegNum) (e : RM)
  | adcGvEv (w : OpSize) (g : RegNum) (e : RM)
  | adcALIb (imm : BitVec 8)
  | adcEAXIz (imm : ImmZ)
  | pushES
  | popES
  | pushCS
  | pushSS
  | popSS
  | hlt
  | es (j : Instr)
  | cs (j : Instr)
  | ss (j : Instr)
  | ds (j : Instr)
  | fs (j : Instr)
  | gs (j : Instr)
  | o16 (j : Instr)
  | a16 (j : Instr)
  deriving DecidableEq, Repr

/-- The prefixes of an instruction in the order met: `rec.prefixes` (10_state.md R40, 30_encoding.md R75). -/
def Instr.prefixes : Instr → List Prefix
  | .es j => .es :: j.prefixes
  | .cs j => .cs :: j.prefixes
  | .ss j => .ss :: j.prefixes
  | .ds j => .ds :: j.prefixes
  | .fs j => .fs :: j.prefixes
  | .gs j => .gs :: j.prefixes
  | .o16 j => .o16 :: j.prefixes
  | .a16 j => .a16 :: j.prefixes
  | _ => []

/-- The instruction after its prefixes. -/
def Instr.body : Instr → Instr
  | .es j => j.body
  | .cs j => j.body
  | .ss j => j.body
  | .ds j => j.body
  | .fs j => j.body
  | .gs j => j.body
  | .o16 j => j.body
  | .a16 j => j.body
  | i => i

/-- The instruction j with one prefix before it. -/
def Prefix.before : Prefix → Instr → Instr
  | .es, j => .es j
  | .cs, j => .cs j
  | .ss, j => .ss j
  | .ds, j => .ds j
  | .fs, j => .fs j
  | .gs, j => .gs j
  | .o16, j => .o16 j
  | .a16, j => .a16 j

/-- The instruction j with a list of prefixes before it, in the order of the list. -/
def Instr.withPrefixes (ps : List Prefix) (j : Instr) : Instr := ps.foldr Prefix.before j

/-- The operand width a "v" or "z" form carries; none for the other instructions. -/
def Instr.opSize? : Instr → Option OpSize
  | .addEvGv w _ _ => some w
  | .addGvEv w _ _ => some w
  | .addEAXIz z => some z.size
  | .orEvGv w _ _ => some w
  | .orGvEv w _ _ => some w
  | .orEAXIz z => some z.size
  | .adcEvGv w _ _ => some w
  | .adcGvEv w _ _ => some w
  | .adcEAXIz z => some z.size
  | .es j => j.opSize?
  | .cs j => j.opSize?
  | .ss j => j.opSize?
  | .ds j => j.opSize?
  | .fs j => j.opSize?
  | .gs j => j.opSize?
  | .o16 j => j.opSize?
  | .a16 j => j.opSize?
  | _ => none

/-- The ModR/M rm operand of a ModR/M form; none for the other instructions. -/
def Instr.rm? : Instr → Option RM
  | .addEbGb e _ => some e
  | .addEvGv _ e _ => some e
  | .addGbEb _ e => some e
  | .addGvEv _ _ e => some e
  | .orEbGb e _ => some e
  | .orEvGv _ e _ => some e
  | .orGbEb _ e => some e
  | .orGvEv _ _ e => some e
  | .adcEbGb e _ => some e
  | .adcEvGv _ e _ => some e
  | .adcGbEb _ e => some e
  | .adcGvEv _ _ e => some e
  | .es j => j.rm?
  | .cs j => j.rm?
  | .ss j => j.rm?
  | .ds j => j.rm?
  | .fs j => j.rm?
  | .gs j => j.rm?
  | .o16 j => j.rm?
  | .a16 j => j.rm?
  | _ => none

/-- The address width a memory operand carries; none for a register operand. -/
def RM.adSize? : RM → Option AdSize
  | .reg _ => none
  | .mem (.a16 _) => some .a16
  | .mem (.a32 _) => some .a32

end Sys2Proof
end

