-- ==== Sys2Proof/Decode.lean ====
section
/-! DEFINITION. The decoder and the encoder. The decoder reads the instruction stream through a `Reader`, which
answers each field (one access of 1, 2 or 4 bytes, 30_encoding.md R84) or the first byte address it cannot read; so
one decoder serves a list of bytes and the machine's memory, with the accesses in the order of 20_memory.md R63.
It is total and rejects by name (`DecodeStop`). The encoder is written from the same tables. -/

namespace Sys2Proof

/-! ### Byte order (20_memory.md R52) -/

/-- The value of bytes in little-endian order. -/
def leValue : List Byte → Nat
  | [] => 0
  | b :: bs => b.toNat + 256 * leValue bs

/-- The n bytes of a value in little-endian order. -/
def leBytes : (n : Nat) → (v : Nat) → List Byte
  | 0, _ => []
  | n + 1, v => BitVec.ofNat 8 v :: leBytes n (v / 256)

/-! ### The instruction stream -/

/-- A source of instruction bytes: the field of width w at an offset from the first byte of the instruction, or the
first byte address it cannot read. -/
abbrev Reader := (off : Nat) → (w : Width) → Except Nat (BitVec w.bits)

/-- The reader of a byte list, a memory of `l.length` bytes: a field that runs past its end stops at address
max(off, length), the rule of 20_memory.md R53. -/
def listReader (l : List Byte) : Reader := fun off w =>
  if off + w.bytes ≤ l.length then .ok (BitVec.ofNat w.bits (leValue ((l.drop off).take w.bytes)))
  else .error (max off l.length)

/-- Why no instruction was read. -/
inductive DecodeStop where
  /-- A byte at or beyond the end of memory was asked for: `raise AddressOutOfRange(a)` (40_effective_address.md R111). -/
  | outOfRange (a : Nat)
  /-- The byte in opcode position is in no row of the dispatch table (30_encoding.md R89): the prefixes before it,
  and the byte. -/
  | unmapped (ps : List Prefix) (op : Byte)
  /-- The prefix scan has read every byte of memory and found only prefixes: it never ends (41_fetch_dispatch.md R124). -/
  | endless
  deriving DecidableEq, Repr

/-! ### Prefixes (30_encoding.md R71 to R73, R75; 41_fetch_dispatch.md R123) -/

/-- The byte of a prefix (30_encoding.md R71). -/
def Prefix.byte : Prefix → Byte
  | .es => 0x26
  | .cs => 0x2E
  | .ss => 0x36
  | .ds => 0x3E
  | .fs => 0x64
  | .gs => 0x65
  | .o16 => 0x66
  | .a16 => 0x67

/-- The prefix a byte is, if it is one of the eight (30_encoding.md R71). -/
def Prefix.ofByte (b : Byte) : Option Prefix :=
  match b.toNat with
  | 0x26 => some .es
  | 0x2E => some .cs
  | 0x36 => some .ss
  | 0x3E => some .ds
  | 0x64 => some .fs
  | 0x65 => some .gs
  | 0x66 => some .o16
  | 0x67 => some .a16
  | _ => none

/-- The operand width the prefixes select: 16 if 0x66 occurs at least once, else the default (30_encoding.md R72). -/
def operandSize (ps : List Prefix) : OpSize := if Prefix.o16 ∈ ps then .o16 else defaultOpSize

/-- The address width the prefixes select: 16 if 0x67 occurs at least once, else the default (30_encoding.md R73). -/
def addressSize (ps : List Prefix) : AdSize := if Prefix.a16 ∈ ps then .a16 else defaultAdSize

/-- PrefixScan: read bytes while they are prefixes; the next byte is the opcode (41_fetch_dispatch.md R123). There is
no count limit (R124): `fuel` is more than the bytes the memory has, so running out of it is the endless scan. -/
def scanPrefixes (rd : Reader) : (fuel off : Nat) → Except DecodeStop (List Prefix × Byte)
  | 0, _ => .error .endless
  | fuel + 1, off =>
    match rd off .w8 with
    | .error a => .error (.outOfRange a)
    | .ok b =>
      match Prefix.ofByte b with
      | none => .ok ([], b)
      | some p =>
        match scanPrefixes rd fuel (off + 1) with
        | .error e => .error e
        | .ok (ps, op) => .ok (p :: ps, op)

/-! ### ModR/M and SIB fields (30_encoding.md R76, R77, R79) -/

/-- mod = modrm[7:6]; also SIB scale = sib[7:6]. -/
def topField (b : Byte) : BitVec 2 := b.extractLsb' 6 2

/-- reg = modrm[5:3]; also SIB index = sib[5:3]. -/
def midField (b : Byte) : BitVec 3 := b.extractLsb' 3 3

/-- rm = modrm[2:0]; also SIB base = sib[2:0]. -/
def lowField (b : Byte) : BitVec 3 := b.extractLsb' 0 3

/-- The byte with the three fields of ModR/M or SIB. -/
def fieldsByte (top : BitVec 2) (mid low : BitVec 3) : Byte := top ++ mid ++ low

/-- The register number of a 3-bit field. -/
def RegNum.ofBits (b : BitVec 3) : RegNum :=
  match b.toNat with
  | 0 => .r0
  | 1 => .r1
  | 2 => .r2
  | 3 => .r3
  | 4 => .r4
  | 5 => .r5
  | 6 => .r6
  | _ => .r7

/-- The 3-bit field of a register number. -/
def RegNum.bits : RegNum → BitVec 3
  | .r0 => 0
  | .r1 => 1
  | .r2 => 2
  | .r3 => 3
  | .r4 => 4
  | .r5 => 5
  | .r6 => 6
  | .r7 => 7

/-- The base expression of rm in 16-bit addressing (30_encoding.md R80). -/
def Base16.ofBits (b : BitVec 3) : Base16 :=
  match b.toNat with
  | 0 => .bxsi
  | 1 => .bxdi
  | 2 => .bpsi
  | 3 => .bpdi
  | 4 => .si
  | 5 => .di
  | 6 => .bp
  | _ => .bx

/-- The rm of a 16-bit base expression (30_encoding.md R80). -/
def Base16.bits : Base16 → BitVec 3
  | .bxsi => 0
  | .bxdi => 1
  | .bpsi => 2
  | .bpdi => 3
  | .si => 4
  | .di => 5
  | .bp => 6
  | .bx => 7

/-- The multiplier 2^scale of a SIB scale field (30_encoding.md R77). -/
def Scale.ofBits (b : BitVec 2) : Scale :=
  match b.toNat with
  | 0 => .x1
  | 1 => .x2
  | 2 => .x4
  | _ => .x8

/-- The SIB scale field. -/
def Scale.bits : Scale → BitVec 2
  | .x1 => 0
  | .x2 => 1
  | .x4 => 2
  | .x8 => 3

/-- SIB index: 4 is "no index" (30_encoding.md R82). -/
def indexOfBits (b : BitVec 3) : Option RegNum := if b = 4 then none else some (RegNum.ofBits b)

/-- The SIB index field. -/
def indexBits : Option RegNum → BitVec 3
  | none => 4
  | some n => n.bits

/-! ### Reading the operands. Each function answers what it read and how many bytes it consumed. -/

/-- The displacement that mod selects after a base: none, disp8, or the full width (30_encoding.md R80, R81, R83). -/
def readDisp (rd : Reader) (off : Nat) (mod : BitVec 2) (w : OpSize) : Except Nat (Disp w.width.bits × Nat) :=
  match mod.toNat with
  | 0 => .ok (.d0, 0)
  | 1 => do
    let d ← rd off .w8
    pure (.d8 d, 1)
  | _ => do
    let d ← rd off w.width
    pure (.full d, w.width.bytes)

/-- `EA16` (40_effective_address.md R104). -/
def readAddr16 (rd : Reader) (off : Nat) (mod : BitVec 2) (rm : BitVec 3) : Except Nat (Addr16 × Nat) :=
  if rm = 6 ∧ mod = 0 then do
    let d ← rd off .w16
    pure (.disp d, 2)
  else do
    let (d, n) ← readDisp rd off mod .o16
    pure (.based (Base16.ofBits rm) d, n)

/-- `SIB32` (40_effective_address.md R107). -/
def readSib (rd : Reader) (off : Nat) (mod : BitVec 2) : Except Nat (Addr32 × Nat) := do
  let s ← rd off .w8
  if lowField s = 5 ∧ mod = 0 then
    let d ← rd (off + 1) .w32
    pure (.sibDisp (Scale.ofBits (topField s)) (indexOfBits (midField s)) d, 5)
  else
    let (d, n) ← readDisp rd (off + 1) mod .o32
    pure (.sib (Scale.ofBits (topField s)) (indexOfBits (midField s)) (RegNum.ofBits (lowField s)) d, 1 + n)

/-- `EA32` (40_effective_address.md R105). -/
def readAddr32 (rd : Reader) (off : Nat) (mod : BitVec 2) (rm : BitVec 3) : Except Nat (Addr32 × Nat) :=
  if rm = 4 then readSib rd off mod
  else if rm = 5 ∧ mod = 0 then do
    let d ← rd off .w32
    pure (.disp d, 4)
  else do
    let (d, n) ← readDisp rd off mod .o32
    pure (.based (RegNum.ofBits rm) d, n)

/-- `DecodeModRM` (40_effective_address.md R101): the rm operand E, the register operand G, and the bytes consumed. -/
def readModRM (rd : Reader) (off : Nat) (asz : AdSize) : Except Nat (RM × RegNum × Nat) := do
  let m ← rd off .w8
  let g := RegNum.ofBits (midField m)
  if topField m = 3 then pure (.reg (RegNum.ofBits (lowField m)), g, 1)
  else
    match asz with
    | .a16 =>
      let (x, n) ← readAddr16 rd (off + 1) (topField m) (lowField m)
      pure (.mem (.a16 x), g, 1 + n)
    | .a32 =>
      let (x, n) ← readAddr32 rd (off + 1) (topField m) (lowField m)
      pure (.mem (.a32 x), g, 1 + n)

/-- The immediate of an Iz form: `FetchStream(w/8)` (30_encoding.md R85). -/
def readImmZ (rd : Reader) (off : Nat) : OpSize → Except Nat (ImmZ × Nat)
  | .o16 => do
    let v ← rd off .w16
    pure (.i16 v, 2)
  | .o32 => do
    let v ← rd off .w32
    pure (.i32 v, 4)

/-! ### The opcode map (30_encoding.md R86, R87) -/

/-- What follows an opcode byte, and the instruction made of it (30_encoding.md R87). -/
inductive Form where
  /-- Eb,Gb and Gb,Eb: a ModR/M byte, w = 8. -/
  | modrmB (mk : RM → RegNum → Instr)
  /-- Ev,Gv and Gv,Ev: a ModR/M byte, w = 16 or 32. -/
  | modrmV (mk : OpSize → RM → RegNum → Instr)
  /-- AL,Ib: one immediate byte. -/
  | immB (mk : BitVec 8 → Instr)
  /-- eAX,Iz: an immediate of two or four bytes. -/
  | immZ (mk : ImmZ → Instr)
  /-- Nothing follows. -/
  | single (i : Instr)

/-- The dispatch table (30_encoding.md R86). -/
def formOf (op : Byte) : Option Form :=
  match op.toNat with
  | 0x00 => some (.modrmB fun e g => .addEbGb e g)
  | 0x01 => some (.modrmV fun w e g => .addEvGv w e g)
  | 0x02 => some (.modrmB fun e g => .addGbEb g e)
  | 0x03 => some (.modrmV fun w e g => .addGvEv w g e)
  | 0x04 => some (.immB fun b => .addALIb b)
  | 0x05 => some (.immZ fun z => .addEAXIz z)
  | 0x06 => some (.single .pushES)
  | 0x07 => some (.single .popES)
  | 0x08 => some (.modrmB fun e g => .orEbGb e g)
  | 0x09 => some (.modrmV fun w e g => .orEvGv w e g)
  | 0x0A => some (.modrmB fun e g => .orGbEb g e)
  | 0x0B => some (.modrmV fun w e g => .orGvEv w g e)
  | 0x0C => some (.immB fun b => .orALIb b)
  | 0x0D => some (.immZ fun z => .orEAXIz z)
  | 0x0E => some (.single .pushCS)
  | 0x10 => some (.modrmB fun e g => .adcEbGb e g)
  | 0x11 => some (.modrmV fun w e g => .adcEvGv w e g)
  | 0x12 => some (.modrmB fun e g => .adcGbEb g e)
  | 0x13 => some (.modrmV fun w e g => .adcGvEv w g e)
  | 0x14 => some (.immB fun b => .adcALIb b)
  | 0x15 => some (.immZ fun z => .adcEAXIz z)
  | 0x16 => some (.single .pushSS)
  | 0x17 => some (.single .popSS)
  | 0xF4 => some (.single .hlt)
  | _ => none

/-- Read what follows the opcode: the instruction without its prefixes and the bytes consumed after the opcode. -/
def readForm (rd : Reader) (off : Nat) (osz : OpSize) (asz : AdSize) : Form → Except Nat (Instr × Nat)
  | .modrmB mk => do
    let (e, g, n) ← readModRM rd off asz
    pure (mk e g, n)
  | .modrmV mk => do
    let (e, g, n) ← readModRM rd off asz
    pure (mk osz e g, n)
  | .immB mk => do
    let b ← rd off .w8
    pure (mk b, 1)
  | .immZ mk => do
    let (z, n) ← readImmZ rd off osz
    pure (mk z, n)
  | .single i => .ok (i, 0)

/-- The instruction at the start of the stream and its length in bytes (30_encoding.md R92; 41_fetch_dispatch.md R122
to R126). `fuel` bounds the prefix scan. -/
def decodeWith (rd : Reader) (fuel : Nat) : Except DecodeStop (Instr × Nat) :=
  match scanPrefixes rd fuel 0 with
  | .error e => .error e
  | .ok (ps, op) =>
    match formOf op with
    | none => .error (.unmapped ps op)
    | some f =>
      match readForm rd (ps.length + 1) (operandSize ps) (addressSize ps) f with
      | .error a => .error (.outOfRange a)
      | .ok (j, n) => .ok (j.withPrefixes ps, ps.length + 1 + n)

/-- Decode the instruction at the head of a byte list; its length says where the rest begins. -/
def decode (l : List Byte) : Except DecodeStop (Instr × Nat) := decodeWith (listReader l) (l.length + 1)

/-! ### The encoder -/

/-- The opcode byte of an instruction (30_encoding.md R86). -/
def Instr.opcode : Instr → Byte
  | .addEbGb _ _ => 0x00
  | .addEvGv _ _ _ => 0x01
  | .addGbEb _ _ => 0x02
  | .addGvEv _ _ _ => 0x03
  | .addALIb _ => 0x04
  | .addEAXIz _ => 0x05
  | .pushES => 0x06
  | .popES => 0x07
  | .orEbGb _ _ => 0x08
  | .orEvGv _ _ _ => 0x09
  | .orGbEb _ _ => 0x0A
  | .orGvEv _ _ _ => 0x0B
  | .orALIb _ => 0x0C
  | .orEAXIz _ => 0x0D
  | .pushCS => 0x0E
  | .adcEbGb _ _ => 0x10
  | .adcEvGv _ _ _ => 0x11
  | .adcGbEb _ _ => 0x12
  | .adcGvEv _ _ _ => 0x13
  | .adcALIb _ => 0x14
  | .adcEAXIz _ => 0x15
  | .pushSS => 0x16
  | .popSS => 0x17
  | .hlt => 0xF4
  | .es j => j.opcode
  | .cs j => j.opcode
  | .ss j => j.opcode
  | .ds j => j.opcode
  | .fs j => j.opcode
  | .gs j => j.opcode
  | .o16 j => j.opcode
  | .a16 j => j.opcode

/-- The register operand G of a ModR/M form; none for the other instructions. -/
def Instr.reg? : Instr → Option RegNum
  | .addEbGb _ g => some g
  | .addEvGv _ _ g => some g
  | .addGbEb g _ => some g
  | .addGvEv _ g _ => some g
  | .orEbGb _ g => some g
  | .orEvGv _ _ g => some g
  | .orGbEb g _ => some g
  | .orGvEv _ g _ => some g
  | .adcEbGb _ g => some g
  | .adcEvGv _ _ g => some g
  | .adcGbEb g _ => some g
  | .adcGvEv _ g _ => some g
  | .es j => j.reg?
  | .cs j => j.reg?
  | .ss j => j.reg?
  | .ds j => j.reg?
  | .fs j => j.reg?
  | .gs j => j.reg?
  | .o16 j => j.reg?
  | .a16 j => j.reg?
  | _ => none

/-- The bytes of an Iz immediate. -/
def ImmZ.bytes : ImmZ → List Byte
  | .i16 v => leBytes 2 v.toNat
  | .i32 v => leBytes 4 v.toNat

/-- The immediate bytes of an instruction, little-endian (30_encoding.md R85). -/
def Instr.immBytes : Instr → List Byte
  | .addALIb b => [b]
  | .orALIb b => [b]
  | .adcALIb b => [b]
  | .addEAXIz z => z.bytes
  | .orEAXIz z => z.bytes
  | .adcEAXIz z => z.bytes
  | .es j => j.immBytes
  | .cs j => j.immBytes
  | .ss j => j.immBytes
  | .ds j => j.immBytes
  | .fs j => j.immBytes
  | .gs j => j.immBytes
  | .o16 j => j.immBytes
  | .a16 j => j.immBytes
  | _ => []

/-- The mod field that selects a displacement (30_encoding.md R80, R81). -/
def Disp.mod {n : Nat} : Disp n → BitVec 2
  | .d0 => 0
  | .d8 _ => 1
  | .full _ => 2

/-- The bytes of a displacement, little-endian (30_encoding.md R83); n is the full width in bits. -/
def Disp.bytes {n : Nat} : Disp n → List Byte
  | .d0 => []
  | .d8 d => [d]
  | .full d => leBytes (n / 8) d.toNat

/-- The mod field of an rm operand. -/
def RM.mod : RM → BitVec 2
  | .reg _ => 3
  | .mem (.a16 (.disp _)) => 0
  | .mem (.a16 (.based _ d)) => d.mod
  | .mem (.a32 (.disp _)) => 0
  | .mem (.a32 (.based _ d)) => d.mod
  | .mem (.a32 (.sib _ _ _ d)) => d.mod
  | .mem (.a32 (.sibDisp _ _ _)) => 0

/-- The rm field of an rm operand. -/
def RM.rm : RM → BitVec 3
  | .reg n => n.bits
  | .mem (.a16 (.disp _)) => 6
  | .mem (.a16 (.based b _)) => b.bits
  | .mem (.a32 (.disp _)) => 5
  | .mem (.a32 (.based b _)) => b.bits
  | .mem (.a32 (.sib _ _ _ _)) => 4
  | .mem (.a32 (.sibDisp _ _ _)) => 4

/-- The SIB byte of an rm operand, where it has one (30_encoding.md R82). -/
def RM.sib : RM → Option Byte
  | .mem (.a32 (.sib s i b _)) => some (fieldsByte s.bits (indexBits i) b.bits)
  | .mem (.a32 (.sibDisp s i _)) => some (fieldsByte s.bits (indexBits i) 5)
  | _ => none

/-- The displacement bytes of an rm operand. -/
def RM.dispBytes : RM → List Byte
  | .reg _ => []
  | .mem (.a16 (.disp d)) => leBytes 2 d.toNat
  | .mem (.a16 (.based _ d)) => d.bytes
  | .mem (.a32 (.disp d)) => leBytes 4 d.toNat
  | .mem (.a32 (.based _ d)) => d.bytes
  | .mem (.a32 (.sib _ _ _ d)) => d.bytes
  | .mem (.a32 (.sibDisp _ _ d)) => leBytes 4 d.toNat

/-- The bytes of a ModR/M form after its opcode: ModR/M, SIB, displacement (30_encoding.md R70). -/
def RM.encode (e : RM) (g : RegNum) : List Byte :=
  fieldsByte e.mod g.bits e.rm :: (e.sib.toList ++ e.dispBytes)

/-- The bytes of an instruction after its opcode. -/
def Instr.tailBytes (i : Instr) : List Byte :=
  match i.rm?, i.reg? with
  | some e, some g => e.encode g
  | _, _ => i.immBytes

/-- The bytes of an instruction: prefixes, opcode, ModR/M, SIB, displacement, immediate (30_encoding.md R70). -/
def encode (i : Instr) : List Byte := i.prefixes.map Prefix.byte ++ i.opcode :: i.tailBytes

/-! ### Lengths (30_encoding.md R88) -/

/-- S + D of an rm operand: the SIB byte and the displacement bytes (30_encoding.md R88). -/
def RM.extraLength : RM → Nat
  | .reg _ => 0
  | .mem (.a16 (.disp _)) => 2
  | .mem (.a16 (.based _ .d0)) => 0
  | .mem (.a16 (.based _ (.d8 _))) => 1
  | .mem (.a16 (.based _ (.full _))) => 2
  | .mem (.a32 (.disp _)) => 4
  | .mem (.a32 (.based _ .d0)) => 0
  | .mem (.a32 (.based _ (.d8 _))) => 1
  | .mem (.a32 (.based _ (.full _))) => 4
  | .mem (.a32 (.sib _ _ _ .d0)) => 1
  | .mem (.a32 (.sib _ _ _ (.d8 _))) => 2
  | .mem (.a32 (.sib _ _ _ (.full _))) => 5
  | .mem (.a32 (.sibDisp _ _ _)) => 5

/-- The bytes `DecodeModRM` consumes: the ModR/M byte, then S + D. -/
def RM.length (e : RM) : Nat := 1 + e.extraLength

/-- The bytes of an Iz immediate: w/8 (30_encoding.md R85). -/
def ImmZ.length : ImmZ → Nat
  | .i16 _ => 2
  | .i32 _ => 4

/-- L, the length of an instruction in bytes: prefixes, opcode, then ModR/M with S + D, or the immediate
(30_encoding.md R88). -/
def Instr.length (i : Instr) : Nat :=
  i.prefixes.length + 1 +
    match i.rm? with
    | some e => e.length
    | none => i.immBytes.length

/-! ### The opcode record (10_state.md R40) -/

/-- The opcode record of a cycle; a field the cycle does not set is absent. It is transient: no rule reads the record of
an earlier cycle and the host cannot see it, so it is no part of the state. -/
structure OpcodeRecord where
  prefixes : List Byte
  startEip : Word
  opcode : Option Byte
  modrm : Option Byte
  sib : Option Byte
  deriving DecidableEq, Repr

/-- The record's field mod. -/
def OpcodeRecord.mod (r : OpcodeRecord) : Option (BitVec 2) := r.modrm.map topField
/-- The record's field reg. -/
def OpcodeRecord.reg (r : OpcodeRecord) : Option (BitVec 3) := r.modrm.map midField
/-- The record's field rm. -/
def OpcodeRecord.rm (r : OpcodeRecord) : Option (BitVec 3) := r.modrm.map lowField
/-- The record's field scale. -/
def OpcodeRecord.scale (r : OpcodeRecord) : Option (BitVec 2) := r.sib.map topField
/-- The record's field index. -/
def OpcodeRecord.index (r : OpcodeRecord) : Option (BitVec 3) := r.sib.map midField
/-- The record's field base. -/
def OpcodeRecord.base (r : OpcodeRecord) : Option (BitVec 3) := r.sib.map lowField

/-- The record that a cycle which starts at `startEip` and decodes i has made (what `recordWith` reads then, Laws/Record). -/
def Instr.record (i : Instr) (startEip : Word) : OpcodeRecord where
  prefixes := i.prefixes.map Prefix.byte
  startEip := startEip
  opcode := some i.opcode
  modrm := i.rm?.bind fun e => i.reg?.map fun g => fieldsByte e.mod g.bits e.rm
  sib := i.rm?.bind RM.sib

/-- The prefixes the scan appends to the record, and the opcode byte if the scan comes to one (41_fetch_dispatch.md R123);
a byte that cannot be read ends both. -/
def scanRecord (rd : Reader) : (fuel off : Nat) → List Byte × Option Byte
  | 0, _ => ([], none)
  | fuel + 1, off =>
    match rd off .w8 with
    | .error _ => ([], none)
    | .ok b =>
      match Prefix.ofByte b with
      | none => ([], some b)
      | some _ => (b :: (scanRecord rd fuel (off + 1)).1, (scanRecord rd fuel (off + 1)).2)

/-- A SIB byte follows this ModR/M byte (30_encoding.md R82). -/
def sibFollows (asz : AdSize) (m : Byte) : Bool := asz == .a32 && topField m != 3 && lowField m == 4

/-- The raw ModR/M and SIB bytes `DecodeModRM` sets, each if it is read (40_effective_address.md R101, R107). -/
def modrmRecord (rd : Reader) (off : Nat) (asz : AdSize) : Option Byte × Option Byte :=
  match rd off .w8 with
  | .error _ => (none, none)
  | .ok m => (some m, if sibFollows asz m then (rd (off + 1) .w8).toOption else none)

/-- The form has a ModR/M byte (30_encoding.md R87). -/
def Form.hasModRM : Form → Bool
  | .modrmB _ => true
  | .modrmV _ => true
  | .immB _ => false
  | .immZ _ => false
  | .single _ => false

/-- The bytes after the opcode that the record holds: a ModR/M form's, nothing for the others or an unmapped opcode. -/
def tailRecord (rd : Reader) (off : Nat) (asz : AdSize) (op : Byte) : Option Byte × Option Byte :=
  if (formOf op).any Form.hasModRM then modrmRecord rd off asz else (none, none)

/-- The record of a cycle that starts at `startEip`, whether it decodes an instruction, meets an unmapped opcode or stops
at a byte it cannot read: each field is there exactly if the cycle came to set it (R40; 41_fetch_dispatch.md R121 to R123;
40_effective_address.md R101, R107). -/
def recordWith (rd : Reader) (fuel : Nat) (startEip : Word) : OpcodeRecord :=
  match scanRecord rd fuel 0 with
  | (ps, none) => { prefixes := ps, startEip := startEip, opcode := none, modrm := none, sib := none }
  | (ps, some op) =>
    let asz := if Prefix.byte .a16 ∈ ps then AdSize.a16 else defaultAdSize
    let tail := tailRecord rd (ps.length + 1) asz op
    { prefixes := ps, startEip := startEip, opcode := some op, modrm := tail.1, sib := tail.2 }

/-! ### The opcode table's words -/

/-- The bytes of the word w of nbits bits, the first byte its low 8 bits, with zero bytes after them up to the longest
operands (11 bytes are more than any instruction has after its prefixes). -/
def tableBytes (nbits w : Nat) : List Byte := leBytes ((nbits + 7) / 8) w ++ List.replicate 11 0

/-- The instruction the decoder reads from the word w of nbits bits, every later byte 0. -/
def decodeTableWord (nbits w : Nat) : Option Instr :=
  match decode (tableBytes nbits w) with
  | .ok (i, _) => some i
  | .error _ => none

end Sys2Proof
end

