-- ==== Sys2Proof/Machine/State.lean ====
section
/-! DEFINITION. The machine's state (10_state.md): the register slots, the flag store, the halted bit, the fault
status, the memory, the diagnostic stream and the parameters the core was constructed with; the names of the register
views and flags; the reasons a step can stop; and reset (70_reset_and_hazards.md R230). -/

namespace Sys2Proof.Machine

/-! ### Names of registers and flags -/

/-- The eight general slots (10_state.md R20, R21), in the order of the register number. -/
inductive Gpr where
  | eax | ecx | edx | ebx | esp | ebp | esi | edi
  deriving DecidableEq, Repr

/-- The four general slots with 8-bit views (10_state.md R22, R23). -/
inductive ByteGpr where
  | a | c | d | b
  deriving DecidableEq, Repr

/-- The six segment slots (10_state.md R20). -/
inductive Seg where
  | cs | ds | es | fs | gs | ss
  deriving DecidableEq, Repr

/-- The register views, and no others (10_state.md R22, R23, R26). -/
inductive View where
  /-- EAX .. EDI. -/
  | r32 (g : Gpr)
  /-- AX, CX, DX, BX, SP, BP, SI, DI: bits 15:0. -/
  | r16 (g : Gpr)
  /-- AL, CL, DL, BL: bits 7:0. -/
  | lo8 (g : ByteGpr)
  /-- AH, CH, DH, BH: bits 15:8. -/
  | hi8 (g : ByteGpr)
  | eip
  /-- IP: bits 15:0 of EIP. -/
  | ip
  | seg (x : Seg)
  deriving DecidableEq, Repr

/-- The width of a view (10_state.md R22). -/
abbrev View.bits : View → Nat
  | .r32 _ => 32
  | .r16 _ => 16
  | .lo8 _ => 8
  | .hi8 _ => 8
  | .eip => 32
  | .ip => 16
  | .seg _ => 16

/-- The flag names (10_state.md R28). -/
inductive FlagName where
  | cf | pf | af | zf | sf | tf | intf | df | ovf | iopl | nt | rf | vm
  deriving DecidableEq, Repr

/-! ### Memory, fault status, diagnostics -/

/-- Memory: (address, byte) pairs, addresses strictly rising, no byte equal to `Memory.unlisted`. -/
abbrev Memory := List Host.Cell

/-- What an address that is not listed reads as. Every contents of N bytes is a `Memory`, so this is a representation
and no claim about MEM_INIT (00_scope.md R9); only `State.reset` fixes the contents (log entry 2). -/
def Memory.unlisted : BitVec 8 := 0

/-- The canonical form: equal memories are equal lists. -/
abbrev Memory.wf (m : Memory) : Prop :=
  m.Pairwise (fun x y => x.1 < y.1) ∧ ∀ c ∈ m, c.2 ≠ Memory.unlisted

/-- The fault status (10_state.md R37, 60_exceptions.md R212): a is the first out-of-range byte address, in 0..2^32. -/
inductive FaultStatus where
  | none
  | addressOutOfRange (a : Nat)
  deriving DecidableEq, Repr

/-- The event `Diag(byte, addr)` of an unmapped opcode (41_fetch_dispatch.md R128). -/
structure Diag where
  byte : BitVec 8
  addr : Word
  deriving DecidableEq, Repr

/-! ### The state -/

/-- The state of the core between two cycles (10_state.md). -/
structure State where
  eax : Word
  ecx : Word
  edx : Word
  ebx : Word
  esp : Word
  ebp : Word
  esi : Word
  edi : Word
  /-- The address of the first byte of the next instruction (R34). -/
  eip : Word
  cs : BitVec 16
  ds : BitVec 16
  es : BitVec 16
  fs : BitVec 16
  gs : BitVec 16
  ss : BitVec 16
  /-- The flag store: bit i is the flag cell i (R28, R32). -/
  eflags : BitVec flagIndexCount
  halted : Bool
  faultStatus : FaultStatus
  mem : Memory
  /-- The diagnostic stream, oldest event first (R39). -/
  diag : List Diag
  /-- The parameters the core was constructed with (00_scope.md R3, R7, R8); no step changes them. -/
  cfg : Config
  deriving DecidableEq, Repr

/-! ### Why a step stops -/

/-- The one way a step has no successor state. -/
inductive Fault where
  /-- N = 2^32 and every byte of memory is a prefix byte: the prefix scan never ends and the cycle never returns, "a
  hang, not a fault" (41_fetch_dispatch.md R124). Raised by `step`. Safe: the hardware has no successor state. -/
  | prefixScanHang
  deriving DecidableEq, Repr

/-- Why an instruction has no meaning. -/
inductive Refusal where
  /-- Raised by `exec` for an instruction not modelled yet: none is left. Safe. -/
  | notModelled (mnemonic : String)
  deriving DecidableEq, Repr

/-! ### Reset -/

/-- The reset state of a core with the given parameters, memory and diagnostic stream (70_reset_and_hazards.md R230):
every register slot 0 but ESP, every flag cell 0 but cell 1. -/
def State.resetOf (cfg : Config) (mem : Memory) (diag : List Diag) : State where
  eax := 0
  ecx := 0
  edx := 0
  ebx := 0
  esp := 0x0000FFFF
  ebp := 0
  esi := 0
  edi := 0
  eip := 0
  cs := 0
  ds := 0
  es := 0
  fs := 0
  gs := 0
  ss := 0
  eflags := 0x00000002
  halted := false
  faultStatus := .none
  mem := mem
  diag := diag
  cfg := cfg

/-- Reset as the host applies it between cycles: memory, the diagnostic stream and the parameters stay
(70_reset_and_hazards.md R230, R233; 20_memory.md R59). -/
def State.applyReset (s : State) : State := State.resetOf s.cfg s.mem s.diag

/-- The machine right after construction and reset. DESIGN CHOICE: N = 0x20000 (log entry 1), MEM_INIT all zero (log
entry 2), no diagnostic yet (log entry 3). -/
def State.reset : State := State.resetOf Config.initial [] []

end Sys2Proof.Machine
end

