-- ==== Sys2Proof/Machine/Flags.lean ====
section
/-! DEFINITION. The flag store's cells (10_state.md R28 to R30) and the ALU with its flag generation (42_alu.md). -/

namespace Sys2Proof.Machine

/-- The flag store (10_state.md R28): bit i is cell i. -/
abbrev FlagStore := BitVec flagIndexCount

/-- The cell of a flag name, the lower one for IOPL (10_state.md R28). -/
def FlagName.cell : FlagName → Fin flagIndexCount
  | .cf => 0
  | .pf => 2
  | .af => 4
  | .zf => 6
  | .sf => 7
  | .tf => 8
  | .intf => 9
  | .df => 10
  | .ovf => 11
  | .iopl => 12
  | .nt => 14
  | .rf => 16
  | .vm => 17

/-- The cells a flag name names: two for IOPL, one for every other (10_state.md R28, C5). -/
def FlagName.cells : FlagName → List (Fin flagIndexCount)
  | .iopl => [12, 13]
  | f => [f.cell]

/-- `F[i]` (10_state.md R28). -/
def FlagStore.get (f : FlagStore) (i : Fin flagIndexCount) : Bool := f.getLsbD i.val

/-- `F[i] <- b` (10_state.md R28, R29): no other cell changes. -/
def FlagStore.set (f : FlagStore) (i : Fin flagIndexCount) (b : Bool) : FlagStore :=
  if b then f ||| BitVec.twoPow flagIndexCount i.val else f &&& ~~~(BitVec.twoPow flagIndexCount i.val)

/-! ### The ALU (42_alu.md) -/

/-- The operations of the ALU (R140). -/
inductive AluOp where
  | add | or | adc
  deriving DecidableEq, Repr

/-- `OverflowHeuristic` (R143, R152): a carry with a set sign is reported as overflow instead. `old` is F[OF]. -/
def overflowHeuristic (p : OfPolicy) (old cf sf : Bool) : Bool × Bool :=
  if cf && sf then (false, true)
  else
    match p with
    | .clear => (cf, false)
    | .preserve => (cf, old)

/-- `parity8` (00_scope.md section 5): bits 7:0 hold an even number of ones. -/
def parity8 {n : Nat} (r : BitVec n) : Bool :=
  !(r.getLsbD 0 ^^ r.getLsbD 1 ^^ r.getLsbD 2 ^^ r.getLsbD 3 ^^ r.getLsbD 4 ^^ r.getLsbD 5 ^^ r.getLsbD 6 ^^ r.getLsbD 7)

/-- AF: the sum of the low nibbles and the carry-in exceeds 15 (R146). -/
def auxCarry {n : Nat} (a b : BitVec n) (c : Bool) : Bool :=
  decide (15 < a.toNat % 16 + b.toNat % 16 + c.toNat)

/-- SF, ZF and PF of a result (R143, R144, R145), the part of the flags ADD, ADC and OR share (R149). -/
def resultFlags {n : Nat} (r : BitVec n) (f : FlagStore) : FlagStore :=
  ((f.set FlagName.sf.cell r.msb).set FlagName.zf.cell (r == 0)).set FlagName.pf.cell (parity8 r)

/-- ADD (carry-in false) and ADC: the sum truncated to the width (R141), and the flags CF, OF, SF, ZF, PF, AF (R142 to
R147). -/
def aluSum {n : Nat} (p : OfPolicy) (a b : BitVec n) (c : Bool) (f : FlagStore) : BitVec n × FlagStore :=
  let r := BitVec.ofNat n (a.toNat + b.toNat + c.toNat)
  let (cf, ovf) := overflowHeuristic p (f.get FlagName.ovf.cell) (decide (r.toNat < a.toNat)) r.msb
  (r, (resultFlags r ((f.set FlagName.cf.cell cf).set FlagName.ovf.cell ovf)).set FlagName.af.cell (auxCarry a b c))

/-- OR: CF and OF become 0 and AF stays (R148, R149, R150). -/
def aluOr {n : Nat} (a b : BitVec n) (f : FlagStore) : BitVec n × FlagStore :=
  let r := a ||| b
  (r, resultFlags r ((f.set FlagName.cf.cell false).set FlagName.ovf.cell false))

/-- The ALU (R140, R153): the result and the flag store; ADC's carry-in is F[CF] before the instruction. -/
def alu {n : Nat} (p : OfPolicy) (op : AluOp) (a b : BitVec n) (f : FlagStore) : BitVec n × FlagStore :=
  match op with
  | .add => aluSum p a b false f
  | .or => aluOr a b f
  | .adc => aluSum p a b (f.get FlagName.cf.cell) f

end Sys2Proof.Machine
end

