-- ==== Sys2Proof/Machine/Ops.lean ====
section
/-! DEFINITION. The named operations on the state: register views (10_state.md R22 to R27), flag cells, memory
(20_memory.md R53, R54), the instruction pointer, and the ends of a cycle: the AddressOutOfRange fault (60_exceptions.md
R212, R213), whose only way back is `State.applyReset` (R214), and the unmapped opcode (41_fetch_dispatch.md R127). -/

namespace Sys2Proof.Machine

/-! ### Register views -/

/-- The slot of a general register. -/
def State.gpr (s : State) : Gpr → Word
  | .eax => s.eax
  | .ecx => s.ecx
  | .edx => s.edx
  | .ebx => s.ebx
  | .esp => s.esp
  | .ebp => s.ebp
  | .esi => s.esi
  | .edi => s.edi

/-- The state with one general slot replaced. -/
def State.setGpr (s : State) (g : Gpr) (v : Word) : State :=
  match g with
  | .eax => { s with eax := v }
  | .ecx => { s with ecx := v }
  | .edx => { s with edx := v }
  | .ebx => { s with ebx := v }
  | .esp => { s with esp := v }
  | .ebp => { s with ebp := v }
  | .esi => { s with esi := v }
  | .edi => { s with edi := v }

/-- The segment slot. -/
def State.segReg (s : State) : Seg → BitVec 16
  | .cs => s.cs
  | .ds => s.ds
  | .es => s.es
  | .fs => s.fs
  | .gs => s.gs
  | .ss => s.ss

/-- The state with one segment slot replaced. -/
def State.setSeg (s : State) (x : Seg) (v : BitVec 16) : State :=
  match x with
  | .cs => { s with cs := v }
  | .ds => { s with ds := v }
  | .es => { s with es := v }
  | .fs => { s with fs := v }
  | .gs => { s with gs := v }
  | .ss => { s with ss := v }

/-- The slot of an 8-bit view (10_state.md R22). -/
def ByteGpr.gpr : ByteGpr → Gpr
  | .a => .eax
  | .c => .ecx
  | .d => .edx
  | .b => .ebx

/-- `R[x]`: the view's bits of its slot, shifted down (10_state.md R24). -/
def State.get (s : State) : (x : View) → BitVec x.bits
  | .r32 g => s.gpr g
  | .r16 g => (s.gpr g).extractLsb' 0 16
  | .lo8 g => (s.gpr g.gpr).extractLsb' 0 8
  | .hi8 g => (s.gpr g.gpr).extractLsb' 8 8
  | .eip => s.eip
  | .ip => s.eip.extractLsb' 0 16
  | .seg x => s.segReg x

/-- `R[x] <- v`: merge into the slot; no other bit of it changes (10_state.md R25). -/
def State.set (s : State) : (x : View) → BitVec x.bits → State
  | .r32 g, v => s.setGpr g v
  | .r16 g, v => s.setGpr g ((s.gpr g).extractLsb' 16 16 ++ (v : BitVec 16))
  | .lo8 g, v => s.setGpr g.gpr ((s.gpr g.gpr).extractLsb' 8 24 ++ (v : BitVec 8))
  | .hi8 g, v => s.setGpr g.gpr ((s.gpr g.gpr).extractLsb' 16 16 ++ (v : BitVec 8) ++ (s.gpr g.gpr).extractLsb' 0 8)
  | .eip, v => { s with eip := v }
  | .ip, v => { s with eip := s.eip.extractLsb' 16 16 ++ (v : BitVec 16) }
  | .seg x, v => s.setSeg x v

/-- `Inc(x, k)` on a general slot, modulo 2^32 (10_state.md R27); the new value is the slot's. -/
def State.incGpr (s : State) (g : Gpr) (k : Nat) : State := s.setGpr g (s.gpr g + BitVec.ofNat 32 k)

/-- `Dec(x, k)` on a general slot, modulo 2^32 (10_state.md R27); the new value is the slot's. -/
def State.decGpr (s : State) (g : Gpr) (k : Nat) : State := s.setGpr g (s.gpr g - BitVec.ofNat 32 k)

/-! ### Flag cells -/

/-- `F[i]`. -/
def State.flag (s : State) (i : Fin flagIndexCount) : Bool := FlagStore.get s.eflags i

/-- `F[i] <- b`. -/
def State.setFlag (s : State) (i : Fin flagIndexCount) (b : Bool) : State :=
  { s with eflags := FlagStore.set s.eflags i b }

/-! ### The instruction pointer -/

/-- `Inc(EIP, n)`, modulo 2^32 (10_state.md R27, R35): n bytes of the instruction stream are consumed. -/
def State.consume (s : State) (n : Nat) : State := { s with eip := s.eip + BitVec.ofNat 32 n }

/-- The final advance that accounts for the opcode byte (41_fetch_dispatch.md R129). -/
def State.finalAdvance (s : State) : State := s.consume 1

/-! ### Memory -/

/-- The byte at an address. -/
def Memory.read : Memory → Nat → Byte
  | [], _ => Memory.unlisted
  | (k, b) :: m, a => if k = a then b else Memory.read m a

/-- The memory with one byte replaced, in canonical form. -/
def Memory.write : Memory → Nat → Byte → Memory
  | [], a, b => if b = Memory.unlisted then [] else [(a, b)]
  | (k, c) :: m, a, b =>
    if a < k then if b = Memory.unlisted then (k, c) :: m else (a, b) :: (k, c) :: m
    else if a = k then if b = Memory.unlisted then m else (a, b) :: m
    else (k, c) :: Memory.write m a b

/-- The value of the n bytes from address a on, little-endian (20_memory.md R52, R53). -/
def Memory.load (m : Memory) (a : Nat) : (n : Nat) → Nat
  | 0 => 0
  | n + 1 => (m.read a).toNat + 256 * Memory.load m (a + 1) n

/-- The memory with the n low bytes of v stored from address a on, little-endian (20_memory.md R52, R54). -/
def Memory.store (m : Memory) (a : Nat) : (n : Nat) → (v : Nat) → Memory
  | 0, _ => m
  | n + 1, v => Memory.store (m.write a (BitVec.ofNat 8 v)) (a + 1) n (v / 256)

/-- The bytes of an access of width w at address a all lie below N: `addr + n <= N`, without wrap (20_memory.md R53). -/
def State.inRange (s : State) (a : Word) (w : Width) : Bool := decide (a.toNat + w.bytes ≤ s.cfg.memSize)

/-- The address an out-of-range access reports: its first byte at or beyond N (20_memory.md R53, 60_exceptions.md R212). -/
def State.outOfRangeAt (s : State) (a : Word) : Nat := max a.toNat s.cfg.memSize

/-- `MemRead(addr, n)` (20_memory.md R53): the value, or the address it reports. -/
def State.memRead (s : State) (a : Word) (w : Width) : Except Nat (BitVec w.bits) :=
  if s.inRange a w then .ok (BitVec.ofNat w.bits (s.mem.load a.toNat w.bytes)) else .error (s.outOfRangeAt a)

/-- `MemWrite(addr, n, v)` (20_memory.md R54): the state after, or the address it reports, no byte written. -/
def State.memWrite (s : State) (a : Word) (w : Width) (v : BitVec w.bits) : Except Nat State :=
  if s.inRange a w then .ok { s with mem := s.mem.store a.toNat w.bytes v.toNat } else .error (s.outOfRangeAt a)

/-! ### Fetching -/

/-- The instruction stream at EIP: each field is one `MemRead` at its own address modulo 2^32 (30_encoding.md R84,
10_state.md R35). -/
def State.streamReader (s : State) : Reader := fun off w => s.memRead (s.eip + BitVec.ofNat 32 off) w

/-- Fetch and decode the instruction at EIP. The scan may read every byte of memory, so its fuel is N + 1. -/
def State.fetchDecode (s : State) : Except DecodeStop (Instr × Nat) := decodeWith s.streamReader (s.cfg.memSize + 1)

/-! ### The ends of a cycle -/

/-- The outcome type of this machine. -/
abbrev Result := Host.Outcome State Fault Refusal

/-- TAKING THE FAULT AddressOutOfRange(a): the state at the start of the cycle with the fault status set. No register is
saved elsewhere and no control is transferred (41_fetch_dispatch.md R131, 60_exceptions.md R213). There is no return:
`State.applyReset` is the only way out (R214). -/
def takeFault (saved : State) (a : Nat) : State := { saved with faultStatus := .addressOutOfRange a }

/-- The end of a cycle that began in `saved` (41_fetch_dispatch.md R122, R131). -/
def endCycle (saved : State) : Except Nat State → Result
  | .ok t => .next t
  | .error a => .next (takeFault saved a)

/-- An unmapped opcode after p prefixes: the diagnostic with the opcode's address, then the final advance
(41_fetch_dispatch.md R127 to R129). -/
def unmappedOpcode (p : Nat) (op : Byte) (s : State) : State :=
  let t := s.consume p
  let t : State := { t with diag := t.diag ++ [{ byte := op, addr := t.eip }] }
  t.finalAdvance

/-- What a cycle does when the stream at EIP holds no instruction. -/
def stopDecode (s : State) : DecodeStop → Result
  | .outOfRange a => .next (takeFault s a)
  | .unmapped ps op => .next (unmappedOpcode ps.length op s)
  | .endless => .fault .prefixScanHang

/-- The core is quiescent: halted, or its fault status is not none (47_hlt.md R202). Then `cycle()` does nothing
(41_fetch_dispatch.md R120). -/
def State.stopped (s : State) : Bool := s.halted || s.faultStatus != .none

/-- The opcode record that the next cycle makes and drops again (10_state.md R40, 41_fetch_dispatch.md R121). A cycle that
is a no-op makes none (R121), and one whose prefix scan never ends has none to give (R124). -/
def State.cycleRecord (s : State) : Option OpcodeRecord :=
  if s.stopped then none
  else
    match s.fetchDecode with
    | .error .endless => none
    | _ => some (recordWith s.streamReader (s.cfg.memSize + 1) s.eip)

/-! ### Placing an instruction where the next step fetches -/

/-- Store bytes from offset `off` of EIP on; a byte at or beyond N has no place and is left out. -/
def State.pokeStream (s : State) : (off : Nat) → List Byte → State
  | _, [] => s
  | off, b :: bs =>
    let a := (s.eip + BitVec.ofNat 32 off).toNat
    State.pokeStream (if a < s.cfg.memSize then { s with mem := s.mem.write a b } else s) (off + 1) bs

end Sys2Proof.Machine
end

