-- ==== Sys2Proof/Machine/Operands.lean ====
section
/-! DEFINITION. Operands: the register table (30_encoding.md R79), the effective-address calculator and the operand
reads and writes (40_effective_address.md), and the handler shapes the three ALU families share (43_add.md). -/

namespace Sys2Proof.Machine

/-! ### Registers by number (30_encoding.md R79) -/

/-- The 32-bit column: EAX, ECX, EDX, EBX, ESP, EBP, ESI, EDI. -/
def gprOf : RegNum → Gpr
  | .r0 => .eax
  | .r1 => .ecx
  | .r2 => .edx
  | .r3 => .ebx
  | .r4 => .esp
  | .r5 => .ebp
  | .r6 => .esi
  | .r7 => .edi

/-- The 8-bit column: AL, CL, DL, BL, AH, CH, DH, BH. -/
def byteViewOf : RegNum → View
  | .r0 => .lo8 .a
  | .r1 => .lo8 .c
  | .r2 => .lo8 .d
  | .r3 => .lo8 .b
  | .r4 => .hi8 .a
  | .r5 => .hi8 .c
  | .r6 => .hi8 .d
  | .r7 => .hi8 .b

/-- `Reg(n, w)`. -/
def regView (n : RegNum) : Width → View
  | .w8 => byteViewOf n
  | .w16 => .r16 (gprOf n)
  | .w32 => .r32 (gprOf n)

/-! ### Effective addresses -/

/-- The displacement's value at the address width: disp8 is sign-extended (30_encoding.md R83). -/
def dispValue {n : Nat} : Disp n → BitVec n
  | .d0 => 0
  | .d8 d => d.signExtend n
  | .full d => d

/-- The base expression of 16-bit addressing, over the 16-bit views (40_effective_address.md R104). -/
def State.base16 (s : State) : Base16 → BitVec 16
  | .bxsi => s.get (.r16 .ebx) + s.get (.r16 .esi)
  | .bxdi => s.get (.r16 .ebx) + s.get (.r16 .edi)
  | .bpsi => s.get (.r16 .ebp) + s.get (.r16 .esi)
  | .bpdi => s.get (.r16 .ebp) + s.get (.r16 .edi)
  | .si => s.get (.r16 .esi)
  | .di => s.get (.r16 .edi)
  | .bp => s.get (.r16 .ebp)
  | .bx => s.get (.r16 .ebx)

/-- `EA16`: the sum modulo 2^16, zero-extended (40_effective_address.md R104, R106). -/
def State.ea16 (s : State) : Addr16 → Word
  | .disp d => d.setWidth 32
  | .based b d => (s.base16 b + dispValue d).setWidth 32

/-- The multiplier of a SIB scale (30_encoding.md R77). -/
def scaleFactor : Scale → Word
  | .x1 => 1
  | .x2 => 2
  | .x4 => 4
  | .x8 => 8

/-- The index part of a SIB address: 0 for "no index" (30_encoding.md R82). -/
def State.indexValue (s : State) (sc : Scale) : Option RegNum → Word
  | none => 0
  | some n => s.gpr (gprOf n) * scaleFactor sc

/-- `EA32` and `SIB32`: the sum modulo 2^32 (40_effective_address.md R105 to R107). -/
def State.ea32 (s : State) : Addr32 → Word
  | .disp d => d
  | .based b d => s.gpr (gprOf b) + dispValue d
  | .sib sc i b d => s.gpr (gprOf b) + s.indexValue sc i + dispValue d
  | .sibDisp sc i d => s.indexValue sc i + d

/-- The effective address of a memory operand. No segment base enters it (20_memory.md R57). -/
def State.ea (s : State) : Addr → Word
  | .a16 x => s.ea16 x
  | .a32 x => s.ea32 x

/-! ### Operand locations (40_effective_address.md R100, R109) -/

/-- An operand location. -/
inductive Loc where
  | reg (x : View)
  | mem (a : Word)
  deriving DecidableEq, Repr

/-- The location of the rm operand E (40_effective_address.md R101, R103). -/
def State.rmLoc (s : State) (w : Width) : RM → Loc
  | .reg n => .reg (regView n w)
  | .mem x => .mem (s.ea x)

/-- `R[Reg(n, w)]`. -/
def State.readReg (s : State) (n : RegNum) (w : Width) : BitVec w.bits := (s.get (regView n w)).setWidth w.bits

/-- `R[Reg(n, w)] <- v`. -/
def State.writeReg (s : State) (n : RegNum) (w : Width) (v : BitVec w.bits) : State :=
  s.set (regView n w) (v.setWidth _)

/-- `ReadOp(loc, w)` (40_effective_address.md R109). A register location of width w has a view of width w. -/
def State.readOp (s : State) (w : Width) : Loc → Except Nat (BitVec w.bits)
  | .reg x => .ok ((s.get x).setWidth w.bits)
  | .mem a => s.memRead a w

/-- `WriteOp(loc, w, v)` (40_effective_address.md R109). -/
def State.writeOp (s : State) (w : Width) (v : BitVec w.bits) : Loc → Except Nat State
  | .reg x => .ok (s.set x (v.setWidth _))
  | .mem a => s.memWrite a w v

/-- The ALU on the state: the result, and the state with its flags written (42_alu.md R153). -/
def State.runAlu (s : State) (op : AluOp) {n : Nat} (a b : BitVec n) : BitVec n × State :=
  let (r, f) := alu s.cfg.ofUntriggered op a b s.eflags
  (r, { s with eflags := f })

/-! ### The handler shapes -/

/-- The forms Eb,Gb and Ev,Gv (43_add.md R160, R161): E is the destination and the first source, G the second. The
location is computed once, before any operand access (40_effective_address.md R108; 20_memory.md R63). -/
def aluRmReg (op : AluOp) (w : Width) (e : RM) (g : RegNum) (s : State) : Except Nat State := do
  let s := s.consume e.length
  let loc := s.rmLoc w e
  let a ← s.readOp w loc
  let (r, s) := s.runAlu op a (s.readReg g w)
  let s ← s.writeOp w r loc
  pure s.finalAdvance

/-- The forms Gb,Eb and Gv,Ev (43_add.md R162, R163): G is the destination and the first source, E the second. -/
def aluRegRm (op : AluOp) (w : Width) (g : RegNum) (e : RM) (s : State) : Except Nat State := do
  let s := s.consume e.length
  let b ← s.readOp w (s.rmLoc w e)
  let (r, s) := s.runAlu op (s.readReg g w) b
  pure (s.writeReg g w r).finalAdvance

/-- The forms AL,Ib and eAX,Iz at the width w of the immediate (43_add.md R164, R165): the accumulator AL, AX or EAX,
register number 0, is the destination and the first source. -/
def aluAcc (op : AluOp) (w : Width) (imm : BitVec w.bits) (s : State) : Except Nat State :=
  let s := s.consume w.bytes
  let (r, s) := s.runAlu op (s.readReg .r0 w) imm
  .ok (s.writeReg .r0 w r).finalAdvance

/-- The form eAX,Iz: AX with a 16-bit immediate, EAX with a 32-bit one (43_add.md R165). -/
def aluAccZ (op : AluOp) : ImmZ → State → Except Nat State
  | .i16 v, s => aluAcc op .w16 v s
  | .i32 v, s => aluAcc op .w32 v s

end Sys2Proof.Machine
end

