-- ==== Sys2Proof/Machine/Adc.lean ====
section
/-! DEFINITION. ADC (45_adc.md R180 to R185): the handler of each form, and the cycle that runs it. -/

namespace Sys2Proof.Machine

/-- `adc Eb, Gb` (R180). -/
def adcEbGb (e : RM) (g : RegNum) (s : State) : Except Nat State := aluRmReg .adc .w8 e g s
/-- `adc Ev, Gv` (R181). -/
def adcEvGv (w : OpSize) (e : RM) (g : RegNum) (s : State) : Except Nat State := aluRmReg .adc w.width e g s
/-- `adc Gb, Eb` (R182). -/
def adcGbEb (g : RegNum) (e : RM) (s : State) : Except Nat State := aluRegRm .adc .w8 g e s
/-- `adc Gv, Ev` (R183). -/
def adcGvEv (w : OpSize) (g : RegNum) (e : RM) (s : State) : Except Nat State := aluRegRm .adc w.width g e s
/-- `adc AL, Ib` (R184). -/
def adcALIb (imm : BitVec 8) (s : State) : Except Nat State := aluAcc .adc .w8 imm s
/-- `adc eAX, Iz` (R185). -/
def adcEAXIz (imm : ImmZ) (s : State) : Except Nat State := aluAccZ .adc imm s

/-- The cycle of `adc Eb, Gb` (R180). -/
def execAdcEbGb (e : RM) (g : RegNum) (s : State) : Result := endCycle s (adcEbGb e g s)
/-- The cycle of `adc Ev, Gv` (R181). -/
def execAdcEvGv (w : OpSize) (e : RM) (g : RegNum) (s : State) : Result := endCycle s (adcEvGv w e g s)
/-- The cycle of `adc Gb, Eb` (R182). -/
def execAdcGbEb (g : RegNum) (e : RM) (s : State) : Result := endCycle s (adcGbEb g e s)
/-- The cycle of `adc Gv, Ev` (R183). -/
def execAdcGvEv (w : OpSize) (g : RegNum) (e : RM) (s : State) : Result := endCycle s (adcGvEv w g e s)
/-- The cycle of `adc AL, Ib` (R184). -/
def execAdcALIb (imm : BitVec 8) (s : State) : Result := endCycle s (adcALIb imm s)
/-- The cycle of `adc eAX, Iz` (R185). -/
def execAdcEAXIz (imm : ImmZ) (s : State) : Result := endCycle s (adcEAXIz imm s)

end Sys2Proof.Machine
end

