-- ==== Sys2Proof/Machine/Add.lean ====
section
/-! DEFINITION. ADD (43_add.md R160 to R165): the handler of each form, and the cycle that runs it. -/

namespace Sys2Proof.Machine

/-- `add Eb, Gb` (R160). -/
def addEbGb (e : RM) (g : RegNum) (s : State) : Except Nat State := aluRmReg .add .w8 e g s
/-- `add Ev, Gv` (R161). -/
def addEvGv (w : OpSize) (e : RM) (g : RegNum) (s : State) : Except Nat State := aluRmReg .add w.width e g s
/-- `add Gb, Eb` (R162). -/
def addGbEb (g : RegNum) (e : RM) (s : State) : Except Nat State := aluRegRm .add .w8 g e s
/-- `add Gv, Ev` (R163). -/
def addGvEv (w : OpSize) (g : RegNum) (e : RM) (s : State) : Except Nat State := aluRegRm .add w.width g e s
/-- `add AL, Ib` (R164). -/
def addALIb (imm : BitVec 8) (s : State) : Except Nat State := aluAcc .add .w8 imm s
/-- `add eAX, Iz` (R165). -/
def addEAXIz (imm : ImmZ) (s : State) : Except Nat State := aluAccZ .add imm s

/-- The cycle of `add Eb, Gb` (R160). -/
def execAddEbGb (e : RM) (g : RegNum) (s : State) : Result := endCycle s (addEbGb e g s)
/-- The cycle of `add Ev, Gv` (R161). -/
def execAddEvGv (w : OpSize) (e : RM) (g : RegNum) (s : State) : Result := endCycle s (addEvGv w e g s)
/-- The cycle of `add Gb, Eb` (R162). -/
def execAddGbEb (g : RegNum) (e : RM) (s : State) : Result := endCycle s (addGbEb g e s)
/-- The cycle of `add Gv, Ev` (R163). -/
def execAddGvEv (w : OpSize) (g : RegNum) (e : RM) (s : State) : Result := endCycle s (addGvEv w g e s)
/-- The cycle of `add AL, Ib` (R164). -/
def execAddALIb (imm : BitVec 8) (s : State) : Result := endCycle s (addALIb imm s)
/-- The cycle of `add eAX, Iz` (R165). -/
def execAddEAXIz (imm : ImmZ) (s : State) : Result := endCycle s (addEAXIz imm s)

end Sys2Proof.Machine
end

