-- ==== Sys2Proof/Machine/Or.lean ====
section
/-! DEFINITION. OR (44_or.md R170 to R175): the handler of each form, and the cycle that runs it. -/

namespace Sys2Proof.Machine

/-- `or Eb, Gb` (R170). -/
def orEbGb (e : RM) (g : RegNum) (s : State) : Except Nat State := aluRmReg .or .w8 e g s
/-- `or Ev, Gv` (R171). -/
def orEvGv (w : OpSize) (e : RM) (g : RegNum) (s : State) : Except Nat State := aluRmReg .or w.width e g s
/-- `or Gb, Eb` (R172). -/
def orGbEb (g : RegNum) (e : RM) (s : State) : Except Nat State := aluRegRm .or .w8 g e s
/-- `or Gv, Ev` (R173). -/
def orGvEv (w : OpSize) (g : RegNum) (e : RM) (s : State) : Except Nat State := aluRegRm .or w.width g e s
/-- `or AL, Ib` (R174). -/
def orALIb (imm : BitVec 8) (s : State) : Except Nat State := aluAcc .or .w8 imm s
/-- `or eAX, Iz` (R175). -/
def orEAXIz (imm : ImmZ) (s : State) : Except Nat State := aluAccZ .or imm s

/-- The cycle of `or Eb, Gb` (R170). -/
def execOrEbGb (e : RM) (g : RegNum) (s : State) : Result := endCycle s (orEbGb e g s)
/-- The cycle of `or Ev, Gv` (R171). -/
def execOrEvGv (w : OpSize) (e : RM) (g : RegNum) (s : State) : Result := endCycle s (orEvGv w e g s)
/-- The cycle of `or Gb, Eb` (R172). -/
def execOrGbEb (g : RegNum) (e : RM) (s : State) : Result := endCycle s (orGbEb g e s)
/-- The cycle of `or Gv, Ev` (R173). -/
def execOrGvEv (w : OpSize) (g : RegNum) (e : RM) (s : State) : Result := endCycle s (orGvEv w g e s)
/-- The cycle of `or AL, Ib` (R174). -/
def execOrALIb (imm : BitVec 8) (s : State) : Result := endCycle s (orALIb imm s)
/-- The cycle of `or eAX, Iz` (R175). -/
def execOrEAXIz (imm : ImmZ) (s : State) : Result := endCycle s (orEAXIz imm s)

end Sys2Proof.Machine
end

