-- ==== Sys2Proof/Machine/StackHlt.lean ====
section
/-! DEFINITION. Segment-register PUSH and POP (46_segment_stack.md) and HLT (47_hlt.md). -/

namespace Sys2Proof.Machine

/-- A push of a segment register: ESP <- ESP - 2 (mod 2^32), then the 2 bytes at the new ESP, whatever the prefixes
(46_segment_stack.md R190, R191). -/
def pushSeg (x : Seg) (s : State) : Except Nat State := do
  let v := s.segReg x
  let s := s.decGpr .esp 2
  let s ← s.memWrite (s.gpr .esp) .w16 v
  pure s.finalAdvance

/-- A pop of a segment register: the 2 bytes at ESP, then ESP <- ESP + 2 (mod 2^32) (46_segment_stack.md R190, R191). -/
def popSeg (x : Seg) (s : State) : Except Nat State := do
  let v ← s.memRead (s.gpr .esp) .w16
  let s := s.incGpr .esp 2
  pure (s.setSeg x v).finalAdvance

/-- `push es` (R192). -/
def pushES (s : State) : Except Nat State := pushSeg .es s
/-- The cycle of `push es` (R192). -/
def execPushES (s : State) : Result := endCycle s (pushES s)

/-- `pop es` (R193). -/
def popES (s : State) : Except Nat State := popSeg .es s
/-- The cycle of `pop es` (R193). -/
def execPopES (s : State) : Result := endCycle s (popES s)

/-- `push cs` (R194). -/
def pushCS (s : State) : Except Nat State := pushSeg .cs s
/-- The cycle of `push cs` (R194). -/
def execPushCS (s : State) : Result := endCycle s (pushCS s)

/-- `push ss` (R195). -/
def pushSS (s : State) : Except Nat State := pushSeg .ss s
/-- The cycle of `push ss` (R195). -/
def execPushSS (s : State) : Result := endCycle s (pushSS s)

/-- `pop ss` (R196). -/
def popSS (s : State) : Except Nat State := popSeg .ss s
/-- The cycle of `pop ss` (R196). -/
def execPopSS (s : State) : Result := endCycle s (popSS s)

/-- `hlt`: the halted bit, then the final advance when HLT_ADVANCES_EIP (47_hlt.md R200, 41_fetch_dispatch.md R129). -/
def hlt (s : State) : Except Nat State :=
  let s := { s with halted := true }
  .ok (if s.cfg.hltAdvancesEip then s.finalAdvance else s)
/-- The cycle of `hlt` (R200). -/
def execHlt (s : State) : Result := endCycle s (hlt s)

end Sys2Proof.Machine
end

