-- ==== Sys2Proof/Machine/Prefixes.lean ====
section
/-! DEFINITION. The prefixes (30_encoding.md R71 to R75): each consumes its byte; the widths that 0x66 and 0x67 select
are in the operands of the instruction behind them (`Instr.wf`). `handler` runs an instruction, prefixes included,
inside one cycle. -/

namespace Sys2Proof.Machine

/-- The ES segment override: recorded, no other effect (R74). -/
def prefixEs (s : State) : State := s.consume 1
/-- The CS segment override: recorded, no other effect (R74). -/
def prefixCs (s : State) : State := s.consume 1
/-- The SS segment override: recorded, no other effect (R74). -/
def prefixSs (s : State) : State := s.consume 1
/-- The DS segment override: recorded, no other effect (R74). -/
def prefixDs (s : State) : State := s.consume 1
/-- The FS segment override: recorded, no other effect (R74). -/
def prefixFs (s : State) : State := s.consume 1
/-- The GS segment override: recorded, no other effect (R74). -/
def prefixGs (s : State) : State := s.consume 1
/-- The operand-size override: consumed here; it selected w = 16 (R72). -/
def prefixO16 (s : State) : State := s.consume 1
/-- The address-size override: consumed here; it selected asz = 16 (R73). -/
def prefixA16 (s : State) : State := s.consume 1

/-- The effect of an instruction inside a cycle, or the address of the access that raised AddressOutOfRange
(41_fetch_dispatch.md R122, R126). -/
def handler : Instr → State → Except Nat State
  | .addEbGb e g, s => addEbGb e g s
  | .addEvGv w e g, s => addEvGv w e g s
  | .addGbEb g e, s => addGbEb g e s
  | .addGvEv w g e, s => addGvEv w g e s
  | .addALIb imm, s => addALIb imm s
  | .addEAXIz imm, s => addEAXIz imm s
  | .orEbGb e g, s => orEbGb e g s
  | .orEvGv w e g, s => orEvGv w e g s
  | .orGbEb g e, s => orGbEb g e s
  | .orGvEv w g e, s => orGvEv w g e s
  | .orALIb imm, s => orALIb imm s
  | .orEAXIz imm, s => orEAXIz imm s
  | .adcEbGb e g, s => adcEbGb e g s
  | .adcEvGv w e g, s => adcEvGv w e g s
  | .adcGbEb g e, s => adcGbEb g e s
  | .adcGvEv w g e, s => adcGvEv w g e s
  | .adcALIb imm, s => adcALIb imm s
  | .adcEAXIz imm, s => adcEAXIz imm s
  | .pushES, s => pushES s
  | .popES, s => popES s
  | .pushCS, s => pushCS s
  | .pushSS, s => pushSS s
  | .popSS, s => popSS s
  | .hlt, s => hlt s
  | .es j, s => handler j (prefixEs s)
  | .cs j, s => handler j (prefixCs s)
  | .ss j, s => handler j (prefixSs s)
  | .ds j, s => handler j (prefixDs s)
  | .fs j, s => handler j (prefixFs s)
  | .gs j, s => handler j (prefixGs s)
  | .o16 j, s => handler j (prefixO16 s)
  | .a16 j, s => handler j (prefixA16 s)

/-- The cycle of an instruction that begins with the `es` prefix (R71). -/
def execPrefixEs (j : Instr) (s : State) : Result := endCycle s (handler j (prefixEs s))
/-- The cycle of an instruction that begins with the `cs` prefix (R71). -/
def execPrefixCs (j : Instr) (s : State) : Result := endCycle s (handler j (prefixCs s))
/-- The cycle of an instruction that begins with the `ss` prefix (R71). -/
def execPrefixSs (j : Instr) (s : State) : Result := endCycle s (handler j (prefixSs s))
/-- The cycle of an instruction that begins with the `ds` prefix (R71). -/
def execPrefixDs (j : Instr) (s : State) : Result := endCycle s (handler j (prefixDs s))
/-- The cycle of an instruction that begins with the `fs` prefix (R71). -/
def execPrefixFs (j : Instr) (s : State) : Result := endCycle s (handler j (prefixFs s))
/-- The cycle of an instruction that begins with the `gs` prefix (R71). -/
def execPrefixGs (j : Instr) (s : State) : Result := endCycle s (handler j (prefixGs s))
/-- The cycle of an instruction that begins with the `o16` prefix (R71). -/
def execPrefixO16 (j : Instr) (s : State) : Result := endCycle s (handler j (prefixO16 s))
/-- The cycle of an instruction that begins with the `a16` prefix (R71). -/
def execPrefixA16 (j : Instr) (s : State) : Result := endCycle s (handler j (prefixA16 s))

end Sys2Proof.Machine
end

