-- ==== Sys2Proof/Machine/Dispatch.lean ====
section
/-! DEFINITION. The meaning of each instruction: one cycle that executes it, the instruction's bytes already read. -/

namespace Sys2Proof.Machine

def exec (i : Instr) (s : State) : Host.Outcome State Fault Refusal :=
  match i with
  | .addEbGb e g => Sys2Proof.Machine.execAddEbGb e g s
  | .addEvGv w e g => Sys2Proof.Machine.execAddEvGv w e g s
  | .addGbEb g e => Sys2Proof.Machine.execAddGbEb g e s
  | .addGvEv w g e => Sys2Proof.Machine.execAddGvEv w g e s
  | .addALIb imm => Sys2Proof.Machine.execAddALIb imm s
  | .addEAXIz imm => Sys2Proof.Machine.execAddEAXIz imm s
  | .orEbGb e g => Sys2Proof.Machine.execOrEbGb e g s
  | .orEvGv w e g => Sys2Proof.Machine.execOrEvGv w e g s
  | .orGbEb g e => Sys2Proof.Machine.execOrGbEb g e s
  | .orGvEv w g e => Sys2Proof.Machine.execOrGvEv w g e s
  | .orALIb imm => Sys2Proof.Machine.execOrALIb imm s
  | .orEAXIz imm => Sys2Proof.Machine.execOrEAXIz imm s
  | .adcEbGb e g => Sys2Proof.Machine.execAdcEbGb e g s
  | .adcEvGv w e g => Sys2Proof.Machine.execAdcEvGv w e g s
  | .adcGbEb g e => Sys2Proof.Machine.execAdcGbEb g e s
  | .adcGvEv w g e => Sys2Proof.Machine.execAdcGvEv w g e s
  | .adcALIb imm => Sys2Proof.Machine.execAdcALIb imm s
  | .adcEAXIz imm => Sys2Proof.Machine.execAdcEAXIz imm s
  | .pushES => Sys2Proof.Machine.execPushES s
  | .popES => Sys2Proof.Machine.execPopES s
  | .pushCS => Sys2Proof.Machine.execPushCS s
  | .pushSS => Sys2Proof.Machine.execPushSS s
  | .popSS => Sys2Proof.Machine.execPopSS s
  | .hlt => Sys2Proof.Machine.execHlt s
  | .es j => Sys2Proof.Machine.execPrefixEs j s
  | .cs j => Sys2Proof.Machine.execPrefixCs j s
  | .ss j => Sys2Proof.Machine.execPrefixSs j s
  | .ds j => Sys2Proof.Machine.execPrefixDs j s
  | .fs j => Sys2Proof.Machine.execPrefixFs j s
  | .gs j => Sys2Proof.Machine.execPrefixGs j s
  | .o16 j => Sys2Proof.Machine.execPrefixO16 j s
  | .a16 j => Sys2Proof.Machine.execPrefixA16 j s

end Sys2Proof.Machine
end

