-- ==== Sys2Proof/Machine/Step.lean ====
section
/-! DEFINITION. One step: `cycle()` (41_fetch_dispatch.md R120, R122). -/

namespace Sys2Proof.Machine

/-- `cycle()`: nothing when halted or faulted (R120); else fetch, decode and execute one instruction. -/
def step (s : State) : Host.Outcome State Fault Refusal :=
  if s.stopped then .next s
  else
    match s.fetchDecode with
    | .ok (i, _) => exec i s
    | .error e => stopDecode s e

/-- The state with the instruction word w of nbits bits, zero bytes after it, stored at EIP, and neither halted nor
faulted, so that the next step runs it (log entry 9). -/
def State.withFetchWord (s : State) (nbits w : Nat) : State :=
  { s.pokeStream 0 (tableBytes nbits w) with halted := false, faultStatus := .none }

end Sys2Proof.Machine
end

