-- ==== Sys2Proof/Machine/Assembly.lean ====
section
/-! DEFINITION. The assembler syntax (30_encoding.md R93) and the encoding an assembler chooses (R94). No step uses it. -/

namespace Sys2Proof.Machine

/-! ### Text (R93). Where R93 leaves a spelling open, the one chosen is log entry 12 (DESIGN CHOICE); no step reads a text. -/

/-- The 32-bit name of a general slot (10_state.md R22). -/
def Gpr.name : Gpr → String
  | .eax => "eax"
  | .ecx => "ecx"
  | .edx => "edx"
  | .ebx => "ebx"
  | .esp => "esp"
  | .ebp => "ebp"
  | .esi => "esi"
  | .edi => "edi"

/-- The 16-bit name of a general slot (10_state.md R22). -/
def Gpr.name16 : Gpr → String
  | .eax => "ax"
  | .ecx => "cx"
  | .edx => "dx"
  | .ebx => "bx"
  | .esp => "sp"
  | .ebp => "bp"
  | .esi => "si"
  | .edi => "di"

/-- The name of a segment register. -/
def Seg.name : Seg → String
  | .cs => "cs"
  | .ds => "ds"
  | .es => "es"
  | .fs => "fs"
  | .gs => "gs"
  | .ss => "ss"

/-- The name of a register view (10_state.md R22). -/
def View.name : View → String
  | .r32 g => g.name
  | .r16 g => g.name16
  | .lo8 .a => "al"
  | .lo8 .c => "cl"
  | .lo8 .d => "dl"
  | .lo8 .b => "bl"
  | .hi8 .a => "ah"
  | .hi8 .c => "ch"
  | .hi8 .d => "dh"
  | .hi8 .b => "bh"
  | .eip => "eip"
  | .ip => "ip"
  | .seg x => x.name

/-- A hexadecimal digit. -/
def hexDigit (n : Nat) : String :=
  match n with
  | 10 => "A"
  | 11 => "B"
  | 12 => "C"
  | 13 => "D"
  | 14 => "E"
  | 15 => "F"
  | _ => toString n

/-- The k low hexadecimal digits of a number. -/
def hexDigits : (k : Nat) → (n : Nat) → String
  | 0, _ => ""
  | k + 1, n => hexDigits k (n / 16) ++ hexDigit (n % 16)

/-- A value of n bits as a number. DESIGN CHOICE: hexadecimal, all its digits, in capitals (log entry 12). -/
def numberText {n : Nat} (v : BitVec n) : String := "0x" ++ hexDigits ((n + 3) / 4) v.toNat

/-- The size keyword of a memory operand. -/
def Width.keyword : Width → String
  | .w8 => "byte ptr "
  | .w16 => "word ptr "
  | .w32 => "dword ptr "

/-- The displacement after a base; disp8 is signed (30_encoding.md R83). DESIGN CHOICE: a negative disp8 is written with a
minus sign (log entry 12). -/
def dispText {n : Nat} : Disp n → String
  | .d0 => ""
  | .d8 d => if d.msb then " - " ++ numberText (-d) else " + " ++ numberText d
  | .full d => " + " ++ numberText d

/-- The base of a 16-bit address (30_encoding.md R80). -/
def base16Text : Base16 → String
  | .bxsi => "bx + si"
  | .bxdi => "bx + di"
  | .bpsi => "bp + si"
  | .bpdi => "bp + di"
  | .si => "si"
  | .di => "di"
  | .bp => "bp"
  | .bx => "bx"

/-- The index part of a SIB address; nothing for "no index". DESIGN CHOICE: no `*1` for the multiplier 1, where R93 has
`index*scale` (log entry 12). -/
def indexText (sc : Scale) : Option RegNum → String
  | none => ""
  | some n => " + " ++ (gprOf n).name ++ (match sc with | .x1 => "" | .x2 => "*2" | .x4 => "*4" | .x8 => "*8")

/-- An address in brackets: base, index, displacement, the order of R93. DESIGN CHOICE: R93 has no form without a base;
a SIB address without one is written with its displacement before the index (log entry 12). -/
def addrText : Addr → String
  | .a16 (.disp d) => "[" ++ numberText d ++ "]"
  | .a16 (.based b d) => "[" ++ base16Text b ++ dispText d ++ "]"
  | .a32 (.disp d) => "[" ++ numberText d ++ "]"
  | .a32 (.based b d) => "[" ++ (gprOf b).name ++ dispText d ++ "]"
  | .a32 (.sib sc i b d) => "[" ++ (gprOf b).name ++ indexText sc i ++ dispText d ++ "]"
  | .a32 (.sibDisp sc i d) => "[" ++ numberText d ++ indexText sc i ++ "]"

/-- An rm operand at its width. DESIGN CHOICE: a memory operand always has its size keyword, though R93 asks for it only
where no register operand fixes the width (log entry 12). -/
def rmText (w : Width) : RM → String
  | .reg n => (regView n w).name
  | .mem x => Width.keyword w ++ addrText x

/-- Mnemonic, destination, source. -/
def twoOperands (m dst src : String) : String := m ++ " " ++ dst ++ ", " ++ src

/-- An accumulator form with an Iz immediate. -/
def accText (m : String) : ImmZ → String
  | .i16 v => twoOperands m "ax" (numberText v)
  | .i32 v => twoOperands m "eax" (numberText v)

/-- A register operand at its width. -/
def regText (n : RegNum) (w : Width) : String := (regView n w).name

/-- The mnemonic of a prefix that stands alone. -/
def Prefix.text : Prefix → String
  | .es => "es"
  | .cs => "cs"
  | .ss => "ss"
  | .ds => "ds"
  | .fs => "fs"
  | .gs => "gs"
  | .o16 => "o16"
  | .a16 => "a16"

/-- The text of an instruction without its prefixes. -/
def bodyText : Instr → String
  | .addEbGb e g => twoOperands "add" (rmText .w8 e) (regText g .w8)
  | .addEvGv w e g => twoOperands "add" (rmText w.width e) (regText g w.width)
  | .addGbEb g e => twoOperands "add" (regText g .w8) (rmText .w8 e)
  | .addGvEv w g e => twoOperands "add" (regText g w.width) (rmText w.width e)
  | .addALIb b => twoOperands "add" "al" (numberText b)
  | .addEAXIz z => accText "add" z
  | .orEbGb e g => twoOperands "or" (rmText .w8 e) (regText g .w8)
  | .orEvGv w e g => twoOperands "or" (rmText w.width e) (regText g w.width)
  | .orGbEb g e => twoOperands "or" (regText g .w8) (rmText .w8 e)
  | .orGvEv w g e => twoOperands "or" (regText g w.width) (rmText w.width e)
  | .orALIb b => twoOperands "or" "al" (numberText b)
  | .orEAXIz z => accText "or" z
  | .adcEbGb e g => twoOperands "adc" (rmText .w8 e) (regText g .w8)
  | .adcEvGv w e g => twoOperands "adc" (rmText w.width e) (regText g w.width)
  | .adcGbEb g e => twoOperands "adc" (regText g .w8) (rmText .w8 e)
  | .adcGvEv w g e => twoOperands "adc" (regText g w.width) (rmText w.width e)
  | .adcALIb b => twoOperands "adc" "al" (numberText b)
  | .adcEAXIz z => accText "adc" z
  | .pushES => "push es"
  | .popES => "pop es"
  | .pushCS => "push cs"
  | .pushSS => "push ss"
  | .popSS => "pop ss"
  | .hlt => "hlt"
  | .es j => bodyText j
  | .cs j => bodyText j
  | .ss j => bodyText j
  | .ds j => bodyText j
  | .fs j => bodyText j
  | .gs j => bodyText j
  | .o16 j => bodyText j
  | .a16 j => bodyText j


/-- The size prefixes the operands of an instruction need, each once (30_encoding.md R94). DESIGN CHOICE: 0x66 before 0x67
where both are needed; R94 gives no order between them and the machine has none (R75) (log entry 11). -/
def neededSizePrefixes (j : Instr) : List Prefix :=
  (if j.opSize? = some .o16 then [.o16] else []) ++ (if j.rm?.bind RM.adSize? = some .a16 then [.a16] else [])

/-- The size prefix the operand text implies: 16-bit register names or an Iz immediate after ax imply 0x66, 16-bit
register names in an address imply 0x67. -/
def impliedSizePrefixes (j : Instr) : List Prefix :=
  match j.rm? with
  | some (.mem (.a16 (.disp _))) => (neededSizePrefixes j).erase .a16
  | _ => neededSizePrefixes j

/-- The text of an instruction: the prefixes its operands do not imply, each a mnemonic that stands alone, then the
instruction. DESIGN CHOICE: of the two spellings R93 allows for a segment override, the mnemonic that stands alone; a
size prefix that is implied stands for its first occurrence (log entry 12). -/
def instrText (i : Instr) : String :=
  (i.prefixes.diff (impliedSizePrefixes i.body)).foldr (fun p t => Prefix.text p ++ " " ++ t) (bodyText i.body)

/-! ### The encoding an assembler chooses (R94) -/

/-- The Eb,Gb or Ev,Gv form of a register-register operation, the destination in rm (R94). DESIGN CHOICE: the others,
between whose encodings R94 does not choose, as they are (log entry 13). -/
def assembledBody : Instr → Instr
  | .addGbEb g (.reg n) => .addEbGb (.reg g) n
  | .addGvEv w g (.reg n) => .addEvGv w (.reg g) n
  | .orGbEb g (.reg n) => .orEbGb (.reg g) n
  | .orGvEv w g (.reg n) => .orEvGv w (.reg g) n
  | .adcGbEb g (.reg n) => .adcEbGb (.reg g) n
  | .adcGvEv w g (.reg n) => .adcEvGv w (.reg g) n
  | i => i

/-- What an assembler emits for the operation of i: its segment overrides, then the size prefixes its operands need,
then the form with the destination in rm (R94). DESIGN CHOICE: every segment override is kept and a size prefix that no
operand needs is left out (log entry 13). -/
def assemblerForm (i : Instr) : Instr :=
  (assembledBody i.body).withPrefixes
    (i.prefixes.filter (fun p => p != .o16 && p != .a16) ++ neededSizePrefixes i.body)

end Sys2Proof.Machine
end

