-- ==== Sys2Proof/Machine/HostInterface.lean ====
section
/-! DEFINITION. What the host may do to the core between two cycles (10_state.md R38, 20_memory.md R56,
70_reset_and_hazards.md R236). A host call that fails changes nothing; its failure goes to the host and never to the
fault status. -/

namespace Sys2Proof.Machine

/-- Why a host call fails. -/
inductive HostError where
  /-- A flag value other than 0 or 1 (10_state.md R29, R38). -/
  | badFlagValue
  /-- A memory access that touches a byte address at or beyond N (20_memory.md R56). -/
  | outOfRange (a : Nat)
  deriving DecidableEq, Repr

/-- construct: a core with N bytes of contents MEM_INIT, after the reset that must come before first use (R233). The
parameters of R7 and R8 are part of the core. -/
def hostConstruct (cfg : Config) (memInit : Memory) : State := State.resetOf cfg memInit []

/-- reset (R230). -/
def hostReset (s : State) : State := s.applyReset

/-- cycle: the core's step (R120). -/
def hostCycle (s : State) : Result := step s

/-- get register view (10_state.md R24). -/
def hostGetView (s : State) (x : View) : BitVec x.bits := s.get x

/-- set register view (10_state.md R25). -/
def hostSetView (s : State) (x : View) (v : BitVec x.bits) : State := s.set x v

/-- get flag: the bit as 0 or 1. -/
def hostGetFlag (s : State) (i : Fin flagIndexCount) : Nat := (s.flag i).toNat

/-- set flag: a value other than 0 or 1 is refused (10_state.md R29, R38). -/
def hostSetFlag (s : State) (i : Fin flagIndexCount) (v : Nat) : Except HostError State :=
  if v = 0 then .ok (s.setFlag i false)
  else if v = 1 then .ok (s.setFlag i true)
  else .error .badFlagValue

/-- `readImm8/16/32` (20_memory.md R53, R56). -/
def hostRead (s : State) (a : Word) (w : Width) : Except HostError (BitVec w.bits) :=
  match s.memRead a w with
  | .ok v => .ok v
  | .error e => .error (.outOfRange e)

/-- `writeImm8/16/32` (20_memory.md R54, R56). -/
def hostWrite (s : State) (a : Word) (w : Width) (v : BitVec w.bits) : Except HostError State :=
  match s.memWrite a w v with
  | .ok t => .ok t
  | .error e => .error (.outOfRange e)

/-- The memory with bytes stored from address a on. -/
def Memory.writeBytes (m : Memory) (a : Nat) : List Byte → Memory
  | [] => m
  | b :: bs => Memory.writeBytes (m.write a b) (a + 1) bs

/-- Bulk load into the raw buffer of N bytes (R56, R234); bytes that would lie beyond it are the host's failure. -/
def hostLoad (s : State) (a : Nat) (bytes : List Byte) : Except HostError State :=
  if a + bytes.length ≤ s.cfg.memSize then .ok { s with mem := s.mem.writeBytes a bytes }
  else .error (.outOfRange (max a s.cfg.memSize))

/-- `memorySize()` (R56). -/
def hostMemorySize (s : State) : Nat := s.cfg.memSize

/-- `isHalted()` (10_state.md R36). -/
def hostIsHalted (s : State) : Bool := s.halted

/-- The fault status: code 0 none, or 1 AddressOutOfRange with the address as payload (60_exceptions.md R212). -/
def hostFaultStatus (s : State) : Nat × Option Nat :=
  match s.faultStatus with
  | .none => (0, none)
  | .addressOutOfRange a => (1, some a)

/-- The Diag events so far (10_state.md R39). -/
def hostDiagnostics (s : State) : List Diag := s.diag

end Sys2Proof.Machine
end

