-- ==== Sys2Proof/Safety.lean ====
section
/-! DEFINITION. What holds of every state of a core (`State.Inv`), and what a clean step and a clean run are. -/

namespace Sys2Proof.Machine

/-- A fault status that a core can have: the address is the first byte of an access at or beyond N, at most 2^32
(10_state.md R37, 60_exceptions.md R212). -/
def FaultStatus.ofSize (n : Nat) : FaultStatus → Prop
  | .none => True
  | .addressOutOfRange a => n ≤ a ∧ a ≤ 2 ^ 32

/-- The invariant: the memory is in canonical form and lists addresses below N only (20_memory.md R50), N is in the
spec's range (00_scope.md R3), and the fault status is one R212 can record. -/
def State.Inv (s : State) : Prop :=
  s.mem.wf ∧ (∀ c ∈ s.mem, c.1 < s.cfg.memSize) ∧ s.cfg.wf ∧ s.faultStatus.ofSize s.cfg.memSize

/-- A step that executes an instruction of the opcode map: it has a next state, no fault status and no diagnostic
(47_hlt.md R202: an unmapped opcode silently diverges from the program's meaning). -/
def CleanStep (s t : State) : Prop := step s = .next t ∧ t.faultStatus = .none ∧ t.diag = s.diag

/-- The states a run of clean steps reaches. -/
inductive CleanRun : State → State → Prop where
  | refl (s : State) : CleanRun s s
  | tail {s t u : State} : CleanRun s t → CleanStep t u → CleanRun s u

/-- The end of a run: halted is a normal end, a fault status a faulted end; both are quiescent (47_hlt.md R202). -/
def State.Quiescent (s : State) : Prop := s.halted = true ∨ s.faultStatus ≠ .none

end Sys2Proof.Machine
end

