-- ==== Sys2Proof/WellFormed.lean ====
section
/-! DEFINITION. Which terms of `Instr` an encoding stands for: the operand and address widths a form carries are
those its prefixes select (30_encoding.md R72, R73), and an address expression is one of the tables R80 to R82. -/

namespace Sys2Proof

/-- [BP] without a displacement has no encoding: rm = 6 with mod = 00b is the disp16 alone (30_encoding.md R80). -/
def Addr16.wf : Addr16 → Bool
  | .based .bp .d0 => false
  | _ => true

/-- rm = 4 is the SIB form and rm = 5 with mod = 00b the disp32 alone (30_encoding.md R81); index 4 is "no index"
and base 5 with mod = 00b "no base" (R82). -/
def Addr32.wf : Addr32 → Bool
  | .disp _ => true
  | .based b d => b != .r4 && !(b == .r5 && d == .d0)
  | .sib _ i b d => i != some .r4 && !(b == .r5 && d == .d0)
  | .sibDisp _ i _ => i != some .r4

/-- A memory operand has the address width in force; a register operand has none (30_encoding.md R73). -/
def RM.wf (asz : AdSize) : RM → Bool
  | .reg _ => true
  | .mem (.a16 x) => asz == .a16 && x.wf
  | .mem (.a32 x) => asz == .a32 && x.wf

/-- The operands of an instruction agree with the operand and address width in force. -/
def Instr.wfAt (osz : OpSize) (asz : AdSize) (i : Instr) : Bool :=
  (match i.opSize? with | some w => w == osz | none => true) &&
  (match i.rm? with | some e => e.wf asz | none => true)

/-- An instruction that some byte string encodes. -/
def Instr.wf (i : Instr) : Bool := i.wfAt (operandSize i.prefixes) (addressSize i.prefixes)

end Sys2Proof
end

