-- ==== Sys2Proof/Certificates/Slice0/Obligations.lean ====
section
/-! DEFINITION. The statements for the provers, `Obligations.<Name>`, after the helpers they are written with. -/

namespace Sys2Proof.Spec

open Sys2Proof.Machine

/-! ### What the rules say, on natural numbers and bits -/

/-- How many of bits 7:0 of r are 1 (42_alu.md R145). -/
def lowOnes (r : Nat) : Nat := ((List.range 8).filter r.testBit).length

/-- Every flag cell but those named keeps its value. -/
def CellsKept (written : List (Fin flagIndexCount)) (f f' : FlagStore) : Prop := ∀ i, i ∉ written → f'.get i = f.get i

/-- SF, ZF and PF of a result r of n bits (42_alu.md R143, R144, R145). -/
def ResultFlags (n r : Nat) (f' : FlagStore) : Prop :=
  f'.get 7 = decide (2 ^ (n - 1) ≤ r) ∧ f'.get 6 = decide (r = 0) ∧ f'.get 2 = decide (lowOnes r % 2 = 0)

/-- The flags of an n-bit ADD or ADC of a, b and carry-in c, from the flag store f (42_alu.md R141 to R147): the
preliminary carry r < a, moved to OF when SF is set; otherwise OF by the parameter of 00_scope.md R7. -/
def SumFlags (n : Nat) (p : OfPolicy) (a b c : Nat) (f f' : FlagStore) : Prop :=
  let r := (a + b + c) % 2 ^ n
  ResultFlags n r f' ∧ f'.get 4 = decide (15 < a % 16 + b % 16 + c) ∧
  (r < a ∧ 2 ^ (n - 1) ≤ r → f'.get 0 = false ∧ f'.get 11 = true) ∧
  (¬(r < a ∧ 2 ^ (n - 1) ≤ r) →
    f'.get 0 = decide (r < a) ∧ f'.get 11 = (match p with | .clear => false | .preserve => f.get 11)) ∧
  CellsKept [0, 2, 4, 6, 7, 11] f f'

/-- The flags of an n-bit OR of a and b, from the flag store f (42_alu.md R148 to R150). -/
def OrFlags (n : Nat) (a b : Nat) (f f' : FlagStore) : Prop :=
  ResultFlags n (a ||| b) f' ∧ f'.get 0 = false ∧ f'.get 11 = false ∧ CellsKept [0, 2, 6, 7, 11] f f'

/-- The carry-in of ADC: F[CF] at the start of the instruction (42_alu.md R140). -/
def carryIn (s : State) : Nat := (s.flag 0).toNat

/-! ### Operands -/

/-- The general slot of register number n at width w (30_encoding.md R79, 10_state.md R22). -/
def slotOf : RegNum → Width → Gpr
  | .r0, _ => .eax
  | .r1, _ => .ecx
  | .r2, _ => .edx
  | .r3, _ => .ebx
  | .r4, .w8 => .eax
  | .r5, .w8 => .ecx
  | .r6, .w8 => .edx
  | .r7, .w8 => .ebx
  | .r4, _ => .esp
  | .r5, _ => .ebp
  | .r6, _ => .esi
  | .r7, _ => .edi

/-- The lowest bit of its slot that register number n at width w names: 8 for AH, CH, DH, BH, else 0. -/
def lowBitOf : RegNum → Width → Nat
  | .r4, .w8 => 8
  | .r5, .w8 => 8
  | .r6, .w8 => 8
  | .r7, .w8 => 8
  | _, _ => 0

/-- The value of register number n at width w: those bits of its slot (10_state.md R24). -/
def regValue (s : State) (n : RegNum) (w : Width) : Nat :=
  (s.gpr (slotOf n w)).toNat / 2 ^ lowBitOf n w % 2 ^ w.bits

/-- The bytes of the rm operand lie below N; a register operand needs no memory (20_memory.md R53). -/
def Accessible (s : State) (w : Width) : RM → Prop
  | .reg _ => True
  | .mem x => (s.ea x).toNat + w.bytes ≤ s.cfg.memSize

/-- The value of the rm operand: the register's, or the little-endian value of the bytes at the effective address. -/
def rmValue (s : State) (w : Width) : RM → Nat
  | .reg n => regValue s n w
  | .mem x => s.mem.load (s.ea x).toNat w.bytes

/-- The full view of the slot a view belongs to (10_state.md R22). -/
def slotView : View → View
  | .r16 g => .r32 g
  | .lo8 .a => .r32 .eax
  | .lo8 .c => .r32 .ecx
  | .lo8 .d => .r32 .edx
  | .lo8 .b => .r32 .ebx
  | .hi8 .a => .r32 .eax
  | .hi8 .c => .r32 .ecx
  | .hi8 .d => .r32 .edx
  | .hi8 .b => .r32 .ebx
  | .ip => .eip
  | x => x

/-- The field of the state that is the general slot (10_state.md R20). -/
def gprField (s : State) : Gpr → Word
  | .eax => s.eax
  | .ecx => s.ecx
  | .edx => s.edx
  | .ebx => s.ebx
  | .esp => s.esp
  | .ebp => s.ebp
  | .esi => s.esi
  | .edi => s.edi

/-- The value of the slot a view belongs to, read off the fields of the state (10_state.md R20, R22). -/
def slotValue (s : State) : View → Nat
  | .r32 g => (gprField s g).toNat
  | .r16 g => (gprField s g).toNat
  | .lo8 .a => s.eax.toNat
  | .lo8 .c => s.ecx.toNat
  | .lo8 .d => s.edx.toNat
  | .lo8 .b => s.ebx.toNat
  | .hi8 .a => s.eax.toNat
  | .hi8 .c => s.ecx.toNat
  | .hi8 .d => s.edx.toNat
  | .hi8 .b => s.ebx.toNat
  | .eip => s.eip.toNat
  | .ip => s.eip.toNat
  | .seg .cs => s.cs.toNat
  | .seg .ds => s.ds.toNat
  | .seg .es => s.es.toNat
  | .seg .fs => s.fs.toNat
  | .seg .gs => s.gs.toNat
  | .seg .ss => s.ss.toNat

/-- The lowest bit of its slot that a view names (10_state.md R22). -/
def viewLow : View → Nat
  | .hi8 _ => 8
  | _ => 0

/-! ### Frames -/

/-- No byte of memory differs. -/
def MemKept (s t : State) : Prop := ∀ a, t.mem.read a = s.mem.read a

/-- No byte of memory outside the n bytes from a on differs. -/
def MemKeptOutside (a n : Nat) (s t : State) : Prop := ∀ k, k < a ∨ a + n ≤ k → t.mem.read k = s.mem.read k

/-- No general register differs. -/
def GprsKept (s t : State) : Prop := ∀ g, t.gpr g = s.gpr g

/-- No bit of a general register differs but those register number n names at width w (10_state.md R25). -/
def GprBitsKept (n : RegNum) (w : Width) (s t : State) : Prop :=
  ∀ g k, ¬(g = slotOf n w ∧ lowBitOf n w ≤ k ∧ k < lowBitOf n w + w.bits) → (t.gpr g).getLsbD k = (s.gpr g).getLsbD k

/-- The segment registers, the halted bit, the fault status, the diagnostic stream and the parameters do not differ. -/
def SystemKept (s t : State) : Prop :=
  (∀ x, t.segReg x = s.segReg x) ∧ t.halted = s.halted ∧ t.faultStatus = s.faultStatus ∧ t.diag = s.diag ∧ t.cfg = s.cfg

/-- The bytes an E destination of width w stores to, as (first address, count): none for a register. -/
def rmStore (s : State) (w : Width) : RM → Option (Nat × Nat)
  | .reg _ => none
  | .mem x => some ((s.ea x).toNat, w.bytes)

/-- The bytes an instruction stores to when it runs in s, as (first address, count): the operand writes of 20_memory.md
R61. Only the forms with E as destination and the pushes have any. -/
def storeOf (s : State) : Instr → Option (Nat × Nat)
  | .addEbGb e _ => rmStore s .w8 e
  | .addEvGv w e _ => rmStore s w.width e
  | .orEbGb e _ => rmStore s .w8 e
  | .orEvGv w e _ => rmStore s w.width e
  | .adcEbGb e _ => rmStore s .w8 e
  | .adcEvGv w e _ => rmStore s w.width e
  | .pushES => some ((s.esp - 2).toNat, 2)
  | .pushCS => some ((s.esp - 2).toNat, 2)
  | .pushSS => some ((s.esp - 2).toNat, 2)
  | .addGbEb _ _ => none
  | .addGvEv _ _ _ => none
  | .orGbEb _ _ => none
  | .orGvEv _ _ _ => none
  | .adcGbEb _ _ => none
  | .adcGvEv _ _ _ => none
  | .addALIb _ => none
  | .addEAXIz _ => none
  | .orALIb _ => none
  | .orEAXIz _ => none
  | .adcALIb _ => none
  | .adcEAXIz _ => none
  | .popES => none
  | .popSS => none
  | .hlt => none
  | .es j => storeOf s j
  | .cs j => storeOf s j
  | .ss j => storeOf s j
  | .ds j => storeOf s j
  | .fs j => storeOf s j
  | .gs j => storeOf s j
  | .o16 j => storeOf s j
  | .a16 j => storeOf s j

/-- Only register number n at width w may differ, and it is r; no byte of memory differs. -/
def RegWritten (n : RegNum) (w : Width) (r : Nat) (s t : State) : Prop :=
  regValue t n w = r ∧ GprBitsKept n w s t ∧ MemKept s t

/-- The rm operand becomes r and nothing else of the registers and memory changes. A memory operand is stored at the
effective address computed in s, the state before the instruction. -/
def RmWritten (e : RM) (w : Width) (r : Nat) (s t : State) : Prop :=
  match e with
  | .reg n => RegWritten n w r s t
  | .mem x =>
    t.mem.load (s.ea x).toNat w.bytes = r ∧ MemKeptOutside (s.ea x).toNat w.bytes s t ∧ GprsKept s t

/-- EIP has moved past the instruction i (41_fetch_dispatch.md R130). -/
def EipPast (i : Instr) (s t : State) : Prop := t.eip = s.eip + BitVec.ofNat 32 (encode i).length

/-! ### The forms of each family by width -/

/-- `add Eb,Gb` at width 8, `add Ev,Gv` at 16 and 32. -/
def addRmReg (e : RM) (g : RegNum) : Width → Instr
  | .w8 => .addEbGb e g
  | .w16 => .addEvGv .o16 e g
  | .w32 => .addEvGv .o32 e g

/-- `add Gb,Eb` at width 8, `add Gv,Ev` at 16 and 32. -/
def addRegRm (g : RegNum) (e : RM) : Width → Instr
  | .w8 => .addGbEb g e
  | .w16 => .addGvEv .o16 g e
  | .w32 => .addGvEv .o32 g e

/-- `add AL,Ib` at width 8, `add eAX,Iz` at 16 and 32. -/
def addAcc : (w : Width) → BitVec w.bits → Instr
  | .w8, v => .addALIb v
  | .w16, v => .addEAXIz (.i16 v)
  | .w32, v => .addEAXIz (.i32 v)

/-- `or Eb,Gb` at width 8, `or Ev,Gv` at 16 and 32. -/
def orRmReg (e : RM) (g : RegNum) : Width → Instr
  | .w8 => .orEbGb e g
  | .w16 => .orEvGv .o16 e g
  | .w32 => .orEvGv .o32 e g

/-- `or Gb,Eb` at width 8, `or Gv,Ev` at 16 and 32. -/
def orRegRm (g : RegNum) (e : RM) : Width → Instr
  | .w8 => .orGbEb g e
  | .w16 => .orGvEv .o16 g e
  | .w32 => .orGvEv .o32 g e

/-- `or AL,Ib` at width 8, `or eAX,Iz` at 16 and 32. -/
def orAcc : (w : Width) → BitVec w.bits → Instr
  | .w8, v => .orALIb v
  | .w16, v => .orEAXIz (.i16 v)
  | .w32, v => .orEAXIz (.i32 v)

/-- `adc Eb,Gb` at width 8, `adc Ev,Gv` at 16 and 32. -/
def adcRmReg (e : RM) (g : RegNum) : Width → Instr
  | .w8 => .adcEbGb e g
  | .w16 => .adcEvGv .o16 e g
  | .w32 => .adcEvGv .o32 e g

/-- `adc Gb,Eb` at width 8, `adc Gv,Ev` at 16 and 32. -/
def adcRegRm (g : RegNum) (e : RM) : Width → Instr
  | .w8 => .adcGbEb g e
  | .w16 => .adcGvEv .o16 g e
  | .w32 => .adcGvEv .o32 g e

/-- `adc AL,Ib` at width 8, `adc eAX,Iz` at 16 and 32. -/
def adcAcc : (w : Width) → BitVec w.bits → Instr
  | .w8, v => .adcALIb v
  | .w16, v => .adcEAXIz (.i16 v)
  | .w32, v => .adcEAXIz (.i32 v)

/-- The PUSH instructions with the segment register each pushes (46_segment_stack.md R192, R194, R195). -/
def pushes : List (Instr × Seg) := [(.pushES, .es), (.pushCS, .cs), (.pushSS, .ss)]

/-- The POP instructions with the segment register each pops (46_segment_stack.md R193, R196). -/
def pops : List (Instr × Seg) := [(.popES, .es), (.popSS, .ss)]

/-- The index part of a SIB address with multiplier k: 0 for "no index" (30_encoding.md R82). -/
def indexPart (s : State) (k : Nat) : Option RegNum → Nat
  | none => 0
  | some n => regValue s n .w32 * k

/-- Every memory access the instruction makes after its bytes are read lies below N (20_memory.md R61, R53). -/
def AccessesInRange (s : State) : Instr → Prop
  | .addEbGb e _ => Accessible s .w8 e
  | .addEvGv w e _ => Accessible s w.width e
  | .addGbEb _ e => Accessible s .w8 e
  | .addGvEv w _ e => Accessible s w.width e
  | .orEbGb e _ => Accessible s .w8 e
  | .orEvGv w e _ => Accessible s w.width e
  | .orGbEb _ e => Accessible s .w8 e
  | .orGvEv w _ e => Accessible s w.width e
  | .adcEbGb e _ => Accessible s .w8 e
  | .adcEvGv w e _ => Accessible s w.width e
  | .adcGbEb _ e => Accessible s .w8 e
  | .adcGvEv w _ e => Accessible s w.width e
  | .addALIb _ => True
  | .addEAXIz _ => True
  | .orALIb _ => True
  | .orEAXIz _ => True
  | .adcALIb _ => True
  | .adcEAXIz _ => True
  | .pushES => (s.esp - 2).toNat + 2 ≤ s.cfg.memSize
  | .pushCS => (s.esp - 2).toNat + 2 ≤ s.cfg.memSize
  | .pushSS => (s.esp - 2).toNat + 2 ≤ s.cfg.memSize
  | .popES => s.esp.toNat + 2 ≤ s.cfg.memSize
  | .popSS => s.esp.toNat + 2 ≤ s.cfg.memSize
  | .hlt => True
  | .es j => AccessesInRange s j
  | .cs j => AccessesInRange s j
  | .ss j => AccessesInRange s j
  | .ds j => AccessesInRange s j
  | .fs j => AccessesInRange s j
  | .gs j => AccessesInRange s j
  | .o16 j => AccessesInRange s j
  | .a16 j => AccessesInRange s j

/-! ### Bytes at EIP -/

/-- The address `off` bytes after EIP, modulo 2^32 (10_state.md R35). -/
def streamAddr (s : State) (off : Nat) : Nat := (s.eip.toNat + off) % 4294967296

/-- The fields fs, each one read of 1, 2 or 4 bytes, stand in memory from `off` bytes after EIP on: each field begins at
its own address modulo 2^32 and none runs past N (30_encoding.md R84, 20_memory.md R53, R55). -/
def FieldsAt (s : State) : (off : Nat) → (fs : List (List Byte)) → Prop
  | _, [] => True
  | off, f :: fs =>
    streamAddr s off + f.length ≤ s.cfg.memSize ∧
    (∀ k (h : k < f.length), s.mem.read (streamAddr s off + k) = f[k]) ∧
    FieldsAt s (off + f.length) fs

/-- The bytes l stand at EIP, each at its own address modulo 2^32 and below N: prefixes and an opcode. -/
def BytesAtEip (s : State) (l : List Byte) : Prop := FieldsAt s 0 (l.map fun b => [b])

/-- A displacement or an immediate as a field, if there is one. -/
def fieldOf (l : List Byte) : List (List Byte) := if l = [] then [] else [l]

/-- The fields after the opcode: ModR/M, SIB and displacement, or the immediate (30_encoding.md R70, R84). -/
def tailFields (i : Instr) : List (List Byte) :=
  match i.rm?, i.reg? with
  | some e, some g => [fieldsByte e.mod g.bits e.rm] :: (e.sib.toList.map fun b => [b]) ++ fieldOf e.dispBytes
  | _, _ => fieldOf i.immBytes

/-- The encoding of an instruction cut into the fields the core reads: each prefix, the opcode, and `tailFields`. -/
def fieldsOf (i : Instr) : List (List Byte) :=
  (i.prefixes.map fun p => [p.byte]) ++ [i.opcode] :: tailFields i

/-- The opcode bytes of the dispatch table (30_encoding.md R86). -/
def mappedOpcodes : List Byte :=
  [0x00, 0x01, 0x02, 0x03, 0x04, 0x05, 0x06, 0x07, 0x08, 0x09, 0x0A, 0x0B, 0x0C, 0x0D, 0x0E,
   0x10, 0x11, 0x12, 0x13, 0x14, 0x15, 0x16, 0x17, 0xF4]

/-- The prefix bytes (30_encoding.md R71). -/
def prefixBytes : List Byte := [0x26, 0x2E, 0x36, 0x3E, 0x64, 0x65, 0x66, 0x67]

/-- D of the length formula with 16-bit addressing, from the ModR/M fields (30_encoding.md R88). -/
def dispLength16 (mod rm : Nat) : Nat :=
  if mod = 0 then (if rm = 6 then 2 else 0) else if mod = 1 then 1 else if mod = 2 then 2 else 0

/-- D of the length formula with 32-bit addressing, from the ModR/M fields and the SIB base (30_encoding.md R88). -/
def dispLength32 (mod rm base : Nat) : Nat :=
  if mod = 0 then (if rm = 5 ∨ (rm = 4 ∧ base = 5) then 4 else 0) else if mod = 1 then 1 else if mod = 2 then 4 else 0

/-- S of the length formula (30_encoding.md R88). -/
def sibLength (mod rm : Nat) : Nat := if mod ≠ 3 ∧ rm = 4 then 1 else 0

/-- The two flag stores agree on the six cells an instruction reads or writes (10_state.md R30). -/
def ArithmeticCellsAgree (f g : FlagStore) : Prop := ∀ i ∈ [(0 : Fin flagIndexCount), 2, 4, 6, 7, 11], f.get i = g.get i

/-- The two flag stores agree on the cells no instruction reads or writes (10_state.md R30, R31). -/
def InertCellsAgree (f g : FlagStore) : Prop := CellsKept [0, 2, 4, 6, 7, 11] f g

/-- The state with DS, FS and GS replaced. -/
def withDataSegs (s : State) (d f g : BitVec 16) : State := { s with ds := d, fs := f, gs := g }

end Sys2Proof.Spec

open Sys2Proof Sys2Proof.Machine Sys2Proof.Spec

/-! ### Encoding -/

/-- Decoding an encoded well-formed instruction gives it back, with its length, whatever bytes follow: no operand bit
of any form is dropped (30_encoding.md R92). -/
def Obligations.DecodeOfEncode : Prop :=
  ∀ (i : Instr) (rest : List Byte), i.wf = true → decode (encode i ++ rest) = .ok (i, (encode i).length)

/-- Whatever decodes is well-formed, and its bytes are the encoding of what it decodes to: two instructions share no
byte string, and a byte string has one meaning. -/
def Obligations.EncodeOfDecode : Prop :=
  ∀ (l : List Byte) (i : Instr) (n : Nat), decode l = .ok (i, n) → i.wf = true ∧ n ≤ l.length ∧ encode i = l.take n

/-- Sample words of every family, written out from the spec's encoding tables. -/
def Obligations.SampleWordsDecode : Prop :=
  decode [0x00, 0xC0] = .ok (.addEbGb (.reg .r0) .r0, 2) ∧
  decode [0x66, 0x01, 0xD8] = .ok (.o16 (.addEvGv .o16 (.reg .r0) .r3), 3) ∧
  decode [0x0A, 0x24, 0x25, 0x00, 0x02, 0x00, 0x00] = .ok (.orGbEb .r4 (.mem (.a32 (.sibDisp .x1 none 0x200))), 7) ∧
  decode [0x67, 0x10, 0x46, 0xFF] = .ok (.a16 (.adcEbGb (.mem (.a16 (.based .bp (.d8 0xFF)))) .r0), 4) ∧
  decode [0x15, 0x01, 0x00, 0x00, 0x00] = .ok (.adcEAXIz (.i32 1), 5) ∧
  decode [0x26, 0x06] = .ok (.es .pushES, 2) ∧
  decode [0xF4] = .ok (.hlt, 1)

/-- The dispatch table maps exactly the opcode bytes of R86. -/
def Obligations.DispatchTableExact : Prop := ∀ op : Byte, (formOf op).isSome = true ↔ op ∈ mappedOpcodes

/-- Each of the eight bytes of R71 is the prefix the table names, and no other byte is a prefix. -/
def Obligations.PrefixBytesExact : Prop :=
  ∀ b : Byte, Prefix.ofByte b =
    if b = 0x26 then some .es else if b = 0x2E then some .cs else if b = 0x36 then some .ss
    else if b = 0x3E then some .ds else if b = 0x64 then some .fs else if b = 0x65 then some .gs
    else if b = 0x66 then some .o16 else if b = 0x67 then some .a16 else none

/-- The length formula of R88, read off the raw bytes: p prefixes, the opcode, and for a ModR/M form the ModR/M byte,
S and D; for an immediate form its immediate. -/
def Obligations.InstructionLength : Prop :=
  ∀ (i : Instr), i.wf = true →
    (∀ m, (i.record 0).modrm = some m →
      (encode i).length = i.prefixes.length + 1 + 1 +
        (match addressSize i.prefixes with
         | .a16 => dispLength16 (m.toNat / 64) (m.toNat % 8)
         | .a32 => sibLength (m.toNat / 64) (m.toNat % 8) +
             dispLength32 (m.toNat / 64) (m.toNat % 8) (match (i.record 0).sib with | some b => b.toNat % 8 | none => 0))) ∧
    ((i.record 0).modrm = none →
      (encode i).length = i.prefixes.length + 1 + (i.immBytes).length ∧
      (i.immBytes.length = 0 ∨ i.immBytes.length = 1 ∨
        i.immBytes.length = (match operandSize i.prefixes with | .o16 => 2 | .o32 => 4)))

/-- The operand width of a decoded "v" or "z" form is 16 exactly when 0x66 is among its prefixes, else 32. -/
def Obligations.OperandWidthFollowsPrefix : Prop :=
  ∀ (l : List Byte) (i : Instr) (n : Nat) (w : OpSize), decode l = .ok (i, n) → i.opSize? = some w →
    ((0x66 : Byte) ∈ (i.record 0).prefixes → w = .o16) ∧ ((0x66 : Byte) ∉ (i.record 0).prefixes → w = .o32)

/-- The address width of a decoded memory operand is 16 exactly when 0x67 is among its prefixes, else 32. -/
def Obligations.AddressWidthFollowsPrefix : Prop :=
  ∀ (l : List Byte) (i : Instr) (n : Nat) (e : RM) (a : AdSize), decode l = .ok (i, n) → i.rm? = some e →
    e.adSize? = some a →
    ((0x67 : Byte) ∈ (i.record 0).prefixes → a = .a16) ∧ ((0x67 : Byte) ∉ (i.record 0).prefixes → a = .a32)

/-! ### The cycle -/

/-- A step runs the decoded instruction: step adds nothing around exec. -/
def Obligations.StepRunsDecodedInstruction : Prop :=
  ∀ (s : State) (i : Instr) (n : Nat), s.halted = false → s.faultStatus = .none → s.fetchDecode = .ok (i, n) →
    step s = exec i s

/-- When the encoding of a well-formed instruction stands in memory at EIP, the step is that instruction's. Where
N = 2^32 it may run on from address 2^32 - 1 to 0, between two fields (30_encoding.md R84). -/
def Obligations.StepRunsBytesAtEip : Prop :=
  ∀ (s : State) (i : Instr), s.cfg.wf → s.halted = false → s.faultStatus = .none → i.wf = true →
    (fieldsOf i).flatten = encode i ∧ (FieldsAt s 0 (fieldsOf i) → step s = exec i s)

/-- A halted or faulted core does nothing. -/
def Obligations.StoppedCycleIsNoop : Prop :=
  ∀ s : State, s.halted = true ∨ s.faultStatus ≠ .none → step s = .next s

/-- An unmapped opcode, after any prefixes: one diagnostic with the byte and its address, one byte skipped, and nothing
else changes. -/
def Obligations.UnmappedOpcodeSkipsOneByte : Prop :=
  ∀ (s : State) (ps : List Byte) (op : Byte), s.cfg.wf → s.halted = false → s.faultStatus = .none →
    (∀ b ∈ ps, b ∈ prefixBytes) → op ∉ prefixBytes → op ∉ mappedOpcodes → BytesAtEip s (ps ++ [op]) →
    step s = .next { s with
      eip := s.eip + BitVec.ofNat 32 (ps.length + 1)
      diag := s.diag ++ [{ byte := op, addr := s.eip + BitVec.ofNat 32 ps.length }] }

/-- A fetch past N faults with max(addr, N) and changes nothing else: the first byte; the byte after any prefixes; and
any field of any instruction (prefix, opcode, ModR/M, SIB, displacement, immediate) when the fields before it stand in
memory. -/
def Obligations.FetchBeyondMemoryFaults : Prop :=
  ∀ s : State, s.halted = false → s.faultStatus = .none →
    (s.cfg.memSize ≤ s.eip.toNat → step s = .next { s with faultStatus := .addressOutOfRange s.eip.toNat }) ∧
    (∀ ps : List Byte, s.cfg.wf → (∀ b ∈ ps, b ∈ prefixBytes) → BytesAtEip s ps →
      s.cfg.memSize ≤ streamAddr s ps.length →
      step s = .next { s with faultStatus := .addressOutOfRange (streamAddr s ps.length) }) ∧
    (∀ (i : Instr) (fs : List (List Byte)) (f : List Byte) (gs : List (List Byte)), s.cfg.wf → i.wf = true →
      fieldsOf i = fs ++ f :: gs → FieldsAt s 0 fs → s.cfg.memSize < streamAddr s fs.flatten.length + f.length →
      step s = .next { s with
        faultStatus := .addressOutOfRange (max (streamAddr s fs.flatten.length) s.cfg.memSize) })

/-- The only step without a next state is the endless prefix scan, which needs N = 2^32 and a prefix in every byte. -/
def Obligations.HangExactly : Prop :=
  ∀ s : State, s.Inv → s.halted = false → s.faultStatus = .none →
    (step s = .fault .prefixScanHang ↔
      s.cfg.memSize = 2 ^ 32 ∧ ∀ a, a < 2 ^ 32 → s.mem.read a ∈ prefixBytes)

/-- No step is refused. -/
def Obligations.StepNeverRefused : Prop := ∀ (s : State) (r : Refusal), step s ≠ .refused r

/-- A cycle that raises AddressOutOfRange is undone: only the fault status differs, and its address is at or beyond N
and at most 2^32. -/
def Obligations.FaultUndoesTheCycle : Prop :=
  ∀ s t : State, s.Inv → step s = .next t → t.faultStatus ≠ s.faultStatus →
    ∃ a, s.cfg.memSize ≤ a ∧ a ≤ 2 ^ 32 ∧ t = { s with faultStatus := .addressOutOfRange a }

/-- After a cycle that ends without a fault EIP is start + L, with L the length of the instruction, or prefixes plus one
for an unmapped opcode; but L - 1 for HLT when HLT_ADVANCES_EIP is false. -/
def Obligations.EipAfterCycle : Prop :=
  ∀ s t : State, s.halted = false → s.faultStatus = .none → step s = .next t → t.faultStatus = .none →
    (∃ i n, s.fetchDecode = .ok (i, n) ∧
      (i.body = .hlt ∧ s.cfg.hltAdvancesEip = false → t.eip = s.eip + BitVec.ofNat 32 ((encode i).length - 1)) ∧
      (¬(i.body = .hlt ∧ s.cfg.hltAdvancesEip = false) → t.eip = s.eip + BitVec.ofNat 32 (encode i).length)) ∨
    (∃ ps op, s.fetchDecode = .error (.unmapped ps op) ∧ t.eip = s.eip + BitVec.ofNat 32 (ps.length + 1))

/-! ### Invariants and whole-machine rules -/

/-- Every step keeps the invariant: canonical memory below N, N in range, a fault status R212 can record. -/
def Obligations.StepKeepsInvariant : Prop := ∀ s t : State, s.Inv → step s = .next t → t.Inv

/-- The invariant holds after reset, for every construction. -/
def Obligations.ResetMeetsInvariant : Prop :=
  State.reset.Inv ∧
  ∀ (c : Config) (m : Memory) (d : List Diag), c.wf → m.wf → (∀ x ∈ m, x.1 < c.memSize) → (State.resetOf c m d).Inv

/-- Halted is set by HLT only, and no step clears it. -/
def Obligations.OnlyHltHalts : Prop :=
  ∀ s t : State, step s = .next t →
    (s.halted = true → t.halted = true) ∧
    (s.halted = false → t.halted = true → ∃ i n, s.fetchDecode = .ok (i, n) ∧ i.body = .hlt)

/-- No step writes CS, DS, FS or GS; ES is written by POP ES only and SS by POP SS only. -/
def Obligations.SegmentsWrittenByPopsOnly : Prop :=
  ∀ s t : State, step s = .next t →
    t.cs = s.cs ∧ t.ds = s.ds ∧ t.fs = s.fs ∧ t.gs = s.gs ∧
    (t.es ≠ s.es → ∃ i n, s.fetchDecode = .ok (i, n) ∧ i.body = .popES) ∧
    (t.ss ≠ s.ss → ∃ i n, s.fetchDecode = .ok (i, n) ∧ i.body = .popSS)

/-- No step writes a flag cell other than CF, PF, AF, ZF, SF and OF. -/
def Obligations.InertFlagCellsKept : Prop :=
  ∀ s t : State, step s = .next t → InertCellsAgree s.eflags t.eflags

/-- No step reads an inert flag cell: two states that differ only in those cells take the same step, up to those cells,
which each keeps. -/
def Obligations.InertFlagCellsNeverRead : Prop :=
  ∀ (s t : State) (f : FlagStore), ArithmeticCellsAgree s.eflags f → step s = .next t →
    ∃ g, step { s with eflags := f } = .next { t with eflags := g } ∧ ArithmeticCellsAgree t.eflags g ∧ InertCellsAgree f g

/-- No step reads DS, FS or GS: they enter no address and no instruction moves them. -/
def Obligations.DataSegmentsNeverRead : Prop :=
  ∀ (s t : State) (d f g : BitVec 16), step s = .next t → step (withDataSegs s d f g) = .next (withDataSegs t d f g)

/-- A step leaves the construction parameters alone, and appends at most one event to the diagnostic stream, never
dropping one. -/
def Obligations.DiagnosticsOnlyGrow : Prop :=
  ∀ s t : State, step s = .next t → t.cfg = s.cfg ∧ (t.diag = s.diag ∨ ∃ e, t.diag = s.diag ++ [e])

/-- A step stores to one operand only: a decoded form with a memory operand E as destination to its bytes from the
effective address on, a push to the two bytes below ESP, both computed in the state before the step. Every other
instruction, an unmapped opcode, a faulting cycle and a cycle of a halted or faulted core change no byte. A cycle that
ends without a fault stored below N. -/
def Obligations.StepStoresAtMostOneOperand : Prop :=
  ∀ s t : State, s.mem.wf → step s = .next t →
    (s.halted = true ∨ s.faultStatus ≠ .none ∨ t.faultStatus ≠ .none → MemKept s t) ∧
    (∀ e, s.fetchDecode = .error e → MemKept s t) ∧
    (∀ i n, s.fetchDecode = .ok (i, n) → storeOf s i = none → MemKept s t) ∧
    (∀ i n a k, s.fetchDecode = .ok (i, n) → storeOf s i = some (a, k) →
      k ≤ 4 ∧ MemKeptOutside a k s t ∧
      (s.halted = false → s.faultStatus = .none → t.faultStatus = .none → a + k ≤ s.cfg.memSize))

/-! ### ADD, ADC, OR: each form completes, with its result, its flags and its frame -/

/-- ADD Eb,Gb and Ev,Gv (constructors addEbGb, addEvGv): whenever the operand's bytes lie below N the instruction
completes, E becomes E + G at the width, the flags are those of R141 to R147, EIP passes the instruction, and nothing
else changes. -/
def Obligations.AddRmRegCompletes : Prop :=
  ∀ (s : State) (w : Width) (e : RM) (g : RegNum), s.mem.wf → Accessible s w e →
    ∃ t, exec (addRmReg e g w) s = .next t ∧
      RmWritten e w ((rmValue s w e + regValue s g w) % 2 ^ w.bits) s t ∧
      SumFlags w.bits s.cfg.ofUntriggered (rmValue s w e) (regValue s g w) 0 s.eflags t.eflags ∧
      SystemKept s t ∧ EipPast (addRmReg e g w) s t

/-- ADD Gb,Eb and Gv,Ev (constructors addGbEb, addGvEv): G becomes G + E; memory is only read. -/
def Obligations.AddRegRmCompletes : Prop :=
  ∀ (s : State) (w : Width) (g : RegNum) (e : RM), Accessible s w e →
    ∃ t, exec (addRegRm g e w) s = .next t ∧
      RegWritten g w ((regValue s g w + rmValue s w e) % 2 ^ w.bits) s t ∧
      SumFlags w.bits s.cfg.ofUntriggered (regValue s g w) (rmValue s w e) 0 s.eflags t.eflags ∧
      SystemKept s t ∧ EipPast (addRegRm g e w) s t

/-- ADD AL,Ib and eAX,Iz (constructors addALIb, addEAXIz): AL, AX or EAX becomes itself plus the immediate. -/
def Obligations.AddAccumulatorCompletes : Prop :=
  ∀ (s : State) (w : Width) (v : BitVec w.bits),
    ∃ t, exec (addAcc w v) s = .next t ∧
      RegWritten .r0 w ((regValue s .r0 w + v.toNat) % 2 ^ w.bits) s t ∧
      SumFlags w.bits s.cfg.ofUntriggered (regValue s .r0 w) v.toNat 0 s.eflags t.eflags ∧
      SystemKept s t ∧ EipPast (addAcc w v) s t

/-- ADC Eb,Gb and Ev,Gv (constructors adcEbGb, adcEvGv): E becomes E + G + CF. -/
def Obligations.AdcRmRegCompletes : Prop :=
  ∀ (s : State) (w : Width) (e : RM) (g : RegNum), s.mem.wf → Accessible s w e →
    ∃ t, exec (adcRmReg e g w) s = .next t ∧
      RmWritten e w ((rmValue s w e + regValue s g w + carryIn s) % 2 ^ w.bits) s t ∧
      SumFlags w.bits s.cfg.ofUntriggered (rmValue s w e) (regValue s g w) (carryIn s) s.eflags t.eflags ∧
      SystemKept s t ∧ EipPast (adcRmReg e g w) s t

/-- ADC Gb,Eb and Gv,Ev (constructors adcGbEb, adcGvEv): G becomes G + E + CF. -/
def Obligations.AdcRegRmCompletes : Prop :=
  ∀ (s : State) (w : Width) (g : RegNum) (e : RM), Accessible s w e →
    ∃ t, exec (adcRegRm g e w) s = .next t ∧
      RegWritten g w ((regValue s g w + rmValue s w e + carryIn s) % 2 ^ w.bits) s t ∧
      SumFlags w.bits s.cfg.ofUntriggered (regValue s g w) (rmValue s w e) (carryIn s) s.eflags t.eflags ∧
      SystemKept s t ∧ EipPast (adcRegRm g e w) s t

/-- ADC AL,Ib and eAX,Iz (constructors adcALIb, adcEAXIz): AL, AX or EAX becomes itself plus the immediate plus CF. -/
def Obligations.AdcAccumulatorCompletes : Prop :=
  ∀ (s : State) (w : Width) (v : BitVec w.bits),
    ∃ t, exec (adcAcc w v) s = .next t ∧
      RegWritten .r0 w ((regValue s .r0 w + v.toNat + carryIn s) % 2 ^ w.bits) s t ∧
      SumFlags w.bits s.cfg.ofUntriggered (regValue s .r0 w) v.toNat (carryIn s) s.eflags t.eflags ∧
      SystemKept s t ∧ EipPast (adcAcc w v) s t

/-- OR Eb,Gb and Ev,Gv (constructors orEbGb, orEvGv): E becomes the bitwise or of E and G; AF is kept. -/
def Obligations.OrRmRegCompletes : Prop :=
  ∀ (s : State) (w : Width) (e : RM) (g : RegNum), s.mem.wf → Accessible s w e →
    ∃ t, exec (orRmReg e g w) s = .next t ∧
      RmWritten e w (rmValue s w e ||| regValue s g w) s t ∧
      OrFlags w.bits (rmValue s w e) (regValue s g w) s.eflags t.eflags ∧
      SystemKept s t ∧ EipPast (orRmReg e g w) s t

/-- OR Gb,Eb and Gv,Ev (constructors orGbEb, orGvEv): G becomes the bitwise or of G and E; AF is kept. -/
def Obligations.OrRegRmCompletes : Prop :=
  ∀ (s : State) (w : Width) (g : RegNum) (e : RM), Accessible s w e →
    ∃ t, exec (orRegRm g e w) s = .next t ∧
      RegWritten g w (regValue s g w ||| rmValue s w e) s t ∧
      OrFlags w.bits (regValue s g w) (rmValue s w e) s.eflags t.eflags ∧
      SystemKept s t ∧ EipPast (orRegRm g e w) s t

/-- OR AL,Ib and eAX,Iz (constructors orALIb, orEAXIz): AL, AX or EAX becomes the bitwise or with the immediate; AF is
kept. -/
def Obligations.OrAccumulatorCompletes : Prop :=
  ∀ (s : State) (w : Width) (v : BitVec w.bits),
    ∃ t, exec (orAcc w v) s = .next t ∧
      RegWritten .r0 w (regValue s .r0 w ||| v.toNat) s t ∧
      OrFlags w.bits (regValue s .r0 w) v.toNat s.eflags t.eflags ∧
      SystemKept s t ∧ EipPast (orAcc w v) s t

/-- A memory operand that runs past N makes every ModR/M form fault with the first byte address at or beyond N, and
change nothing else. -/
def Obligations.OperandBeyondMemoryFaults : Prop :=
  ∀ (s : State) (w : Width) (x : Addr) (g : RegNum), s.cfg.memSize < (s.ea x).toNat + w.bytes →
    ∀ i ∈ [addRmReg (.mem x) g w, addRegRm g (.mem x) w, orRmReg (.mem x) g w, orRegRm g (.mem x) w,
        adcRmReg (.mem x) g w, adcRegRm g (.mem x) w],
      exec i s = .next { s with faultStatus := .addressOutOfRange (max (s.ea x).toNat s.cfg.memSize) }

/-- The two encodings of one register-register operation compute the same: the destination may stand in rm or in reg. -/
def Obligations.TwoEncodingsAgree : Prop :=
  ∀ (s : State) (w : Width) (a b : RegNum),
    exec (addRmReg (.reg a) b w) s = exec (addRegRm a (.reg b) w) s ∧
    exec (orRmReg (.reg a) b w) s = exec (orRegRm a (.reg b) w) s ∧
    exec (adcRmReg (.reg a) b w) s = exec (adcRegRm a (.reg b) w) s

/-- After ADD or ADC with OF cleared when the refinement does not fire, CF and OF are never both set; CF set implies SF
clear; OF is set exactly when the sum wrapped and SF is set; and an ADC of all ones with carry-in gives the first
operand back without a carry. -/
def Obligations.CarryOverflowExclusive : Prop :=
  ∀ (w : Width) (a b : BitVec w.bits) (op : AluOp) (f : FlagStore), op = .add ∨ op = .adc →
    let r := alu .clear op a b f
    ¬(r.2.get 0 = true ∧ r.2.get 11 = true) ∧
    (r.2.get 0 = true → r.2.get 7 = false) ∧
    (r.2.get 11 = true ↔ r.1.toNat < a.toNat ∧ r.1.msb = true) ∧
    (op = .adc → f.get 0 = true → b = BitVec.allOnes w.bits → r.1 = a ∧ r.2.get 0 = false)

/-! ### PUSH, POP, HLT, prefixes -/

/-- PUSH ES, CS, SS (constructors pushES, pushCS, pushSS): with the slot below N, ESP falls by 2 modulo 2^32, the segment
register's bytes stand at the new ESP, low byte first, and nothing else changes but EIP. -/
def Obligations.PushCompletes : Prop :=
  ∀ (s : State), s.mem.wf → (s.esp - 2).toNat + 2 ≤ s.cfg.memSize → ∀ p ∈ pushes,
    ∃ t, exec p.1 s = .next t ∧ t.esp = s.esp - 2 ∧
      t.mem.read (s.esp - 2).toNat = (s.segReg p.2).extractLsb' 0 8 ∧
      t.mem.read ((s.esp - 2).toNat + 1) = (s.segReg p.2).extractLsb' 8 8 ∧
      MemKeptOutside (s.esp - 2).toNat 2 s t ∧ (∀ g, g ≠ .esp → t.gpr g = s.gpr g) ∧
      t.eflags = s.eflags ∧ SystemKept s t ∧ EipPast p.1 s t

/-- POP ES, SS (constructors popES, popSS): with the slot below N, the segment register takes the two bytes at the old
ESP, low byte first, ESP rises by 2 modulo 2^32, and nothing else changes but EIP. -/
def Obligations.PopCompletes : Prop :=
  ∀ (s : State), s.esp.toNat + 2 ≤ s.cfg.memSize → ∀ p ∈ pops,
    ∃ t, exec p.1 s = .next t ∧ t.esp = s.esp + 2 ∧
      t.segReg p.2 = s.mem.read (s.esp.toNat + 1) ++ s.mem.read s.esp.toNat ∧
      MemKept s t ∧ (∀ g, g ≠ .esp → t.gpr g = s.gpr g) ∧ (∀ x, x ≠ p.2 → t.segReg x = s.segReg x) ∧
      t.eflags = s.eflags ∧ t.halted = s.halted ∧ t.faultStatus = s.faultStatus ∧ t.diag = s.diag ∧ t.cfg = s.cfg ∧
      EipPast p.1 s t

/-- A push or pop whose slot runs past N faults with the first byte address at or beyond N; ESP is undone with the rest. -/
def Obligations.StackBeyondMemoryFaults : Prop :=
  ∀ (s : State),
    (s.cfg.memSize < (s.esp - 2).toNat + 2 → ∀ p ∈ pushes,
      exec p.1 s = .next { s with faultStatus := .addressOutOfRange (max (s.esp - 2).toNat s.cfg.memSize) }) ∧
    (s.cfg.memSize < s.esp.toNat + 2 → ∀ p ∈ pops,
      exec p.1 s = .next { s with faultStatus := .addressOutOfRange (max s.esp.toNat s.cfg.memSize) })

/-- A push followed by a pop moves the one segment register to the other and restores ESP. -/
def Obligations.PushThenPopMoves : Prop :=
  ∀ (s : State), s.mem.wf → (s.esp - 2).toNat + 2 ≤ s.cfg.memSize → ∀ p ∈ pushes, ∀ q ∈ pops,
    ∃ t u, exec p.1 s = .next t ∧ exec q.1 t = .next u ∧ u.segReg q.2 = s.segReg p.2 ∧ u.esp = s.esp

/-- HLT (constructor hlt), alone or behind prefixes: it sets halted, EIP passes the prefixes, and the opcode too where
HLT_ADVANCES_EIP is true; nothing else changes. Its bytes are the prefixes and 0xF4. -/
def Obligations.HltCompletes : Prop :=
  ∀ (s : State) (ps : List Prefix),
    encode (Instr.hlt.withPrefixes ps) = ps.map Prefix.byte ++ [0xF4] ∧
    exec (Instr.hlt.withPrefixes ps) s =
      .next { s with
        halted := true
        eip := s.eip + BitVec.ofNat 32 (ps.length + if s.cfg.hltAdvancesEip then 1 else 0) }

/-- The prefixes (constructors es, cs, ss, ds, fs, gs, o16, a16): with the accesses of the instruction behind it in
range, a prefixed instruction completes, and its only difference from the instruction alone is one byte of EIP. -/
def Obligations.PrefixedInstructionCompletes : Prop :=
  ∀ (s : State) (p : Prefix) (j : Instr), AccessesInRange s j →
    ∃ t u, exec (p.before j) s = .next t ∧ exec j s = .next u ∧
      t.faultStatus = s.faultStatus ∧ t = { u with eip := u.eip + 1 }

/-- The model's assembler form keeps the effect: one prefix for many, prefixes without effect and the two encodings of a
register-register operation differ in EIP only. R94 gives the form its destination in rm and one size prefix of each kind
an operand needs, after the overrides. The rest is the model's own choice: 0x66 before 0x67 (log entry 11), the overrides
and the address encoding kept and unneeded size prefixes left out (log entry 13). -/
def Obligations.AssemblerFormSameEffect : Prop :=
  ∀ (s : State) (i : Instr), i.wf = true → (assemblerForm i).wf = true ∧
    ∃ t u, exec i s = .next t ∧ exec (assemblerForm i) s = .next u ∧ { t with eip := s.eip } = { u with eip := s.eip }

/-- An instruction completes exactly when its memory accesses lie below N: nothing else makes one fault, in any state. -/
def Obligations.CompletesIffAccessesInRange : Prop :=
  ∀ (s : State) (i : Instr), s.faultStatus = .none →
    (AccessesInRange s i ↔ ∃ t, exec i s = .next t ∧ t.faultStatus = .none)

/-! ### Effective addresses -/

/-- A 16-bit address is the sum of its parts modulo 2^16, zero-extended; disp8 is signed. -/
def Obligations.EffectiveAddress16 : Prop :=
  ∀ (s : State) (d8 : BitVec 8) (d16 : BitVec 16),
    let bx := s.ebx.toNat % 65536
    let bp := s.ebp.toNat % 65536
    let si := s.esi.toNat % 65536
    let di := s.edi.toNat % 65536
    (s.ea (.a16 (.disp d16))).toNat = d16.toNat ∧
    ∀ p ∈ [(Base16.bxsi, bx + si), (.bxdi, bx + di), (.bpsi, bp + si), (.bpdi, bp + di), (.si, si), (.di, di), (.bp, bp), (.bx, bx)],
      (s.ea (.a16 (.based p.1 .d0))).toNat = p.2 % 65536 ∧
      ((s.ea (.a16 (.based p.1 (.d8 d8)))).toNat : Int) = ((p.2 : Int) + d8.toInt) % 65536 ∧
      (s.ea (.a16 (.based p.1 (.full d16)))).toNat = (p.2 + d16.toNat) % 65536

/-- A 32-bit address without SIB is base plus displacement modulo 2^32; disp8 is signed. -/
def Obligations.EffectiveAddress32 : Prop :=
  ∀ (s : State) (b : RegNum) (d8 : BitVec 8) (d32 : BitVec 32),
    (s.ea (.a32 (.disp d32))).toNat = d32.toNat ∧
    (s.ea (.a32 (.based b .d0))).toNat = regValue s b .w32 ∧
    ((s.ea (.a32 (.based b (.d8 d8)))).toNat : Int) = ((regValue s b .w32 : Int) + d8.toInt) % 4294967296 ∧
    (s.ea (.a32 (.based b (.full d32)))).toNat = (regValue s b .w32 + d32.toNat) % 4294967296

/-- A SIB address is base plus index times 2^scale plus displacement modulo 2^32; no index contributes 0 whatever the
scale; without a base it is the disp32 plus the index part. -/
def Obligations.EffectiveAddressSib : Prop :=
  ∀ (s : State) (index : Option RegNum) (b : RegNum) (d8 : BitVec 8) (d32 : BitVec 32),
    ∀ p ∈ [(Scale.x1, 1), (.x2, 2), (.x4, 4), (.x8, 8)],
      let i := indexPart s p.2 index
      (s.ea (.a32 (.sib p.1 index b .d0))).toNat = (regValue s b .w32 + i) % 4294967296 ∧
      ((s.ea (.a32 (.sib p.1 index b (.d8 d8)))).toNat : Int) = ((regValue s b .w32 : Int) + i + d8.toInt) % 4294967296 ∧
      (s.ea (.a32 (.sib p.1 index b (.full d32)))).toNat = (regValue s b .w32 + i + d32.toNat) % 4294967296 ∧
      (s.ea (.a32 (.sibDisp p.1 index d32))).toNat = (i + d32.toNat) % 4294967296

/-! ### Registers and memory -/

/-- Reading a view gives its bits of the slot, shifted down; the slot is a field of the state. -/
def Obligations.ViewReadsItsSlotBits : Prop :=
  ∀ (s : State) (x : View) (k : Nat), k < x.bits →
    (s.get x).getLsbD k = (slotValue s x).testBit (viewLow x + k)

/-- Writing a view gives it the value, changes no other bit of its slot and no other slot, and no flag, memory byte or
other state. -/
def Obligations.ViewWriteMerges : Prop :=
  ∀ (s : State) (x : View) (v : BitVec x.bits),
    (s.set x v).get x = v ∧
    (∀ (y : View) (k : Nat), slotView y = y → ¬(y = slotView x ∧ viewLow x ≤ k ∧ k < viewLow x + x.bits) →
      ((s.set x v).get y).getLsbD k = (s.get y).getLsbD k) ∧
    (s.set x v).eflags = s.eflags ∧ (s.set x v).mem = s.mem ∧ (s.set x v).halted = s.halted ∧
    (s.set x v).faultStatus = s.faultStatus ∧ (s.set x v).diag = s.diag ∧ (s.set x v).cfg = s.cfg

/-- Each register number names, at each width, a view of that width over the slot and bits of R79. -/
def Obligations.RegisterTable : Prop :=
  ∀ (n : RegNum) (w : Width),
    (regView n w).bits = w.bits ∧ slotView (regView n w) = .r32 (slotOf n w) ∧ viewLow (regView n w) = lowBitOf n w

/-- MemRead: in range, the little-endian sum of the bytes; past N, the report of max(a, N). -/
def Obligations.MemReadIsLittleEndianSum : Prop :=
  ∀ (s : State) (a : Word) (w : Width),
    (a.toNat + w.bytes ≤ s.cfg.memSize → ∃ v, s.memRead a w = .ok v ∧
      v.toNat = ((List.range w.bytes).map fun i => (s.mem.read (a.toNat + i)).toNat * 2 ^ (8 * i)).sum) ∧
    (s.cfg.memSize < a.toNat + w.bytes → s.memRead a w = .error (max a.toNat s.cfg.memSize))

/-- MemWrite: in range, byte i of the value at address a + i, every other byte kept, and nothing but memory changed; past
N, the report of max(a, N), no byte written. -/
def Obligations.MemWriteIsLittleEndian : Prop :=
  ∀ (s : State) (a : Word) (w : Width) (v : BitVec w.bits), s.mem.wf →
    (a.toNat + w.bytes ≤ s.cfg.memSize → ∃ t, s.memWrite a w v = .ok t ∧
      (∀ i, i < w.bytes → (t.mem.read (a.toNat + i)).toNat = v.toNat / 2 ^ (8 * i) % 256) ∧
      MemKeptOutside a.toNat w.bytes s t ∧ t = { s with mem := t.mem }) ∧
    (s.cfg.memSize < a.toNat + w.bytes → s.memWrite a w v = .error (max a.toNat s.cfg.memSize))

/-- What was written is read back. -/
def Obligations.MemReadAfterWrite : Prop :=
  ∀ (s t : State) (a : Word) (w : Width) (v : BitVec w.bits), s.mem.wf → s.memWrite a w v = .ok t →
    t.memRead a w = .ok v

/-- About the model's own choice of representation (log entry 2), not a rule of the spec: two memories in canonical form
that read the same everywhere are the same list. -/
def Obligations.EqualReadsEqualMemories : Prop :=
  ∀ m m' : Memory, m.wf → m'.wf → (∀ a, m.read a = m'.read a) → m = m'

/-! ### Reset and the host -/

/-- Reset gives every register and flag cell the value of R230, from any state, and leaves memory, the diagnostic stream
and the parameters. -/
def Obligations.ResetValues : Prop :=
  ∀ s : State,
    (∀ g, s.applyReset.gpr g = if g = .esp then 0x0000FFFF else 0) ∧ s.applyReset.eip = 0 ∧
    (∀ x, s.applyReset.segReg x = 0) ∧ (∀ i, s.applyReset.flag i = decide (i = 1)) ∧
    s.applyReset.halted = false ∧ s.applyReset.faultStatus = .none ∧
    s.applyReset.mem = s.mem ∧ s.applyReset.diag = s.diag ∧ s.applyReset.cfg = s.cfg

/-- A host write of a flag value other than 0 or 1 is refused; 0 and 1 are stored, and no other cell changes. -/
def Obligations.HostFlagWrite : Prop :=
  ∀ (s : State) (i : Fin flagIndexCount) (v : Nat),
    (2 ≤ v → hostSetFlag s i v = .error .badFlagValue) ∧
    (v < 2 → ∃ t, hostSetFlag s i v = .ok t ∧ hostGetFlag t i = v ∧ CellsKept [i] s.eflags t.eflags ∧
      t = { s with eflags := t.eflags })

/-- The host calls keep the invariant: views, flag cells, memory writes, bulk loads and reset. -/
def Obligations.HostCallsKeepInvariant : Prop :=
  ∀ s : State, s.Inv →
    (hostReset s).Inv ∧ (∀ x v, (hostSetView s x v).Inv) ∧
    (∀ i v t, hostSetFlag s i v = .ok t → t.Inv) ∧
    (∀ a w v t, hostWrite s a w v = .ok t → t.Inv) ∧
    (∀ a l t, hostLoad s a l = .ok t → t.Inv)

/-- About the model's own choice of representation (log entry 2): for every N bytes there is a canonical memory below N
that holds them. -/
def Obligations.EveryContentsIsAMemory : Prop :=
  ∀ (n : Nat) (f : Nat → Byte), ∃ m : Memory, m.wf ∧ (∀ x ∈ m, x.1 < n) ∧ ∀ a, a < n → m.read a = f a
end

