-- ==== Sys2Proof/Laws/Words.lean ====
section
/-! SUPPORT. The widths as numbers, and values read at a width. -/

namespace Sys2Proof

@[simp] theorem Width.bits_w8 : Width.w8.bits = 8 := rfl
@[simp] theorem Width.bits_w16 : Width.w16.bits = 16 := rfl
@[simp] theorem Width.bits_w32 : Width.w32.bits = 32 := rfl
@[simp] theorem Width.bytes_w8 : Width.w8.bytes = 1 := rfl
@[simp] theorem Width.bytes_w16 : Width.w16.bytes = 2 := rfl
@[simp] theorem Width.bytes_w32 : Width.w32.bytes = 4 := rfl
@[simp] theorem OpSize.width_o16 : OpSize.o16.width = .w16 := rfl
@[simp] theorem OpSize.width_o32 : OpSize.o32.width = .w32 := rfl

/-- A value of w bits fills w/8 bytes. -/
theorem Width.two_pow_bits (w : Width) : 2 ^ w.bits = 256 ^ w.bytes := by cases w <;> rfl

theorem Width.bits_pos (w : Width) : 0 < w.bits := by cases w <;> simp

theorem Width.toNat_lt {w : Width} (v : BitVec w.bits) : v.toNat < 256 ^ w.bytes := by
  rw [← Width.two_pow_bits]
  exact v.isLt

end Sys2Proof
end

