-- ==== Sys2Proof/Laws/Decode.lean ====
section
/-! SUPPORT. What each part of the decoder reads from a byte list, as an equivalence with the encoder's bytes: the field,
the displacement, the addresses, ModR/M, the immediates, the prefixes and the form of an opcode; and what a prefix leaves
of an instruction. -/

namespace Sys2Proof

@[simp] theorem leBytes_length (n v : Nat) : (leBytes n v).length = n := by
  induction n generalizing v with
  | zero => rfl
  | succ n ih => simp [leBytes, ih]

/-- The value of the bytes of a value (20_memory.md R52). -/
theorem leValue_leBytes (n v : Nat) : leValue (leBytes n v) = v % 256 ^ n := by
  induction n generalizing v with
  | zero => simp [leBytes, leValue, Nat.mod_one]
  | succ n ih =>
    simp only [leBytes, leValue, ih, BitVec.toNat_ofNat]
    rw [show (2 : Nat) ^ 8 = 256 by rfl, Nat.pow_succ, Nat.mul_comm (256 ^ n) 256, Nat.mod_mul]

theorem leValue_lt (l : List Byte) : leValue l < 256 ^ l.length := by
  induction l with
  | nil => simp [leValue]
  | cons b l ih =>
    simp only [leValue, List.length_cons, Nat.pow_succ]
    have := b.isLt
    omega

/-- The bytes of the value of bytes. -/
theorem leBytes_leValue (l : List Byte) : leBytes l.length (leValue l) = l := by
  induction l with
  | nil => rfl
  | cons b l ih =>
    simp only [List.length_cons, leBytes, leValue]
    have hb := b.isLt
    congr 1
    · apply BitVec.eq_of_toNat_eq
      simp only [BitVec.toNat_ofNat]
      omega
    · rw [show (b.toNat + 256 * leValue l) / 256 = leValue l by omega, ih]

/-- A field of a byte list reads as a value exactly when the value's little-endian bytes stand there. -/
theorem listReader_iff {l : List Byte} {off : Nat} {w : Width} {v : BitVec w.bits} :
    listReader l off w = .ok v ↔ leBytes w.bytes v.toNat <+: l.drop off := by
  unfold listReader
  have hwb : w.bits = 8 * w.bytes := by cases w <;> rfl
  constructor
  · intro h
    split at h
    · next hl =>
      have hlen : ((l.drop off).take w.bytes).length = w.bytes := by simp; omega
      have hlt := leValue_lt ((l.drop off).take w.bytes)
      rw [hlen, ← Width.two_pow_bits] at hlt
      have : v.toNat = leValue ((l.drop off).take w.bytes) := by
        injection h with h
        rw [← h, BitVec.toNat_ofNat, Nat.mod_eq_of_lt hlt]
      have hb := leBytes_leValue ((l.drop off).take w.bytes)
      rw [hlen, ← this] at hb
      rw [hb]
      exact List.take_prefix _ _
    · cases h
  · intro h
    have hl := h.length_le
    rw [leBytes_length, List.length_drop] at hl
    have hpos : 0 < w.bytes := by cases w <;> decide
    rw [if_pos (by omega)]
    rw [List.prefix_iff_eq_take, leBytes_length] at h
    rw [← h, leValue_leBytes, ← Width.two_pow_bits, Nat.mod_eq_of_lt v.isLt, BitVec.ofNat_toNat]
    simp

theorem topField_fieldsByte (t : BitVec 2) (m l : BitVec 3) : topField (fieldsByte t m l) = t := by
  revert t m l; decide
theorem midField_fieldsByte (t : BitVec 2) (m l : BitVec 3) : midField (fieldsByte t m l) = m := by
  revert t m l; decide
theorem lowField_fieldsByte (t : BitVec 2) (m l : BitVec 3) : lowField (fieldsByte t m l) = l := by
  revert t m l; decide
theorem fieldsByte_fields (b : Byte) : fieldsByte (topField b) (midField b) (lowField b) = b := by
  revert b; decide
/-- A byte is its three fields (30_encoding.md R76, R77). -/
theorem fieldsByte_eq_iff {t : BitVec 2} {m l : BitVec 3} {b : Byte} :
    b = fieldsByte t m l ↔ topField b = t ∧ midField b = m ∧ lowField b = l := by
  constructor
  · rintro rfl; exact ⟨topField_fieldsByte .., midField_fieldsByte .., lowField_fieldsByte ..⟩
  · rintro ⟨rfl, rfl, rfl⟩; exact (fieldsByte_fields b).symm
theorem regNum_ofBits_iff {b : BitVec 3} {n : RegNum} : RegNum.ofBits b = n ↔ b = n.bits := by
  revert b; cases n <;> decide
theorem base16_ofBits_iff {b : BitVec 3} {n : Base16} : Base16.ofBits b = n ↔ b = n.bits := by
  revert b; cases n <;> decide
theorem scale_ofBits_iff {b : BitVec 2} {n : Scale} : Scale.ofBits b = n ↔ b = n.bits := by
  revert b; cases n <;> decide
theorem indexOfBits_iff {b : BitVec 3} {i : Option RegNum} :
    indexOfBits b = i ↔ b = indexBits i ∧ i ≠ some .r4 := by
  revert b; rcases i with _ | n
  · decide
  · cases n <;> decide

theorem leBytes_one (b : BitVec 8) : leBytes 1 b.toNat = [b] := by simp [leBytes]

theorem listReader_w8_iff {l : List Byte} {off : Nat} {b : Byte} :
    listReader l off .w8 = .ok b ↔ [b] <+: l.drop off := by
  rw [listReader_iff]; simp [leBytes]

theorem bind_ok_iff {α β ε : Type} {x : Except ε α} {f : α → Except ε β} {b : β} :
    (x >>= f) = .ok b ↔ ∃ a, x = .ok a ∧ f a = .ok b := by
  cases x <;> simp [bind, Except.bind]
theorem pure_ok_iff {α ε : Type} {a b : α} : (pure a : Except ε α) = .ok b ↔ a = b := by simp [pure, Except.pure]

theorem Disp.bytes_length {n : Nat} (h : n = 16 ∨ n = 32) (d : Disp n) : d.bytes.length = match d with | .d0 => 0 | .d8 _ => 1 | .full _ => n / 8 := by
  cases d <;> simp [Disp.bytes, leBytes_length]

/-- A displacement is read exactly when its bytes stand there and mod selects it (30_encoding.md R80, R81, R83). -/
theorem readDisp_iff {l : List Byte} {off : Nat} {mod : BitVec 2} {w : OpSize} {d : Disp w.width.bits} {n : Nat} (hm : mod ≠ 3) :
    readDisp (listReader l) off mod w = .ok (d, n) ↔
      d.mod = mod ∧ n = d.bytes.length ∧ d.bytes <+: l.drop off := by
  have hcases : mod = 0 ∨ mod = 1 ∨ mod = 2 := by revert mod; decide
  have hb : w.width.bits / 8 = w.width.bytes := by cases w <;> rfl
  rcases hcases with rfl | rfl | rfl
  · show (Except.ok (Disp.d0, 0) : Except Nat _) = .ok (d, n) ↔ _
    cases d <;> simp [Disp.mod, Disp.bytes] <;> exact eq_comm
  · show (listReader l off .w8 >>= fun d => pure (Disp.d8 d, 1)) = .ok (d, n) ↔ _
    rw [bind_ok_iff]
    cases d <;> simp [Disp.mod, Disp.bytes, pure_ok_iff]
    rw [listReader_w8_iff]
    constructor <;> rintro ⟨h1, h2⟩ <;> first | exact ⟨h2, h1.symm⟩ | exact ⟨h2.symm, h1⟩
  · show (listReader l off w.width >>= fun d => pure (Disp.full d, w.width.bytes)) = .ok (d, n) ↔ _
    rw [bind_ok_iff]
    cases d <;> simp [Disp.mod, Disp.bytes, pure_ok_iff, leBytes_length, hb]
    rw [listReader_iff]
    constructor <;> rintro ⟨h1, h2⟩ <;> first | exact ⟨h2, h1.symm⟩ | exact ⟨h2.symm, h1⟩

/-- A 16-bit address is read exactly when it is well-formed, has the fields mod and rm, and its bytes stand there. -/
theorem readAddr16_iff {l : List Byte} {off : Nat} {mod : BitVec 2} {rm : BitVec 3} {x : Addr16} {n : Nat} (hm : mod ≠ 3) :
    readAddr16 (listReader l) off mod rm = .ok (x, n) ↔
      x.wf = true ∧ (RM.mem (.a16 x)).mod = mod ∧ (RM.mem (.a16 x)).rm = rm ∧
      n = (RM.mem (.a16 x)).dispBytes.length ∧ (RM.mem (.a16 x)).dispBytes <+: l.drop off := by
  unfold readAddr16
  split
  · next h =>
    obtain ⟨rfl, rfl⟩ := h
    rw [bind_ok_iff]
    cases x with
    | disp d =>
      simp [pure_ok_iff, RM.mod, RM.rm, RM.dispBytes, leBytes_length, Addr16.wf]
      rw [listReader_iff]
      constructor <;> rintro ⟨h1, h2⟩ <;> first | exact ⟨h2, h1.symm⟩ | exact ⟨h2.symm, h1⟩
    | based b d =>
      simp only [pure_ok_iff, RM.mod, RM.rm]
      constructor
      · rintro ⟨_, _, h⟩; simp at h
      · rintro ⟨hw, h0, h6, _⟩
        cases b <;> simp [Base16.bits] at h6
        cases d <;> simp [Disp.mod, Addr16.wf] at h0 hw
  · next h =>
    rw [bind_ok_iff]
    cases x with
    | disp d =>
      simp only [pure_ok_iff, RM.mod, RM.rm]
      constructor
      · rintro ⟨⟨_, _⟩, _, h⟩; simp at h
      · rintro ⟨_, h0, h6, _⟩; exact absurd ⟨h6.symm, h0.symm⟩ h
    | based b d =>
      simp only [RM.mod, RM.rm, RM.dispBytes]
      constructor
      · rintro ⟨⟨d', n'⟩, h1, h2⟩
        simp only [pure_ok_iff, Prod.mk.injEq, Addr16.based.injEq] at h2
        obtain ⟨⟨hb, rfl⟩, rfl⟩ := h2
        rw [readDisp_iff hm] at h1
        rw [base16_ofBits_iff] at hb
        refine ⟨?_, h1.1, hb.symm, h1.2.1, h1.2.2⟩
        subst hb
        cases b <;> try rfl
        cases d' <;> try rfl
        exact absurd ⟨rfl, h1.1.symm⟩ h
      · rintro ⟨hw, h1, h2, h3, h4⟩
        exact ⟨(d, n), (readDisp_iff hm).mpr ⟨h1, h3, h4⟩, by rw [pure_ok_iff, base16_ofBits_iff.mpr h2.symm]⟩
theorem cons_prefix_drop {b : Byte} {bs l : List Byte} {off : Nat} :
    b :: bs <+: l.drop off ↔ [b] <+: l.drop off ∧ bs <+: l.drop (off + 1) := by
  rw [show l.drop (off + 1) = (l.drop off).tail by simp]
  cases l.drop off with
  | nil => simp
  | cons c t => simp [List.cons_prefix_cons]

theorem append_prefix_drop {l : List Byte} (a b : List Byte) (off : Nat) :
    a ++ b <+: l.drop off ↔ a <+: l.drop off ∧ b <+: l.drop (off + a.length) := by
  induction a generalizing off with
  | nil => simp
  | cons x a ih =>
    rw [List.cons_append, cons_prefix_drop, ih, cons_prefix_drop (bs := a)]
    simp only [List.length_cons, and_assoc]
    rw [show off + 1 + a.length = off + (a.length + 1) by omega]

theorem disp_mod_ne3 {n : Nat} (d : Disp n) : d.mod ≠ 3 := by cases d <;> simp [Disp.mod]

/-- A SIB address, likewise (30_encoding.md R82). -/
theorem readSib_iff {l : List Byte} {off : Nat} {mod : BitVec 2} {x : Addr32} {n : Nat} (hm : mod ≠ 3) :
    readSib (listReader l) off mod = .ok (x, n) ↔
      x.wf = true ∧ (RM.mem (.a32 x)).mod = mod ∧ (RM.mem (.a32 x)).rm = 4 ∧ (RM.mem (.a32 x)).sib.isSome ∧
      n = ((RM.mem (.a32 x)).sib.toList ++ (RM.mem (.a32 x)).dispBytes).length ∧
      (RM.mem (.a32 x)).sib.toList ++ (RM.mem (.a32 x)).dispBytes <+: l.drop off := by
  unfold readSib
  rw [bind_ok_iff]
  constructor
  · rintro ⟨s, h1, h2⟩
    rw [listReader_w8_iff] at h1
    split at h2
    · next h =>
      rw [bind_ok_iff] at h2
      obtain ⟨d, h3, h4⟩ := h2
      rw [listReader_iff] at h3
      simp only [pure_ok_iff, Prod.mk.injEq] at h4
      obtain ⟨rfl, rfl⟩ := h4
      obtain ⟨hi1, hi2⟩ := indexOfBits_iff.mp (rfl : indexOfBits (midField s) = indexOfBits (midField s))
      have hs : s = fieldsByte (Scale.ofBits (topField s)).bits (indexBits (indexOfBits (midField s))) 5 := by
        rw [fieldsByte_eq_iff]
        exact ⟨scale_ofBits_iff.mp rfl, hi1, h.1⟩
      refine ⟨by simp [Addr32.wf, hi2], h.2.symm, rfl, rfl, ?_, ?_⟩
      · simp [RM.sib, RM.dispBytes, leBytes_length]
      · simp only [RM.sib, RM.dispBytes, ← hs, Option.toList, List.cons_append, List.nil_append]
        exact cons_prefix_drop.mpr ⟨h1, h3⟩
    · next h =>
      rw [bind_ok_iff] at h2
      obtain ⟨⟨d, k⟩, h3, h4⟩ := h2
      rw [readDisp_iff hm] at h3
      simp only [pure_ok_iff, Prod.mk.injEq] at h4
      obtain ⟨rfl, rfl⟩ := h4
      obtain ⟨hi1, hi2⟩ := indexOfBits_iff.mp (rfl : indexOfBits (midField s) = indexOfBits (midField s))
      have hb := (regNum_ofBits_iff (b := lowField s)).mp rfl
      have hs : s = fieldsByte (Scale.ofBits (topField s)).bits (indexBits (indexOfBits (midField s))) (RegNum.ofBits (lowField s)).bits := by
        rw [fieldsByte_eq_iff]
        exact ⟨scale_ofBits_iff.mp rfl, hi1, hb⟩
      refine ⟨?_, h3.1, rfl, rfl, ?_, ?_⟩
      · have : ¬(RegNum.ofBits (lowField s) = .r5 ∧ d = .d0) := by
          rintro ⟨h5, rfl⟩
          rw [regNum_ofBits_iff] at h5
          exact h ⟨h5, h3.1.symm⟩
        simp only [Addr32.wf]
        simp [hi2]
        exact not_and_or.mp this
      · simp [RM.sib, RM.dispBytes, h3.2.1]; omega
      · simp only [RM.sib, RM.dispBytes, ← hs, Option.toList, List.cons_append, List.nil_append]
        exact cons_prefix_drop.mpr ⟨h1, h3.2.2⟩
  · rintro ⟨hw, hmod, -, hs, hn, hp⟩
    cases x with
    | disp d => simp [RM.sib] at hs
    | based b d => simp [RM.sib] at hs
    | sib sc i b d =>
      simp only [RM.sib, RM.dispBytes, Option.toList, List.cons_append, List.nil_append] at hp hn
      obtain ⟨hp1, hp2⟩ := cons_prefix_drop.mp hp
      refine ⟨_, listReader_w8_iff.mpr hp1, ?_⟩
      simp only [topField_fieldsByte, midField_fieldsByte, lowField_fieldsByte]
      simp only [RM.mod] at hmod
      simp [Addr32.wf] at hw
      rw [if_neg]
      · rw [bind_ok_iff]
        refine ⟨(d, d.bytes.length), (readDisp_iff hm).mpr ⟨hmod, rfl, hp2⟩, ?_⟩
        simp only [pure_ok_iff, regNum_ofBits_iff.mpr rfl, scale_ofBits_iff.mpr rfl, indexOfBits_iff.mpr ⟨rfl, hw.1⟩, Prod.mk.injEq, true_and, hn]
        simp; omega
      · rintro ⟨h5, h0⟩
        have hb5 : b = .r5 := by cases b <;> simp [RegNum.bits] at h5 <;> rfl
        have hd : d = .d0 := by cases d <;> simp [Disp.mod, h0] at hmod <;> rfl
        rcases hw.2 with h | h
        · exact h hb5
        · exact h hd
    | sibDisp sc i d =>
      simp only [RM.sib, RM.dispBytes, Option.toList, List.cons_append, List.nil_append] at hp hn
      obtain ⟨hp1, hp2⟩ := cons_prefix_drop.mp hp
      refine ⟨_, listReader_w8_iff.mpr hp1, ?_⟩
      simp only [topField_fieldsByte, midField_fieldsByte, lowField_fieldsByte]
      simp only [RM.mod] at hmod
      simp [Addr32.wf] at hw
      rw [if_pos ⟨by trivial, hmod.symm⟩, bind_ok_iff]
      refine ⟨d, listReader_iff.mpr hp2, ?_⟩
      simp only [pure_ok_iff, scale_ofBits_iff.mpr rfl, indexOfBits_iff.mpr ⟨rfl, hw⟩, Prod.mk.injEq, true_and, hn]
      simp [leBytes_length]

/-- A 32-bit address, likewise (30_encoding.md R81). -/
theorem readAddr32_iff {l : List Byte} {off : Nat} {mod : BitVec 2} {rm : BitVec 3} {x : Addr32} {n : Nat} (hm : mod ≠ 3) :
    readAddr32 (listReader l) off mod rm = .ok (x, n) ↔
      x.wf = true ∧ (RM.mem (.a32 x)).mod = mod ∧ (RM.mem (.a32 x)).rm = rm ∧
      n = ((RM.mem (.a32 x)).sib.toList ++ (RM.mem (.a32 x)).dispBytes).length ∧
      (RM.mem (.a32 x)).sib.toList ++ (RM.mem (.a32 x)).dispBytes <+: l.drop off := by
  unfold readAddr32
  split
  · next h4 =>
    subst h4
    rw [readSib_iff hm]
    constructor
    · rintro ⟨h1, h2, h3, h4, h5, h6⟩; exact ⟨h1, h2, h3, h5, h6⟩
    · rintro ⟨h1, h2, h3, h5, h6⟩
      refine ⟨h1, h2, h3, ?_, h5, h6⟩
      cases x with
      | disp d => simp [RM.rm] at h3
      | based b d =>
        have : b = .r4 := by cases b <;> simp [RM.rm, RegNum.bits] at h3 <;> rfl
        subst this; simp [Addr32.wf] at h1
      | sib _ _ _ _ => rfl
      | sibDisp _ _ _ => rfl
  · next h4 =>
    split
    · next h =>
      obtain ⟨rfl, rfl⟩ := h
      rw [bind_ok_iff]
      constructor
      · rintro ⟨d, h1, h2⟩
        simp only [pure_ok_iff, Prod.mk.injEq] at h2
        obtain ⟨rfl, rfl⟩ := h2
        rw [listReader_iff] at h1
        exact ⟨rfl, rfl, rfl, by simp [RM.sib, RM.dispBytes, leBytes_length], h1⟩
      · rintro ⟨h1, h2, h3, h5, h6⟩
        cases x with
        | disp d => exact ⟨d, listReader_iff.mpr h6, by simp [pure_ok_iff, h5, RM.sib, RM.dispBytes, leBytes_length]⟩
        | based b d =>
          have : b = .r5 := by cases b <;> simp [RM.rm, RegNum.bits] at h3 <;> rfl
          subst this
          cases d <;> simp [RM.mod, Disp.mod, Addr32.wf] at h1 h2
        | sib _ _ _ _ => simp [RM.rm] at h3
        | sibDisp _ _ _ => simp [RM.rm] at h3
    · next h =>
      rw [bind_ok_iff]
      constructor
      · rintro ⟨⟨d, k⟩, h1, h2⟩
        simp only [pure_ok_iff, Prod.mk.injEq] at h2
        obtain ⟨rfl, rfl⟩ := h2
        rw [readDisp_iff hm] at h1
        have hb := (regNum_ofBits_iff (b := rm)).mp rfl
        refine ⟨?_, h1.1, hb.symm, h1.2.1, h1.2.2⟩
        simp only [Addr32.wf]
        have h4' : RegNum.ofBits rm ≠ .r4 := fun e => h4 (regNum_ofBits_iff.mp e)
        have h5' : ¬(RegNum.ofBits rm = .r5 ∧ d = .d0) := by
          rintro ⟨e, rfl⟩; exact h ⟨regNum_ofBits_iff.mp e, h1.1.symm⟩
        simp [h4']
        exact not_and_or.mp h5'
      · rintro ⟨h1, h2, h3, h5, h6⟩
        cases x with
        | disp d => exact absurd ⟨h3.symm, h2.symm⟩ h
        | based b d => exact ⟨(d, n), (readDisp_iff hm).mpr ⟨h2, h5, h6⟩, by rw [pure_ok_iff, regNum_ofBits_iff.mpr h3.symm]⟩
        | sib _ _ _ _ => exact absurd h3.symm h4
        | sibDisp _ _ _ => exact absurd h3.symm h4

/-- The operands of a ModR/M form are read exactly when their encoding stands there. -/
theorem readModRM_iff {l : List Byte} {off : Nat} {asz : AdSize} {e : RM} {g : RegNum} {n : Nat} :
    readModRM (listReader l) off asz = .ok (e, g, n) ↔
      e.wf asz = true ∧ n = (e.encode g).length ∧ e.encode g <+: l.drop off := by
  unfold readModRM
  rw [bind_ok_iff]
  have hmod : ∀ x : Addr, (RM.mem x).mod ≠ 3 := by
    rintro (x | x) <;> cases x <;> first | exact disp_mod_ne3 _ | simp [RM.mod]
  constructor
  · rintro ⟨m, h1, h2⟩
    rw [listReader_w8_iff] at h1
    have hg : midField m = (RegNum.ofBits (midField m)).bits := regNum_ofBits_iff.mp rfl
    simp only at h2
    split at h2
    · next h3 =>
      simp only [pure_ok_iff, Prod.mk.injEq] at h2
      obtain ⟨rfl, rfl, rfl⟩ := h2
      have hs : fieldsByte 3 (RegNum.ofBits (midField m)).bits (RegNum.ofBits (lowField m)).bits = m :=
        (fieldsByte_eq_iff.mpr ⟨h3, hg, regNum_ofBits_iff.mp rfl⟩).symm
      refine ⟨rfl, rfl, ?_⟩
      simp only [RM.encode, RM.mod, RM.rm, RM.sib, RM.dispBytes, hs]
      simpa using h1
    · next h3 =>
      cases asz with
      | a16 =>
        rw [bind_ok_iff] at h2
        obtain ⟨⟨x, k⟩, h4, h5⟩ := h2
        simp only [pure_ok_iff, Prod.mk.injEq] at h5
        obtain ⟨rfl, rfl, rfl⟩ := h5
        rw [readAddr16_iff h3] at h4
        obtain ⟨a, b, c, d, e⟩ := h4
        have hs : fieldsByte (RM.mem (.a16 x)).mod (RegNum.ofBits (midField m)).bits (RM.mem (.a16 x)).rm = m :=
          (fieldsByte_eq_iff.mpr ⟨b.symm, hg, c.symm⟩).symm
        refine ⟨by simp [RM.wf, a], by simp [RM.encode, RM.sib, d]; omega, ?_⟩
        simp only [RM.encode, hs]
        exact cons_prefix_drop.mpr ⟨h1, e⟩
      | a32 =>
        rw [bind_ok_iff] at h2
        obtain ⟨⟨x, k⟩, h4, h5⟩ := h2
        simp only [pure_ok_iff, Prod.mk.injEq] at h5
        obtain ⟨rfl, rfl, rfl⟩ := h5
        rw [readAddr32_iff h3] at h4
        obtain ⟨a, b, c, d, e⟩ := h4
        have hs : fieldsByte (RM.mem (.a32 x)).mod (RegNum.ofBits (midField m)).bits (RM.mem (.a32 x)).rm = m :=
          (fieldsByte_eq_iff.mpr ⟨b.symm, hg, c.symm⟩).symm
        refine ⟨by simp [RM.wf, a], by simp [RM.encode, d]; omega, ?_⟩
        simp only [RM.encode, hs]
        exact cons_prefix_drop.mpr ⟨h1, e⟩
  · rintro ⟨hw, hn, hp⟩
    simp only [RM.encode] at hn hp
    obtain ⟨hp1, hp2⟩ := cons_prefix_drop.mp hp
    refine ⟨_, listReader_w8_iff.mpr hp1, ?_⟩
    simp only [topField_fieldsByte, midField_fieldsByte, lowField_fieldsByte, regNum_ofBits_iff.mpr rfl]
    rcases e with r | x
    · simp only [RM.mod, if_true, pure_ok_iff, RM.rm, regNum_ofBits_iff.mpr rfl, Prod.mk.injEq, true_and, hn]
      rfl
    · rw [if_neg (hmod x)]
      rcases x with x | x <;> cases asz <;> simp [RM.wf] at hw
      · simp only
        rw [bind_ok_iff]
        refine ⟨(x, (RM.mem (.a16 x)).dispBytes.length), (readAddr16_iff (hmod _)).mpr ⟨hw, rfl, rfl, rfl, hp2⟩, ?_⟩
        simp [pure_ok_iff, hn, RM.sib]; omega
      · simp only
        rw [bind_ok_iff]
        refine ⟨(x, _), (readAddr32_iff (hmod _)).mpr ⟨hw, rfl, rfl, rfl, hp2⟩, ?_⟩
        simp [pure_ok_iff, hn]; omega

/-- A byte is a prefix exactly when it is that prefix's byte (30_encoding.md R71). -/
theorem ofByte_iff {b : Byte} {p : Prefix} : Prefix.ofByte b = some p ↔ b = p.byte := by
  revert b; cases p <;> decide +kernel

/-- The bytes a finished prefix scan has read (41_fetch_dispatch.md R123). -/
theorem scan_sound {l : List Byte} {fuel off : Nat} {ps : List Prefix} {op : Byte}
    (h : scanPrefixes (listReader l) fuel off = .ok (ps, op)) :
    ps.map Prefix.byte ++ [op] <+: l.drop off ∧ Prefix.ofByte op = none := by
  induction fuel generalizing off ps with
  | zero => simp [scanPrefixes] at h
  | succ fuel ih =>
    simp only [scanPrefixes] at h
    split at h
    · cases h
    · next b hb =>
      rw [listReader_w8_iff] at hb
      split at h
      · next hn =>
        obtain ⟨rfl, rfl⟩ := by simpa using h
        exact ⟨by simpa using hb, hn⟩
      · next p hp =>
        split at h
        · cases h
        · next qs o hq =>
          simp only [Except.ok.injEq, Prod.mk.injEq] at h
          obtain ⟨rfl, rfl⟩ := h
          obtain ⟨h1, h2⟩ := ih hq
          rw [ofByte_iff] at hp
          subst hp
          exact ⟨by simpa using cons_prefix_drop.mpr ⟨hb, h1⟩, h2⟩

/-- Prefixes and a byte that is none are scanned, given enough fuel. -/
theorem scan_complete {l : List Byte} {fuel off : Nat} {ps : List Prefix} {op : Byte}
    (h : ps.map Prefix.byte ++ [op] <+: l.drop off) (hn : Prefix.ofByte op = none) (hf : ps.length < fuel) :
    scanPrefixes (listReader l) fuel off = .ok (ps, op) := by
  induction ps generalizing fuel off with
  | nil =>
    obtain ⟨f, rfl⟩ : ∃ f, fuel = f + 1 := ⟨fuel - 1, by simp at hf; omega⟩
    simp only [scanPrefixes, listReader_w8_iff.mpr (by simpa using h), hn]
  | cons p ps ih =>
    obtain ⟨f, rfl⟩ : ∃ f, fuel = f + 1 := ⟨fuel - 1, by simp at hf; omega⟩
    simp only [List.map_cons, List.cons_append] at h
    obtain ⟨h1, h2⟩ := cons_prefix_drop.mp h
    simp only [scanPrefixes, listReader_w8_iff.mpr h1, ofByte_iff.mpr rfl, ih h2 (by simpa using hf)]

theorem withPrefixes_cons (p : Prefix) (ps : List Prefix) (j : Instr) : j.withPrefixes (p :: ps) = p.before (j.withPrefixes ps) := rfl

@[simp] theorem before_prefixes (p : Prefix) (j : Instr) : (p.before j).prefixes = p :: j.prefixes := by cases p <;> rfl
@[simp] theorem before_body (p : Prefix) (j : Instr) : (p.before j).body = j.body := by cases p <;> rfl
@[simp] theorem before_opcode (p : Prefix) (j : Instr) : (p.before j).opcode = j.opcode := by cases p <;> rfl
@[simp] theorem before_rm (p : Prefix) (j : Instr) : (p.before j).rm? = j.rm? := by cases p <;> rfl
@[simp] theorem before_reg (p : Prefix) (j : Instr) : (p.before j).reg? = j.reg? := by cases p <;> rfl
@[simp] theorem before_opSize (p : Prefix) (j : Instr) : (p.before j).opSize? = j.opSize? := by cases p <;> rfl
@[simp] theorem before_imm (p : Prefix) (j : Instr) : (p.before j).immBytes = j.immBytes := by cases p <;> rfl

theorem tailBytes_before (p : Prefix) (j : Instr) : (p.before j).tailBytes = j.tailBytes := by simp [Instr.tailBytes]

theorem wfAt_before (p : Prefix) (j : Instr) (o : OpSize) (a : AdSize) : (p.before j).wfAt o a = j.wfAt o a := by simp [Instr.wfAt]

theorem withPrefixes_prefixes (ps : List Prefix) (j : Instr) : (j.withPrefixes ps).prefixes = ps ++ j.prefixes := by
  induction ps with
  | nil => rfl
  | cons p ps ih => simp [withPrefixes_cons, ih]
theorem withPrefixes_opcode (ps : List Prefix) (j : Instr) : (j.withPrefixes ps).opcode = j.opcode := by
  induction ps with
  | nil => rfl
  | cons p ps ih => simp [withPrefixes_cons, ih]
theorem withPrefixes_tail (ps : List Prefix) (j : Instr) : (j.withPrefixes ps).tailBytes = j.tailBytes := by
  induction ps with
  | nil => rfl
  | cons p ps ih => simp [withPrefixes_cons, tailBytes_before, ih]
theorem withPrefixes_wfAt (ps : List Prefix) (j : Instr) (o : OpSize) (a : AdSize) : (j.withPrefixes ps).wfAt o a = j.wfAt o a := by
  induction ps with
  | nil => rfl
  | cons p ps ih => simp [withPrefixes_cons, wfAt_before, ih]

/-- An instruction is its body behind its prefixes. -/
theorem withPrefixes_body (i : Instr) : i = i.body.withPrefixes i.prefixes ∧ i.body.prefixes = [] := by
  induction i with
  | es j ih => exact ⟨congrArg Instr.es ih.1, ih.2⟩
  | cs j ih => exact ⟨congrArg Instr.cs ih.1, ih.2⟩
  | ss j ih => exact ⟨congrArg Instr.ss ih.1, ih.2⟩
  | ds j ih => exact ⟨congrArg Instr.ds ih.1, ih.2⟩
  | fs j ih => exact ⟨congrArg Instr.fs ih.1, ih.2⟩
  | gs j ih => exact ⟨congrArg Instr.gs ih.1, ih.2⟩
  | o16 j ih => exact ⟨congrArg Instr.o16 ih.1, ih.2⟩
  | a16 j ih => exact ⟨congrArg Instr.a16 ih.1, ih.2⟩
  | _ => exact ⟨rfl, rfl⟩

/-- An Iz immediate is read exactly when its bytes stand there (30_encoding.md R85). -/
theorem readImmZ_iff {l : List Byte} {off : Nat} {w : OpSize} {z : ImmZ} {n : Nat} :
    readImmZ (listReader l) off w = .ok (z, n) ↔ z.size = w ∧ n = z.bytes.length ∧ z.bytes <+: l.drop off := by
  cases w
  · show (listReader l off .w16 >>= fun v => pure (ImmZ.i16 v, 2)) = .ok (z, n) ↔ _
    rw [bind_ok_iff]
    cases z <;> simp [ImmZ.size, ImmZ.bytes, pure_ok_iff, leBytes_length]
    rw [listReader_iff]
    constructor <;> rintro ⟨h1, h2⟩ <;> first | exact ⟨h2, h1.symm⟩ | exact ⟨h2.symm, h1⟩
  · show (listReader l off .w32 >>= fun v => pure (ImmZ.i32 v, 4)) = .ok (z, n) ↔ _
    rw [bind_ok_iff]
    cases z <;> simp [ImmZ.size, ImmZ.bytes, pure_ok_iff, leBytes_length]
    rw [listReader_iff]
    constructor <;> rintro ⟨h1, h2⟩ <;> first | exact ⟨h2, h1.symm⟩ | exact ⟨h2.symm, h1⟩

/-- What follows an opcode is read as an instruction exactly when that instruction has the opcode, no prefix, the widths in force, and its bytes stand there. -/
theorem form_iff {l : List Byte} {off : Nat} {osz : OpSize} {asz : AdSize} {op : Byte} {f : Form} {j : Instr} {n : Nat}
    (hf : formOf op = some f) :
    readForm (listReader l) off osz asz f = .ok (j, n) ↔
      j.prefixes = [] ∧ j.opcode = op ∧ j.wfAt osz asz = true ∧ n = j.tailBytes.length ∧ j.tailBytes <+: l.drop off := by
  have key : ∀ op f, formOf op = some f →
    (readForm (listReader l) off osz asz f = .ok (j, n) ↔
      j.prefixes = [] ∧ j.opcode = op ∧ j.wfAt osz asz = true ∧ n = j.tailBytes.length ∧ j.tailBytes <+: l.drop off) := by
    intro op f hf
    unfold formOf at hf
    split at hf
    all_goals try (simp at hf; done)
    all_goals
      rename_i hop
      have hop' : op = BitVec.ofNat 8 op.toNat := by simp
      rw [hop] at hop'
      subst hop'
      simp only [Option.some.injEq] at hf
      subst hf
    all_goals
      simp only [readForm, bind_ok_iff, pure_ok_iff, Prod.exists, readModRM_iff, readImmZ_iff, Prod.mk.injEq, Except.ok.injEq]
      constructor
    all_goals first
      | (rintro ⟨e, g, k, ⟨h1, h2, h3⟩, rfl, rfl⟩
         exact ⟨rfl, rfl, by simp [Instr.wfAt, Instr.opSize?, Instr.rm?, h1], h2, h3⟩)
      | (rintro ⟨z, k, ⟨h1, h2, h3⟩, rfl, rfl⟩
         exact ⟨rfl, rfl, by simp [Instr.wfAt, Instr.opSize?, Instr.rm?, h1], h2, h3⟩)
      | (rintro ⟨b, h1, rfl, rfl⟩
         exact ⟨rfl, rfl, rfl, rfl, listReader_w8_iff.mp h1⟩)
      | (rintro ⟨rfl, rfl⟩
         exact ⟨rfl, rfl, rfl, rfl, List.nil_prefix⟩)
      | (rintro ⟨h1, h2, h3, h4, h5⟩; revert h1 h2 h3 h4 h5)
    all_goals
      intro h1 h2 h3 h4 h5
      cases j <;> first | (exfalso; revert h2; simp only [Instr.opcode]; decide) | (exfalso; revert h1; simp only [Instr.prefixes]; simp; done) | skip
    all_goals try simp only [Instr.wfAt, Instr.opSize?, Instr.rm?, Bool.and_true, Bool.true_and, Bool.and_eq_true, beq_iff_eq] at h3
    all_goals first
      | (obtain ⟨rfl, h3⟩ := h3; exact ⟨_, _, _, ⟨h3, rfl, h5⟩, rfl, h4.symm⟩)
      | (exact ⟨_, _, _, ⟨h3, rfl, h5⟩, rfl, h4.symm⟩)
      | (exact ⟨_, _, ⟨h3, rfl, h5⟩, rfl, h4.symm⟩)
      | (exact ⟨_, listReader_w8_iff.mpr h5, rfl, h4.symm⟩)
      | (exact ⟨rfl, h4.symm⟩)
  exact key op f hf

/-- The opcode byte of an instruction is in the dispatch table and is no prefix (30_encoding.md R86, R71). -/
theorem opcode_mapped (j : Instr) : (formOf j.opcode).isSome = true ∧ Prefix.ofByte j.opcode = none := by
  induction j with
  | es j ih => exact ih
  | cs j ih => exact ih
  | ss j ih => exact ih
  | ds j ih => exact ih
  | fs j ih => exact ih
  | gs j ih => exact ih
  | o16 j ih => exact ih
  | a16 j ih => exact ih
  | _ => exact ⟨rfl, rfl⟩

/-- One result refines another: where the first is a value, the second is that value. -/
def Refines {ε α : Type} (x y : Except ε α) : Prop := ∀ a, x = .ok a → y = .ok a

theorem Refines.refl {ε α : Type} (x : Except ε α) : Refines x x := fun _ h => h

theorem Refines.bind {ε α β : Type} {x y : Except ε α} {f g : α → Except ε β} (h : Refines x y)
    (hf : ∀ a, Refines (f a) (g a)) : Refines (x >>= f) (y >>= g) := by
  intro b hb
  rw [bind_ok_iff] at hb ⊢
  obtain ⟨a, h1, h2⟩ := hb
  exact ⟨a, h a h1, hf a b h2⟩

theorem readDisp_refines {r1 r2 : Reader} (h : ∀ off w, Refines (r1 off w) (r2 off w)) (off : Nat) (m : BitVec 2)
    (w : OpSize) : Refines (readDisp r1 off m w) (readDisp r2 off m w) := by
  unfold readDisp
  split
  · exact .refl _
  · exact (h _ _).bind fun _ => .refl _
  · exact (h _ _).bind fun _ => .refl _

theorem readModRM_refines {r1 r2 : Reader} (h : ∀ off w, Refines (r1 off w) (r2 off w)) (off : Nat) (asz : AdSize) :
    Refines (readModRM r1 off asz) (readModRM r2 off asz) := by
  unfold readModRM
  refine (h _ _).bind fun m => ?_
  simp only
  split
  · exact .refl _
  · cases asz
    · simp only [readAddr16]
      split
      · exact ((h _ _).bind fun _ => .refl _).bind fun _ => .refl _
      · exact ((readDisp_refines h _ _ _).bind fun _ => .refl _).bind fun _ => .refl _
    · simp only [readAddr32]
      split
      · refine Refines.bind ?_ fun _ => .refl _
        unfold readSib
        refine (h _ _).bind fun s => ?_
        simp only
        split
        · exact (h _ _).bind fun _ => .refl _
        · exact (readDisp_refines h _ _ _).bind fun _ => .refl _
      · split
        · exact ((h _ _).bind fun _ => .refl _).bind fun _ => .refl _
        · exact ((readDisp_refines h _ _ _).bind fun _ => .refl _).bind fun _ => .refl _

theorem readForm_refines {r1 r2 : Reader} (h : ∀ off w, Refines (r1 off w) (r2 off w)) (off : Nat) (o : OpSize)
    (a : AdSize) (f : Form) : Refines (readForm r1 off o a f) (readForm r2 off o a f) := by
  cases f with
  | modrmB mk => exact (readModRM_refines h _ _).bind fun _ => .refl _
  | modrmV mk => exact (readModRM_refines h _ _).bind fun _ => .refl _
  | immB mk => exact (h _ _).bind fun _ => .refl _
  | immZ mk => cases o <;> exact ((h _ _).bind fun _ => .refl _).bind fun _ => .refl _
  | single i => exact .refl _

theorem scanPrefixes_refines {r1 r2 : Reader} (h : ∀ off w, Refines (r1 off w) (r2 off w)) {f1 f2 : Nat} (hf : f1 ≤ f2)
    (off : Nat) : Refines (scanPrefixes r1 f1 off) (scanPrefixes r2 f2 off) := by
  induction f1 generalizing f2 off with
  | zero => intro a ha; simp [scanPrefixes] at ha
  | succ f1 ih =>
    obtain ⟨f2, rfl⟩ : ∃ k, f2 = k + 1 := ⟨f2 - 1, by omega⟩
    intro x hx
    simp only [scanPrefixes] at hx ⊢
    split at hx
    · cases hx
    · next b hb =>
      rw [h _ _ _ hb]
      split at hx
      · next hn => simp only [hn]; exact hx
      · next p hp =>
        simp only [hp]
        split at hx
        · cases hx
        · next qs o hq =>
          rw [ih (by omega) _ _ hq]
          exact hx

/-- What is decoded from a reader is decoded from every reader that answers at least as much, with at least as much
fuel. -/
theorem decodeWith_refines {r1 r2 : Reader} (h : ∀ off w, Refines (r1 off w) (r2 off w)) {f1 f2 : Nat} (hf : f1 ≤ f2) :
    Refines (decodeWith r1 f1) (decodeWith r2 f2) := by
  intro x hx
  simp only [decodeWith] at hx ⊢
  split at hx
  · cases hx
  · next ps op hs =>
    rw [scanPrefixes_refines h hf 0 _ hs]
    simp only
    split at hx
    · cases hx
    · next f hff =>
      split at hx
      · cases hx
      · next j n hj =>
        rw [readForm_refines h _ _ _ f _ hj]
        exact hx

/-- Every error of a result is one the reader answers. -/
structure ErrorsFrom {α : Type} (rd : Reader) (x : Except Nat α) : Prop where
  from_reader : ∀ a, x = .error a → ∃ off w, rd off w = .error a

theorem ErrorsFrom.ok {α : Type} (rd : Reader) (v : α) : ErrorsFrom rd (.ok v) :=
  ⟨fun _ h => by cases h⟩

theorem ErrorsFrom.pure {α : Type} (rd : Reader) (v : α) : ErrorsFrom rd (Pure.pure v) :=
  ⟨fun _ h => by cases h⟩

theorem ErrorsFrom.read (rd : Reader) (off : Nat) (w : Width) : ErrorsFrom rd (rd off w) :=
  ⟨fun _ h => ⟨off, w, h⟩⟩

theorem ErrorsFrom.bind {α β : Type} {rd : Reader} {x : Except Nat α} {f : α → Except Nat β} (h : ErrorsFrom rd x)
    (hf : ∀ a, ErrorsFrom rd (f a)) : ErrorsFrom rd (x >>= f) := by
  refine ⟨fun a ha => ?_⟩
  cases x with
  | error e => exact h.from_reader a (by injection ha with ha; rw [ha])
  | ok v => exact (hf v).from_reader a ha

theorem readDisp_errors (rd : Reader) (off : Nat) (m : BitVec 2) (w : OpSize) : ErrorsFrom rd (readDisp rd off m w) := by
  unfold readDisp
  split
  · exact .ok ..
  · exact (ErrorsFrom.read ..).bind fun _ => .pure ..
  · exact (ErrorsFrom.read ..).bind fun _ => .pure ..

theorem readModRM_errors (rd : Reader) (off : Nat) (asz : AdSize) : ErrorsFrom rd (readModRM rd off asz) := by
  unfold readModRM
  refine (ErrorsFrom.read ..).bind fun m => ?_
  simp only
  split
  · exact .pure ..
  · cases asz
    · refine ErrorsFrom.bind ?_ fun _ => .pure ..
      unfold readAddr16
      split
      · exact (ErrorsFrom.read ..).bind fun _ => .pure ..
      · exact (readDisp_errors ..).bind fun _ => .pure ..
    · refine ErrorsFrom.bind ?_ fun _ => .pure ..
      unfold readAddr32
      split
      · unfold readSib
        refine (ErrorsFrom.read ..).bind fun s => ?_
        simp only
        split
        · exact (ErrorsFrom.read ..).bind fun _ => .pure ..
        · exact (readDisp_errors ..).bind fun _ => .pure ..
      · split
        · exact (ErrorsFrom.read ..).bind fun _ => .pure ..
        · exact (readDisp_errors ..).bind fun _ => .pure ..

theorem readForm_errors (rd : Reader) (off : Nat) (o : OpSize) (a : AdSize) (f : Form) :
    ErrorsFrom rd (readForm rd off o a f) := by
  cases f with
  | modrmB mk => exact (readModRM_errors ..).bind fun _ => .pure ..
  | modrmV mk => exact (readModRM_errors ..).bind fun _ => .pure ..
  | immB mk => exact (ErrorsFrom.read ..).bind fun _ => .pure ..
  | immZ mk => cases o <;> exact ((ErrorsFrom.read ..).bind fun _ => .pure ..).bind fun _ => .pure ..
  | single i => exact .ok ..

theorem scanPrefixes_outOfRange {rd : Reader} {fuel off a : Nat} (h : scanPrefixes rd fuel off = .error (.outOfRange a)) :
    ∃ off w, rd off w = .error a := by
  induction fuel generalizing off with
  | zero => simp [scanPrefixes] at h
  | succ fuel ih =>
    simp only [scanPrefixes] at h
    split at h
    · next e he => cases h; exact ⟨off, .w8, he⟩
    · split at h
      · cases h
      · split at h
        · next e he =>
          injection h with h
          subst h
          exact ih he
        · cases h

/-- An address that decoding reports is one the reader could not read (41_fetch_dispatch.md R131). -/
theorem decodeWith_outOfRange {rd : Reader} {fuel a : Nat} (h : decodeWith rd fuel = .error (.outOfRange a)) :
    ∃ off w, rd off w = .error a := by
  simp only [decodeWith] at h
  split at h
  · next e he =>
    injection h with h
    subst h
    exact scanPrefixes_outOfRange he
  · split at h
    · cases h
    · next f hf =>
      split at h
      · next e he =>
        cases h
        exact (readForm_errors _ _ _ _ f).from_reader _ he
      · cases h

end Sys2Proof
end

