-- ==== Sys2Proof/Laws/PerInstr.lean ====
section
/-! SUPPORT. Statements about every instruction, one lemma per constructor of Instr. The family Length: the encoder
writes as many bytes as `Instr.length` says (30_encoding.md R88). -/

namespace Sys2Proof

theorem RM.encode_length (e : RM) (g : RegNum) : (e.encode g).length = e.length := by
  rcases e with n | ((d | ⟨b, d⟩) | (d | ⟨b, d⟩ | ⟨sc, i, b, d⟩ | ⟨sc, i, d⟩))
  case mem.a16.based => cases d <;> simp [RM.encode, RM.length, RM.extraLength, RM.sib, RM.dispBytes, Disp.bytes]
  case mem.a32.based => cases d <;> simp [RM.encode, RM.length, RM.extraLength, RM.sib, RM.dispBytes, Disp.bytes]
  case mem.a32.sib => cases d <;> simp [RM.encode, RM.length, RM.extraLength, RM.sib, RM.dispBytes, Disp.bytes]
  all_goals simp [RM.encode, RM.length, RM.extraLength, RM.sib, RM.dispBytes]

/-- The ModR/M forms have both operands, the others neither. -/
theorem Instr.reg?_isSome (i : Instr) : i.reg?.isSome = i.rm?.isSome := by
  induction i <;> first | rfl | assumption

theorem Instr.tailBytes_length (i : Instr) :
    i.tailBytes.length = match i.rm? with | some e => e.length | none => i.immBytes.length := by
  have h := i.reg?_isSome
  unfold Instr.tailBytes
  cases hr : i.rm? with
  | none => simp
  | some e =>
    cases hg : i.reg? with
    | none => simp [hr, hg] at h
    | some g => exact RM.encode_length e g

theorem encode_length (i : Instr) : (encode i).length = i.length := by
  simp only [encode, Instr.length, List.length_append, List.length_map, List.length_cons, Instr.tailBytes_length]
  cases i.rm? <;> simp only [] <;> omega

namespace Laws.Length

/-- The encoder writes as many bytes as the length formula says. -/
def Statement (i : Instr) : Prop := (encode i).length = i.length

theorem addEbGb (e : RM) (g : RegNum) : Statement (.addEbGb e g) := encode_length _
theorem addEvGv (w : OpSize) (e : RM) (g : RegNum) : Statement (.addEvGv w e g) := encode_length _
theorem addGbEb (g : RegNum) (e : RM) : Statement (.addGbEb g e) := encode_length _
theorem addGvEv (w : OpSize) (g : RegNum) (e : RM) : Statement (.addGvEv w g e) := encode_length _
theorem addALIb (imm : BitVec 8) : Statement (.addALIb imm) := encode_length _
theorem addEAXIz (imm : ImmZ) : Statement (.addEAXIz imm) := encode_length _
theorem orEbGb (e : RM) (g : RegNum) : Statement (.orEbGb e g) := encode_length _
theorem orEvGv (w : OpSize) (e : RM) (g : RegNum) : Statement (.orEvGv w e g) := encode_length _
theorem orGbEb (g : RegNum) (e : RM) : Statement (.orGbEb g e) := encode_length _
theorem orGvEv (w : OpSize) (g : RegNum) (e : RM) : Statement (.orGvEv w g e) := encode_length _
theorem orALIb (imm : BitVec 8) : Statement (.orALIb imm) := encode_length _
theorem orEAXIz (imm : ImmZ) : Statement (.orEAXIz imm) := encode_length _
theorem adcEbGb (e : RM) (g : RegNum) : Statement (.adcEbGb e g) := encode_length _
theorem adcEvGv (w : OpSize) (e : RM) (g : RegNum) : Statement (.adcEvGv w e g) := encode_length _
theorem adcGbEb (g : RegNum) (e : RM) : Statement (.adcGbEb g e) := encode_length _
theorem adcGvEv (w : OpSize) (g : RegNum) (e : RM) : Statement (.adcGvEv w g e) := encode_length _
theorem adcALIb (imm : BitVec 8) : Statement (.adcALIb imm) := encode_length _
theorem adcEAXIz (imm : ImmZ) : Statement (.adcEAXIz imm) := encode_length _
theorem pushES : Statement (.pushES) := encode_length _
theorem popES : Statement (.popES) := encode_length _
theorem pushCS : Statement (.pushCS) := encode_length _
theorem pushSS : Statement (.pushSS) := encode_length _
theorem popSS : Statement (.popSS) := encode_length _
theorem hlt : Statement (.hlt) := encode_length _
theorem es (j : Instr) : Statement (.es j) := encode_length _
theorem cs (j : Instr) : Statement (.cs j) := encode_length _
theorem ss (j : Instr) : Statement (.ss j) := encode_length _
theorem ds (j : Instr) : Statement (.ds j) := encode_length _
theorem fs (j : Instr) : Statement (.fs j) := encode_length _
theorem gs (j : Instr) : Statement (.gs j) := encode_length _
theorem o16 (j : Instr) : Statement (.o16 j) := encode_length _
theorem a16 (j : Instr) : Statement (.a16 j) := encode_length _

end Laws.Length

end Sys2Proof
end

