-- ==== Sys2Proof/Laws/Memory.lean ====
section
/-! SUPPORT. The laws of memory: a write keeps the canonical form and is read back, other bytes stay, and equal reads
mean equal memories. -/

namespace Sys2Proof.Machine

@[simp] theorem Memory.read_nil (a : Nat) : Memory.read [] a = Memory.unlisted := rfl

/-- An address below every listed one is unlisted. -/
theorem Memory.read_of_lt {m : Memory} {a : Nat} (h : ∀ c ∈ m, a < c.1) : m.read a = Memory.unlisted := by
  induction m with
  | nil => rfl
  | cons c m ih =>
    obtain ⟨k, b⟩ := c
    have hk : a < k := h (k, b) (by simp)
    simp only [Memory.read]
    rw [if_neg (by omega)]
    exact ih fun c hc => h c (by simp [hc])

theorem Memory.wf_tail {c : Host.Cell} {m : Memory} (h : Memory.wf (c :: m)) : Memory.wf m :=
  ⟨(List.pairwise_cons.mp h.1).2, fun d hd => h.2 d (by simp [hd])⟩

theorem Memory.wf_head_lt {c : Host.Cell} {m : Memory} (h : Memory.wf (c :: m)) : ∀ d ∈ m, c.1 < d.1 :=
  (List.pairwise_cons.mp h.1).1

/-- A write lists no address but the written one and those listed before. -/
theorem Memory.mem_write {m : Memory} {a : Nat} {b : Byte} {c : Host.Cell} (h : c ∈ m.write a b) :
    c ∈ m ∨ (c = (a, b) ∧ b ≠ Memory.unlisted) := by
  induction m with
  | nil =>
    simp only [Memory.write] at h
    split at h
    · simp at h
    · next hb => exact .inr ⟨by simpa using h, hb⟩
  | cons d m ih =>
    obtain ⟨k, v⟩ := d
    simp only [Memory.write] at h
    split at h
    · split at h
      · exact .inl h
      · next hb =>
        rcases List.mem_cons.mp h with h | h
        · exact .inr ⟨h, hb⟩
        · exact .inl h
    · split at h
      · split at h
        · exact .inl (List.mem_cons_of_mem _ h)
        · next hb =>
          rcases List.mem_cons.mp h with h | h
          · exact .inr ⟨h, hb⟩
          · exact .inl (List.mem_cons_of_mem _ h)
      · rcases List.mem_cons.mp h with h | h
        · exact .inl (by simp [h])
        · rcases ih h with h | h
          · exact .inl (List.mem_cons_of_mem _ h)
          · exact .inr h

/-- A write keeps the canonical form. -/
theorem Memory.wf_write {m : Memory} (h : m.wf) (a : Nat) (b : Byte) : (m.write a b).wf := by
  induction m with
  | nil =>
    simp only [Memory.write]
    split
    · exact h
    · next hb => exact ⟨by simp, by simpa using hb⟩
  | cons d m ih =>
    obtain ⟨k, v⟩ := d
    have ht := Memory.wf_tail h
    have hlt := Memory.wf_head_lt h
    simp only [Memory.write]
    split
    · next hak =>
      split
      · exact h
      · next hb =>
        refine ⟨List.pairwise_cons.mpr ⟨fun c hc => ?_, h.1⟩, fun c hc => ?_⟩
        · rcases List.mem_cons.mp hc with rfl | hc
          · exact hak
          · exact Nat.lt_trans hak (hlt c hc)
        · rcases List.mem_cons.mp hc with rfl | hc
          · exact hb
          · exact h.2 c hc
    · split
      · next hne heq =>
        subst heq
        split
        · exact ht
        · next hb =>
          refine ⟨List.pairwise_cons.mpr ⟨hlt, ht.1⟩, fun c hc => ?_⟩
          rcases List.mem_cons.mp hc with rfl | hc
          · exact hb
          · exact ht.2 c hc
      · next hnlt hne =>
        refine ⟨List.pairwise_cons.mpr ⟨fun c hc => ?_, (ih ht).1⟩, fun c hc => ?_⟩
        · rcases Memory.mem_write hc with hc | ⟨rfl, _⟩
          · exact hlt c hc
          · show k < a
            omega
        · rcases List.mem_cons.mp hc with rfl | hc
          · exact h.2 _ (by simp)
          · exact (ih ht).2 c hc

/-- A read after a write: the written byte at its address, the old byte elsewhere. -/
theorem Memory.read_write {m : Memory} (h : m.wf) (a x : Nat) (b : Byte) :
    (m.write a b).read x = if x = a then b else m.read x := by
  induction m with
  | nil =>
    simp only [Memory.write]
    split
    · next hb => subst hb; simp
    · simp only [Memory.read]
      split
      · next e => simp [e]
      · next e => rw [if_neg (fun e' => e e'.symm)]
  | cons d m ih =>
    obtain ⟨k, v⟩ := d
    have hlt := Memory.wf_head_lt h
    simp only [Memory.write]
    split
    · next hak =>
      have hun : x = a → Memory.read ((k, v) :: m) x = Memory.unlisted := fun e =>
        Memory.read_of_lt fun c hc => by
          rcases List.mem_cons.mp hc with rfl | hc
          · simpa [e] using hak
          · have := hlt c hc
            simp only at this
            omega
      split
      · next hb =>
        split
        · next e => rw [hun e, hb]
        · rfl
      · by_cases e : a = x
        · simp [Memory.read, e]
        · have e' : ¬x = a := fun e' => e e'.symm
          simp [Memory.read, e, e']
    · split
      · next hne heq =>
        subst heq
        split
        · next hb =>
          by_cases e : x = a
          · rw [if_pos e, e, hb]
            exact Memory.read_of_lt fun c hc => hlt c hc
          · simp only [Memory.read]
            rw [if_neg e, if_neg (fun e' => e e'.symm)]
        · by_cases e : a = x
          · simp [Memory.read, e]
          · have e' : ¬x = a := fun e' => e e'.symm
            simp [Memory.read, e, e']
      · next hnlt hne =>
        simp only [Memory.read]
        by_cases e : k = x
        · subst e
          rw [if_pos rfl, if_neg (fun e' => hne e'.symm), if_pos rfl]
        · rw [if_neg e, ih (Memory.wf_tail h), if_neg e]

/-- A store keeps the canonical form. -/
theorem Memory.wf_store {m : Memory} (h : m.wf) (a n v : Nat) : (m.store a n v).wf := by
  induction n generalizing m a v with
  | zero => exact h
  | succ n ih => exact ih (Memory.wf_write h a _) (a + 1) (v / 256)

/-- A store lists only addresses it stores to and those listed before. -/
theorem Memory.mem_store {m : Memory} {a n v : Nat} {c : Host.Cell} (h : c ∈ m.store a n v) :
    c ∈ m ∨ (a ≤ c.1 ∧ c.1 < a + n) := by
  induction n generalizing m a v with
  | zero => exact .inl h
  | succ n ih =>
    rcases ih h with h | ⟨h1, h2⟩
    · rcases Memory.mem_write h with h | ⟨rfl, _⟩
      · exact .inl h
      · exact .inr ⟨Nat.le_refl _, by show a < _; omega⟩
    · exact .inr ⟨by omega, by omega⟩

/-- A byte outside the stored ones stays. -/
theorem Memory.read_store_outside {m : Memory} (h : m.wf) {a n v x : Nat} (hx : x < a ∨ a + n ≤ x) :
    (m.store a n v).read x = m.read x := by
  induction n generalizing m a v with
  | zero => rfl
  | succ n ih =>
    simp only [Memory.store]
    rw [ih (Memory.wf_write h a _) (by omega), Memory.read_write h, if_neg (by omega)]

/-- Byte i of a store is byte i of the value (20_memory.md R52). -/
theorem Memory.read_store_inside {m : Memory} (h : m.wf) {a n v i : Nat} (hi : i < n) :
    (m.store a n v).read (a + i) = BitVec.ofNat 8 (v / 256 ^ i) := by
  induction n generalizing m a v i with
  | zero => omega
  | succ n ih =>
    simp only [Memory.store]
    cases i with
    | zero =>
      rw [Memory.read_store_outside (Memory.wf_write h a _) (by omega), Memory.read_write h]
      simp
    | succ i =>
      have := ih (m := m.write a (BitVec.ofNat 8 v)) (Memory.wf_write h a _) (a := a + 1) (v := v / 256) (i := i) (by omega)
      rw [show a + (i + 1) = a + 1 + i by omega, this, Nat.div_div_eq_div_mul, Nat.pow_succ, Nat.mul_comm (256 ^ i)]

/-- A load reads back the stored value (20_memory.md R52). -/
theorem Memory.load_store {m : Memory} (h : m.wf) (a n v : Nat) :
    (m.store a n v).load a n = v % 256 ^ n := by
  induction n generalizing m a v with
  | zero => simp [Memory.load, Nat.mod_one]
  | succ n ih =>
    simp only [Memory.store, Memory.load]
    rw [ih (Memory.wf_write h a _), Memory.read_store_outside (Memory.wf_write h a _) (by omega), Memory.read_write h]
    simp only [if_true, BitVec.toNat_ofNat]
    rw [show (2 : Nat) ^ 8 = 256 by rfl, Nat.pow_succ, Nat.mul_comm (256 ^ n) 256, Nat.mod_mul]

/-- A load depends only on the bytes it reads. -/
theorem Memory.load_congr {m m' : Memory} {a n : Nat} (h : ∀ x, a ≤ x → x < a + n → m.read x = m'.read x) :
    m.load a n = m'.load a n := by
  induction n generalizing a with
  | zero => rfl
  | succ n ih =>
    simp only [Memory.load]
    rw [h a (Nat.le_refl _) (by omega), ih fun x h1 h2 => h x (by omega) (by omega)]

theorem Memory.load_lt (m : Memory) (a n : Nat) : m.load a n < 256 ^ n := by
  induction n generalizing a with
  | zero => simp [Memory.load]
  | succ n ih =>
    simp only [Memory.load]
    have h1 := ih (a + 1)
    have h2 := (m.read a).isLt
    rw [Nat.pow_succ]
    omega

/-- Bytes stored from a list keep the canonical form. -/
theorem Memory.wf_writeBytes {m : Memory} (h : m.wf) (a : Nat) (l : List Byte) : (m.writeBytes a l).wf := by
  induction l generalizing m a with
  | nil => exact h
  | cons b l ih => exact ih (Memory.wf_write h a b) (a + 1)

theorem Memory.mem_writeBytes {m : Memory} {a : Nat} {l : List Byte} {c : Host.Cell} (h : c ∈ m.writeBytes a l) :
    c ∈ m ∨ (a ≤ c.1 ∧ c.1 < a + l.length) := by
  induction l generalizing m a with
  | nil => exact .inl h
  | cons b l ih =>
    simp only [List.length_cons]
    rcases ih h with h | ⟨h1, h2⟩
    · rcases Memory.mem_write h with h | ⟨rfl, _⟩
      · exact .inl h
      · exact .inr ⟨Nat.le_refl _, by show a < _; omega⟩
    · exact .inr ⟨by omega, by omega⟩

/-- The reset memory lists nothing. -/
theorem Memory.wf_reset : State.reset.mem.wf := by decide

end Sys2Proof.Machine
end

