-- ==== Sys2Proof/Laws/State.lean ====
section
/-! SUPPORT. What each update of the state leaves in each field and in each accessor, so that no later proof unfolds
a record update. -/

namespace Sys2Proof.Machine

/-! ### Field by field -/

@[simp] theorem State.consume_eip (s : State) (n : Nat) : (s.consume n).eip = s.eip + BitVec.ofNat 32 n := rfl
@[simp] theorem State.consume_eax (s : State) (n : Nat) : (s.consume n).eax = s.eax := rfl
@[simp] theorem State.consume_ecx (s : State) (n : Nat) : (s.consume n).ecx = s.ecx := rfl
@[simp] theorem State.consume_edx (s : State) (n : Nat) : (s.consume n).edx = s.edx := rfl
@[simp] theorem State.consume_ebx (s : State) (n : Nat) : (s.consume n).ebx = s.ebx := rfl
@[simp] theorem State.consume_esp (s : State) (n : Nat) : (s.consume n).esp = s.esp := rfl
@[simp] theorem State.consume_ebp (s : State) (n : Nat) : (s.consume n).ebp = s.ebp := rfl
@[simp] theorem State.consume_esi (s : State) (n : Nat) : (s.consume n).esi = s.esi := rfl
@[simp] theorem State.consume_edi (s : State) (n : Nat) : (s.consume n).edi = s.edi := rfl
@[simp] theorem State.consume_cs (s : State) (n : Nat) : (s.consume n).cs = s.cs := rfl
@[simp] theorem State.consume_ds (s : State) (n : Nat) : (s.consume n).ds = s.ds := rfl
@[simp] theorem State.consume_es (s : State) (n : Nat) : (s.consume n).es = s.es := rfl
@[simp] theorem State.consume_fs (s : State) (n : Nat) : (s.consume n).fs = s.fs := rfl
@[simp] theorem State.consume_gs (s : State) (n : Nat) : (s.consume n).gs = s.gs := rfl
@[simp] theorem State.consume_ss (s : State) (n : Nat) : (s.consume n).ss = s.ss := rfl
@[simp] theorem State.consume_eflags (s : State) (n : Nat) : (s.consume n).eflags = s.eflags := rfl
@[simp] theorem State.consume_halted (s : State) (n : Nat) : (s.consume n).halted = s.halted := rfl
@[simp] theorem State.consume_faultStatus (s : State) (n : Nat) : (s.consume n).faultStatus = s.faultStatus := rfl
@[simp] theorem State.consume_mem (s : State) (n : Nat) : (s.consume n).mem = s.mem := rfl
@[simp] theorem State.consume_diag (s : State) (n : Nat) : (s.consume n).diag = s.diag := rfl
@[simp] theorem State.consume_cfg (s : State) (n : Nat) : (s.consume n).cfg = s.cfg := rfl

@[simp] theorem takeFault_faultStatus (s : State) (a : Nat) : (takeFault s a).faultStatus = .addressOutOfRange a := rfl
@[simp] theorem takeFault_eax (s : State) (a : Nat) : (takeFault s a).eax = s.eax := rfl
@[simp] theorem takeFault_ecx (s : State) (a : Nat) : (takeFault s a).ecx = s.ecx := rfl
@[simp] theorem takeFault_edx (s : State) (a : Nat) : (takeFault s a).edx = s.edx := rfl
@[simp] theorem takeFault_ebx (s : State) (a : Nat) : (takeFault s a).ebx = s.ebx := rfl
@[simp] theorem takeFault_esp (s : State) (a : Nat) : (takeFault s a).esp = s.esp := rfl
@[simp] theorem takeFault_ebp (s : State) (a : Nat) : (takeFault s a).ebp = s.ebp := rfl
@[simp] theorem takeFault_esi (s : State) (a : Nat) : (takeFault s a).esi = s.esi := rfl
@[simp] theorem takeFault_edi (s : State) (a : Nat) : (takeFault s a).edi = s.edi := rfl
@[simp] theorem takeFault_eip (s : State) (a : Nat) : (takeFault s a).eip = s.eip := rfl
@[simp] theorem takeFault_cs (s : State) (a : Nat) : (takeFault s a).cs = s.cs := rfl
@[simp] theorem takeFault_ds (s : State) (a : Nat) : (takeFault s a).ds = s.ds := rfl
@[simp] theorem takeFault_es (s : State) (a : Nat) : (takeFault s a).es = s.es := rfl
@[simp] theorem takeFault_fs (s : State) (a : Nat) : (takeFault s a).fs = s.fs := rfl
@[simp] theorem takeFault_gs (s : State) (a : Nat) : (takeFault s a).gs = s.gs := rfl
@[simp] theorem takeFault_ss (s : State) (a : Nat) : (takeFault s a).ss = s.ss := rfl
@[simp] theorem takeFault_eflags (s : State) (a : Nat) : (takeFault s a).eflags = s.eflags := rfl
@[simp] theorem takeFault_halted (s : State) (a : Nat) : (takeFault s a).halted = s.halted := rfl
@[simp] theorem takeFault_mem (s : State) (a : Nat) : (takeFault s a).mem = s.mem := rfl
@[simp] theorem takeFault_diag (s : State) (a : Nat) : (takeFault s a).diag = s.diag := rfl
@[simp] theorem takeFault_cfg (s : State) (a : Nat) : (takeFault s a).cfg = s.cfg := rfl

@[simp] theorem State.setFlag_eflags (s : State) (i : Fin flagIndexCount) (b : Bool) : (s.setFlag i b).eflags = FlagStore.set s.eflags i b := rfl
@[simp] theorem State.setFlag_eax (s : State) (i : Fin flagIndexCount) (b : Bool) : (s.setFlag i b).eax = s.eax := rfl
@[simp] theorem State.setFlag_ecx (s : State) (i : Fin flagIndexCount) (b : Bool) : (s.setFlag i b).ecx = s.ecx := rfl
@[simp] theorem State.setFlag_edx (s : State) (i : Fin flagIndexCount) (b : Bool) : (s.setFlag i b).edx = s.edx := rfl
@[simp] theorem State.setFlag_ebx (s : State) (i : Fin flagIndexCount) (b : Bool) : (s.setFlag i b).ebx = s.ebx := rfl
@[simp] theorem State.setFlag_esp (s : State) (i : Fin flagIndexCount) (b : Bool) : (s.setFlag i b).esp = s.esp := rfl
@[simp] theorem State.setFlag_ebp (s : State) (i : Fin flagIndexCount) (b : Bool) : (s.setFlag i b).ebp = s.ebp := rfl
@[simp] theorem State.setFlag_esi (s : State) (i : Fin flagIndexCount) (b : Bool) : (s.setFlag i b).esi = s.esi := rfl
@[simp] theorem State.setFlag_edi (s : State) (i : Fin flagIndexCount) (b : Bool) : (s.setFlag i b).edi = s.edi := rfl
@[simp] theorem State.setFlag_eip (s : State) (i : Fin flagIndexCount) (b : Bool) : (s.setFlag i b).eip = s.eip := rfl
@[simp] theorem State.setFlag_cs (s : State) (i : Fin flagIndexCount) (b : Bool) : (s.setFlag i b).cs = s.cs := rfl
@[simp] theorem State.setFlag_ds (s : State) (i : Fin flagIndexCount) (b : Bool) : (s.setFlag i b).ds = s.ds := rfl
@[simp] theorem State.setFlag_es (s : State) (i : Fin flagIndexCount) (b : Bool) : (s.setFlag i b).es = s.es := rfl
@[simp] theorem State.setFlag_fs (s : State) (i : Fin flagIndexCount) (b : Bool) : (s.setFlag i b).fs = s.fs := rfl
@[simp] theorem State.setFlag_gs (s : State) (i : Fin flagIndexCount) (b : Bool) : (s.setFlag i b).gs = s.gs := rfl
@[simp] theorem State.setFlag_ss (s : State) (i : Fin flagIndexCount) (b : Bool) : (s.setFlag i b).ss = s.ss := rfl
@[simp] theorem State.setFlag_halted (s : State) (i : Fin flagIndexCount) (b : Bool) : (s.setFlag i b).halted = s.halted := rfl
@[simp] theorem State.setFlag_faultStatus (s : State) (i : Fin flagIndexCount) (b : Bool) : (s.setFlag i b).faultStatus = s.faultStatus := rfl
@[simp] theorem State.setFlag_mem (s : State) (i : Fin flagIndexCount) (b : Bool) : (s.setFlag i b).mem = s.mem := rfl
@[simp] theorem State.setFlag_diag (s : State) (i : Fin flagIndexCount) (b : Bool) : (s.setFlag i b).diag = s.diag := rfl
@[simp] theorem State.setFlag_cfg (s : State) (i : Fin flagIndexCount) (b : Bool) : (s.setFlag i b).cfg = s.cfg := rfl

@[simp] theorem State.setGpr_eip (s : State) (g : Gpr) (v : Word) : (s.setGpr g v).eip = s.eip := by cases g <;> rfl
@[simp] theorem State.setGpr_cs (s : State) (g : Gpr) (v : Word) : (s.setGpr g v).cs = s.cs := by cases g <;> rfl
@[simp] theorem State.setGpr_ds (s : State) (g : Gpr) (v : Word) : (s.setGpr g v).ds = s.ds := by cases g <;> rfl
@[simp] theorem State.setGpr_es (s : State) (g : Gpr) (v : Word) : (s.setGpr g v).es = s.es := by cases g <;> rfl
@[simp] theorem State.setGpr_fs (s : State) (g : Gpr) (v : Word) : (s.setGpr g v).fs = s.fs := by cases g <;> rfl
@[simp] theorem State.setGpr_gs (s : State) (g : Gpr) (v : Word) : (s.setGpr g v).gs = s.gs := by cases g <;> rfl
@[simp] theorem State.setGpr_ss (s : State) (g : Gpr) (v : Word) : (s.setGpr g v).ss = s.ss := by cases g <;> rfl
@[simp] theorem State.setGpr_eflags (s : State) (g : Gpr) (v : Word) : (s.setGpr g v).eflags = s.eflags := by cases g <;> rfl
@[simp] theorem State.setGpr_halted (s : State) (g : Gpr) (v : Word) : (s.setGpr g v).halted = s.halted := by cases g <;> rfl
@[simp] theorem State.setGpr_faultStatus (s : State) (g : Gpr) (v : Word) : (s.setGpr g v).faultStatus = s.faultStatus := by cases g <;> rfl
@[simp] theorem State.setGpr_mem (s : State) (g : Gpr) (v : Word) : (s.setGpr g v).mem = s.mem := by cases g <;> rfl
@[simp] theorem State.setGpr_diag (s : State) (g : Gpr) (v : Word) : (s.setGpr g v).diag = s.diag := by cases g <;> rfl
@[simp] theorem State.setGpr_cfg (s : State) (g : Gpr) (v : Word) : (s.setGpr g v).cfg = s.cfg := by cases g <;> rfl

@[simp] theorem State.setSeg_eax (s : State) (x : Seg) (v : BitVec 16) : (s.setSeg x v).eax = s.eax := by cases x <;> rfl
@[simp] theorem State.setSeg_ecx (s : State) (x : Seg) (v : BitVec 16) : (s.setSeg x v).ecx = s.ecx := by cases x <;> rfl
@[simp] theorem State.setSeg_edx (s : State) (x : Seg) (v : BitVec 16) : (s.setSeg x v).edx = s.edx := by cases x <;> rfl
@[simp] theorem State.setSeg_ebx (s : State) (x : Seg) (v : BitVec 16) : (s.setSeg x v).ebx = s.ebx := by cases x <;> rfl
@[simp] theorem State.setSeg_esp (s : State) (x : Seg) (v : BitVec 16) : (s.setSeg x v).esp = s.esp := by cases x <;> rfl
@[simp] theorem State.setSeg_ebp (s : State) (x : Seg) (v : BitVec 16) : (s.setSeg x v).ebp = s.ebp := by cases x <;> rfl
@[simp] theorem State.setSeg_esi (s : State) (x : Seg) (v : BitVec 16) : (s.setSeg x v).esi = s.esi := by cases x <;> rfl
@[simp] theorem State.setSeg_edi (s : State) (x : Seg) (v : BitVec 16) : (s.setSeg x v).edi = s.edi := by cases x <;> rfl
@[simp] theorem State.setSeg_eip (s : State) (x : Seg) (v : BitVec 16) : (s.setSeg x v).eip = s.eip := by cases x <;> rfl
@[simp] theorem State.setSeg_eflags (s : State) (x : Seg) (v : BitVec 16) : (s.setSeg x v).eflags = s.eflags := by cases x <;> rfl
@[simp] theorem State.setSeg_halted (s : State) (x : Seg) (v : BitVec 16) : (s.setSeg x v).halted = s.halted := by cases x <;> rfl
@[simp] theorem State.setSeg_faultStatus (s : State) (x : Seg) (v : BitVec 16) : (s.setSeg x v).faultStatus = s.faultStatus := by cases x <;> rfl
@[simp] theorem State.setSeg_mem (s : State) (x : Seg) (v : BitVec 16) : (s.setSeg x v).mem = s.mem := by cases x <;> rfl
@[simp] theorem State.setSeg_diag (s : State) (x : Seg) (v : BitVec 16) : (s.setSeg x v).diag = s.diag := by cases x <;> rfl
@[simp] theorem State.setSeg_cfg (s : State) (x : Seg) (v : BitVec 16) : (s.setSeg x v).cfg = s.cfg := by cases x <;> rfl

@[simp] theorem State.resetOf_eax (c : Config) (m : Memory) (d : List Diag) : (State.resetOf c m d).eax = 0 := rfl
@[simp] theorem State.resetOf_ecx (c : Config) (m : Memory) (d : List Diag) : (State.resetOf c m d).ecx = 0 := rfl
@[simp] theorem State.resetOf_edx (c : Config) (m : Memory) (d : List Diag) : (State.resetOf c m d).edx = 0 := rfl
@[simp] theorem State.resetOf_ebx (c : Config) (m : Memory) (d : List Diag) : (State.resetOf c m d).ebx = 0 := rfl
@[simp] theorem State.resetOf_esp (c : Config) (m : Memory) (d : List Diag) : (State.resetOf c m d).esp = 0x0000FFFF := rfl
@[simp] theorem State.resetOf_ebp (c : Config) (m : Memory) (d : List Diag) : (State.resetOf c m d).ebp = 0 := rfl
@[simp] theorem State.resetOf_esi (c : Config) (m : Memory) (d : List Diag) : (State.resetOf c m d).esi = 0 := rfl
@[simp] theorem State.resetOf_edi (c : Config) (m : Memory) (d : List Diag) : (State.resetOf c m d).edi = 0 := rfl
@[simp] theorem State.resetOf_eip (c : Config) (m : Memory) (d : List Diag) : (State.resetOf c m d).eip = 0 := rfl
@[simp] theorem State.resetOf_cs (c : Config) (m : Memory) (d : List Diag) : (State.resetOf c m d).cs = 0 := rfl
@[simp] theorem State.resetOf_ds (c : Config) (m : Memory) (d : List Diag) : (State.resetOf c m d).ds = 0 := rfl
@[simp] theorem State.resetOf_es (c : Config) (m : Memory) (d : List Diag) : (State.resetOf c m d).es = 0 := rfl
@[simp] theorem State.resetOf_fs (c : Config) (m : Memory) (d : List Diag) : (State.resetOf c m d).fs = 0 := rfl
@[simp] theorem State.resetOf_gs (c : Config) (m : Memory) (d : List Diag) : (State.resetOf c m d).gs = 0 := rfl
@[simp] theorem State.resetOf_ss (c : Config) (m : Memory) (d : List Diag) : (State.resetOf c m d).ss = 0 := rfl
@[simp] theorem State.resetOf_eflags (c : Config) (m : Memory) (d : List Diag) : (State.resetOf c m d).eflags = 0x00000002 := rfl
@[simp] theorem State.resetOf_halted (c : Config) (m : Memory) (d : List Diag) : (State.resetOf c m d).halted = false := rfl
@[simp] theorem State.resetOf_faultStatus (c : Config) (m : Memory) (d : List Diag) : (State.resetOf c m d).faultStatus = .none := rfl
@[simp] theorem State.resetOf_mem (c : Config) (m : Memory) (d : List Diag) : (State.resetOf c m d).mem = m := rfl
@[simp] theorem State.resetOf_diag (c : Config) (m : Memory) (d : List Diag) : (State.resetOf c m d).diag = d := rfl
@[simp] theorem State.resetOf_cfg (c : Config) (m : Memory) (d : List Diag) : (State.resetOf c m d).cfg = c := rfl

/-! ### Accessors under updates -/

@[simp] theorem State.gpr_consume (s : State) (n : Nat) (g : Gpr) : State.gpr (s.consume n) g = s.gpr g := by cases g <;> rfl
@[simp] theorem State.segReg_consume (s : State) (n : Nat) (x : Seg) : State.segReg (s.consume n) x = s.segReg x := by cases x <;> rfl
@[simp] theorem State.gpr_takeFault (s : State) (a : Nat) (g : Gpr) : State.gpr (takeFault s a) g = s.gpr g := by cases g <;> rfl
@[simp] theorem State.segReg_takeFault (s : State) (a : Nat) (x : Seg) : State.segReg (takeFault s a) x = s.segReg x := by cases x <;> rfl
@[simp] theorem State.gpr_setFlag (s : State) (i : Fin flagIndexCount) (b : Bool) (g : Gpr) : State.gpr (s.setFlag i b) g = s.gpr g := by cases g <;> rfl
@[simp] theorem State.segReg_setFlag (s : State) (i : Fin flagIndexCount) (b : Bool) (x : Seg) : State.segReg (s.setFlag i b) x = s.segReg x := by cases x <;> rfl
@[simp] theorem State.gpr_withMem (s : State) (m : Memory) (g : Gpr) : State.gpr ({ s with mem := m }) g = s.gpr g := by cases g <;> rfl
@[simp] theorem State.segReg_withMem (s : State) (m : Memory) (x : Seg) : State.segReg ({ s with mem := m }) x = s.segReg x := by cases x <;> rfl
@[simp] theorem State.gpr_withFlags (s : State) (f : BitVec flagIndexCount) (g : Gpr) : State.gpr ({ s with eflags := f }) g = s.gpr g := by cases g <;> rfl
@[simp] theorem State.segReg_withFlags (s : State) (f : BitVec flagIndexCount) (x : Seg) : State.segReg ({ s with eflags := f }) x = s.segReg x := by cases x <;> rfl
@[simp] theorem State.gpr_withEip (s : State) (v : Word) (g : Gpr) : State.gpr ({ s with eip := v }) g = s.gpr g := by cases g <;> rfl
@[simp] theorem State.segReg_withEip (s : State) (v : Word) (x : Seg) : State.segReg ({ s with eip := v }) x = s.segReg x := by cases x <;> rfl
@[simp] theorem State.gpr_setSeg (s : State) (x : Seg) (v : BitVec 16) (g : Gpr) : (s.setSeg x v).gpr g = s.gpr g := by cases x <;> cases g <;> rfl
@[simp] theorem State.segReg_setGpr (s : State) (g : Gpr) (v : Word) (x : Seg) : (s.setGpr g v).segReg x = s.segReg x := by cases g <;> cases x <;> rfl
@[simp] theorem State.gpr_setGpr_same (s : State) (g : Gpr) (v : Word) : (s.setGpr g v).gpr g = v := by cases g <;> rfl
theorem State.gpr_setGpr_ne (s : State) {g h : Gpr} (v : Word) (hne : h ≠ g) : (s.setGpr g v).gpr h = s.gpr h := by
  cases g <;> cases h <;> first | rfl | exact absurd rfl hne
theorem State.gpr_setGpr (s : State) (g h : Gpr) (v : Word) :
    (s.setGpr g v).gpr h = if h = g then v else s.gpr h := by
  split
  · next e => subst e; simp
  · next e => exact State.gpr_setGpr_ne s v e
@[simp] theorem State.segReg_setSeg_same (s : State) (x : Seg) (v : BitVec 16) : (s.setSeg x v).segReg x = v := by cases x <;> rfl
theorem State.segReg_setSeg_ne (s : State) {x y : Seg} (v : BitVec 16) (hne : y ≠ x) :
    (s.setSeg x v).segReg y = s.segReg y := by
  cases x <;> cases y <;> first | rfl | exact absurd rfl hne

/-! ### Normal forms -/

@[simp] theorem State.finalAdvance_eq (s : State) : s.finalAdvance = s.consume 1 := rfl
@[simp] theorem State.consume_consume (s : State) (m n : Nat) : (s.consume m).consume n = s.consume (m + n) := by
  simp [State.consume, BitVec.add_assoc, BitVec.ofNat_add]
theorem State.setGpr_consume (s : State) (n : Nat) (g : Gpr) (v : Word) :
    (s.consume n).setGpr g v = (s.setGpr g v).consume n := by cases g <;> rfl
theorem State.setSeg_consume (s : State) (n : Nat) (x : Seg) (v : BitVec 16) :
    (s.consume n).setSeg x v = (s.setSeg x v).consume n := by cases x <;> rfl

@[simp] theorem State.inRange_consume (s : State) (n : Nat) (a : Word) (w : Width) :
    (s.consume n).inRange a w = s.inRange a w := rfl
@[simp] theorem State.inRange_setGpr (s : State) (g : Gpr) (v : Word) (a : Word) (w : Width) :
    (s.setGpr g v).inRange a w = s.inRange a w := by simp [State.inRange]
@[simp] theorem State.outOfRangeAt_consume (s : State) (n : Nat) (a : Word) :
    (s.consume n).outOfRangeAt a = s.outOfRangeAt a := rfl
@[simp] theorem State.outOfRangeAt_setGpr (s : State) (g : Gpr) (v : Word) (a : Word) :
    (s.setGpr g v).outOfRangeAt a = s.outOfRangeAt a := by simp [State.outOfRangeAt]
@[simp] theorem State.memRead_consume (s : State) (n : Nat) (a : Word) (w : Width) :
    (s.consume n).memRead a w = s.memRead a w := rfl

end Sys2Proof.Machine
end

