-- ==== Sys2Proof/Laws/Registers.lean ====
section
/-! SUPPORT. The laws of register views (10_state.md R24, R25) and flag cells (R28), and the fields a view write leaves. -/

namespace Sys2Proof.Machine

/-! ### Flag cells -/

theorem FlagStore.get_set (f : FlagStore) (i j : Fin flagIndexCount) (b : Bool) :
    (f.set i b).get j = if j = i then b else f.get j := by
  obtain ⟨i, hi⟩ := i
  obtain ⟨j, hj⟩ := j
  have h32 : j < 32 := hj
  by_cases e : i = j
  · subst e
    cases b <;> simp [FlagStore.set, FlagStore.get, h32]
  · have e' : ¬j = i := fun h => e h.symm
    cases b <;> simp [FlagStore.set, FlagStore.get, h32, e', BitVec.getElem_twoPow]

@[simp] theorem FlagStore.get_set_same (f : FlagStore) (i : Fin flagIndexCount) (b : Bool) : (f.set i b).get i = b := by
  simp [FlagStore.get_set]

/-- Flag stores with equal cells are equal. -/
theorem FlagStore.ext_cells {f g : FlagStore} (h : ∀ i, f.get i = g.get i) : f = g := by
  apply BitVec.eq_of_getLsbD_eq
  intro i hi
  exact h ⟨i, hi⟩

/-! ### Views -/

/-- A read after a write of the same view gives the written value (10_state.md R24, R25). -/
@[simp] theorem State.get_set_same (s : State) (x : View) (v : BitVec x.bits) : (s.set x v).get x = v := by
  cases x <;> simp only [State.get, State.set, State.gpr_setGpr_same, State.segReg_setSeg_same]
  all_goals (apply BitVec.eq_of_getLsbD_eq; intro i hi; simp [BitVec.getLsbD_append] at *)
  all_goals (try (simp [hi]))

theorem regView_bits (n : RegNum) (w : Width) : (regView n w).bits = w.bits := by cases n <;> cases w <;> rfl

@[simp] theorem State.readReg_writeReg_same (s : State) (n : RegNum) (w : Width) (v : BitVec w.bits) :
    (s.writeReg n w v).readReg n w = v := by
  simp only [State.readReg, State.writeReg, State.get_set_same]
  apply BitVec.eq_of_toNat_eq
  have := v.isLt
  simp only [BitVec.toNat_setWidth, regView_bits]
  rw [Nat.mod_eq_of_lt (Nat.mod_lt _ (Nat.two_pow_pos _)), Nat.mod_eq_of_lt this]

end Sys2Proof.Machine
end

