-- ==== Sys2Proof/Laws/Operands.lean ====
section
/-! SUPPORT. What each shared operation of the handlers does, said once: the accesses of memory, the four handler
shapes of the ALU families, push and pop. -/

namespace Sys2Proof.Machine

theorem State.inRange_iff (s : State) (a : Word) (w : Width) :
    s.inRange a w = true ↔ a.toNat + w.bytes ≤ s.cfg.memSize := by simp [State.inRange]

theorem State.memRead_ok {s : State} {a : Word} {w : Width} (h : s.inRange a w = true) :
    s.memRead a w = .ok (BitVec.ofNat w.bits (s.mem.load a.toNat w.bytes)) := by simp [State.memRead, h]

theorem State.memRead_error {s : State} {a : Word} {w : Width} (h : s.inRange a w = false) :
    s.memRead a w = .error (s.outOfRangeAt a) := by simp [State.memRead, h]

theorem State.memWrite_ok {s : State} {a : Word} {w : Width} (h : s.inRange a w = true) (v : BitVec w.bits) :
    s.memWrite a w v = .ok { s with mem := s.mem.store a.toNat w.bytes v.toNat } := by simp [State.memWrite, h]

theorem State.memWrite_error {s : State} {a : Word} {w : Width} (h : s.inRange a w = false) (v : BitVec w.bits) :
    s.memWrite a w v = .error (s.outOfRangeAt a) := by simp [State.memWrite, h]

/-- The address an out-of-range access reports is at or beyond N and at most 2^32 (60_exceptions.md R212). -/
theorem State.outOfRangeAt_bounds {s : State} (h : s.cfg.wf) (a : Word) :
    s.cfg.memSize ≤ s.outOfRangeAt a ∧ s.outOfRangeAt a ≤ 2 ^ 32 := by
  have := a.isLt
  have := h.2
  simp only [State.outOfRangeAt]
  omega

/-! ### Registers and addresses do not see the instruction pointer or the flags -/

@[simp] theorem State.base16_consume (s : State) (n : Nat) (b : Base16) : (s.consume n).base16 b = s.base16 b := by
  cases b <;> simp [State.base16, State.get]

@[simp] theorem State.indexValue_consume (s : State) (n : Nat) (sc : Scale) (i : Option RegNum) :
    (s.consume n).indexValue sc i = s.indexValue sc i := by
  cases i <;> simp [State.indexValue]

@[simp] theorem State.ea_consume (s : State) (n : Nat) (x : Addr) : (s.consume n).ea x = s.ea x := by
  rcases x with x | x <;> cases x <;> simp [State.ea, State.ea16, State.ea32]

theorem State.get_consume_general (s : State) (n : Nat) (r : RegNum) (w : Width) :
    (s.consume n).get (regView r w) = s.get (regView r w) := by
  cases r <;> cases w <;> simp [regView, byteViewOf, State.get]

@[simp] theorem State.readReg_consume (s : State) (n : Nat) (r : RegNum) (w : Width) :
    (s.consume n).readReg r w = s.readReg r w := by simp only [State.readReg, State.get_consume_general]

/-- Writing a general register and consuming bytes commute. -/
theorem State.writeReg_consume (s : State) (n : Nat) (r : RegNum) (w : Width) (v : BitVec w.bits) :
    (s.consume n).writeReg r w v = (s.writeReg r w v).consume n := by
  cases r <;> cases w <;> rfl

/-! ### The ALU on the state -/

theorem State.runAlu_eq (s : State) (op : AluOp) {n : Nat} (a b : BitVec n) :
    s.runAlu op a b = ((alu s.cfg.ofUntriggered op a b s.eflags).1,
      { s with eflags := (alu s.cfg.ofUntriggered op a b s.eflags).2 }) := rfl

/-- The end of a handler whose destination is a register: k bytes after the opcode are consumed, a and b are the
operands as the handler read them, and the opcode byte is accounted for last. -/
theorem writeBack_eq (op : AluOp) {s : State} {w : Width} {a b a' b' : BitVec w.bits} (ha : a' = a) (hb : b' = b)
    (n : RegNum) (k : Nat) :
    (Except.ok (State.finalAdvance (State.writeReg
      { s.consume k with eflags := (alu s.cfg.ofUntriggered op a' b' s.eflags).2 } n w
      (alu s.cfg.ofUntriggered op a' b' s.eflags).1)) : Except Nat State) =
    .ok ((State.writeReg { s with eflags := (alu s.cfg.ofUntriggered op a b s.eflags).2 } n w
      (alu s.cfg.ofUntriggered op a b s.eflags).1).consume (k + 1)) := by
  subst ha hb
  show Except.ok (((State.consume { s with eflags := (alu s.cfg.ofUntriggered op a' b' s.eflags).2 } k).writeReg n w
    (alu s.cfg.ofUntriggered op a' b' s.eflags).1).consume 1) = _
  rw [State.writeReg_consume, State.consume_consume]

/-! ### The handler shapes -/

/-- Eb,Gb and Ev,Gv with a register E. -/
theorem aluRmReg_reg (op : AluOp) (w : Width) (n g : RegNum) (s : State) :
    aluRmReg op w (.reg n) g s =
      .ok ((State.writeReg { s with eflags := (alu s.cfg.ofUntriggered op (s.readReg n w) (s.readReg g w) s.eflags).2 } n w
        (alu s.cfg.ofUntriggered op (s.readReg n w) (s.readReg g w) s.eflags).1).consume 2) :=
  writeBack_eq op (s.readReg_consume 1 n w) (s.readReg_consume 1 g w) n 1

/-- Eb,Gb and Ev,Gv with a memory E in range: the operand at the effective address is read, and the result stored
there. -/
theorem aluRmReg_mem {s : State} {x : Addr} {w : Width} (h : s.inRange (s.ea x) w = true) (op : AluOp) (g : RegNum) :
    aluRmReg op w (.mem x) g s =
      .ok (State.consume
        { s with
          eflags := (alu s.cfg.ofUntriggered op (BitVec.ofNat w.bits (s.mem.load (s.ea x).toNat w.bytes)) (s.readReg g w) s.eflags).2
          mem := s.mem.store (s.ea x).toNat w.bytes
            (alu s.cfg.ofUntriggered op (BitVec.ofNat w.bits (s.mem.load (s.ea x).toNat w.bytes)) (s.readReg g w) s.eflags).1.toNat }
        ((RM.mem x).length + 1)) := by
  simp only [aluRmReg, State.rmLoc, State.readOp, State.ea_consume, State.memRead_consume, State.memRead_ok h,
    State.readReg_consume]
  simp only [bind, Except.bind, pure, Except.pure, State.runAlu_eq, State.writeOp]
  rw [State.memWrite_ok (by exact h)]
  simp [State.consume, BitVec.add_assoc, BitVec.ofNat_add]

/-- Eb,Gb and Ev,Gv with a memory E out of range. -/
theorem aluRmReg_mem_error {s : State} {x : Addr} {w : Width} (h : s.inRange (s.ea x) w = false) (op : AluOp)
    (g : RegNum) : aluRmReg op w (.mem x) g s = .error (s.outOfRangeAt (s.ea x)) := by
  simp only [aluRmReg, State.rmLoc, State.readOp, State.ea_consume, State.memRead_consume, State.memRead_error h]
  rfl

/-- Gb,Eb and Gv,Ev with a register E. -/
theorem aluRegRm_reg (op : AluOp) (w : Width) (g n : RegNum) (s : State) :
    aluRegRm op w g (.reg n) s =
      .ok ((State.writeReg { s with eflags := (alu s.cfg.ofUntriggered op (s.readReg g w) (s.readReg n w) s.eflags).2 } g w
        (alu s.cfg.ofUntriggered op (s.readReg g w) (s.readReg n w) s.eflags).1).consume 2) :=
  writeBack_eq op (s.readReg_consume 1 g w) (s.readReg_consume 1 n w) g 1

/-- Gb,Eb and Gv,Ev with a memory E in range. -/
theorem aluRegRm_mem {s : State} {x : Addr} {w : Width} (h : s.inRange (s.ea x) w = true) (op : AluOp) (g : RegNum) :
    aluRegRm op w g (.mem x) s =
      .ok ((State.writeReg
        { s with eflags := (alu s.cfg.ofUntriggered op (s.readReg g w) (BitVec.ofNat w.bits (s.mem.load (s.ea x).toNat w.bytes)) s.eflags).2 } g w
        (alu s.cfg.ofUntriggered op (s.readReg g w) (BitVec.ofNat w.bits (s.mem.load (s.ea x).toNat w.bytes)) s.eflags).1).consume
        ((RM.mem x).length + 1)) := by
  simp only [aluRegRm, State.rmLoc, State.readOp, State.ea_consume, State.memRead_consume, State.memRead_ok h,
    State.readReg_consume]
  simp only [bind, Except.bind, pure, Except.pure, State.runAlu_eq]
  rw [← State.consume_consume, ← State.writeReg_consume]
  rfl

/-- Gb,Eb and Gv,Ev with a memory E out of range. -/
theorem aluRegRm_mem_error {s : State} {x : Addr} {w : Width} (h : s.inRange (s.ea x) w = false) (op : AluOp)
    (g : RegNum) : aluRegRm op w g (.mem x) s = .error (s.outOfRangeAt (s.ea x)) := by
  simp only [aluRegRm, State.rmLoc, State.readOp, State.ea_consume, State.memRead_consume, State.memRead_error h]
  rfl

/-- AL,Ib and eAX,Iz at one width. -/
theorem aluAcc_eq (op : AluOp) (w : Width) (imm : BitVec w.bits) (s : State) :
    aluAcc op w imm s =
      .ok ((State.writeReg { s with eflags := (alu s.cfg.ofUntriggered op (s.readReg .r0 w) imm s.eflags).2 } .r0 w
        (alu s.cfg.ofUntriggered op (s.readReg .r0 w) imm s.eflags).1).consume (w.bytes + 1)) :=
  writeBack_eq op (s.readReg_consume w.bytes .r0 w) rfl .r0 w.bytes

/-- A push with its slot in range (46_segment_stack.md R190). -/
theorem pushSeg_ok {s : State} (h : s.inRange (s.esp - 2) .w16 = true) (x : Seg) :
    pushSeg x s = .ok (State.consume
      { s with esp := s.esp - 2, mem := s.mem.store (s.esp - 2).toNat 2 (s.segReg x).toNat } 1) := by
  have h' : (s.setGpr .esp (s.esp - 2)).inRange ((s.setGpr .esp (s.esp - 2)).gpr .esp) .w16 = true := by simpa using h
  show (do
    let t ← (s.setGpr .esp (s.esp - 2)).memWrite ((s.setGpr .esp (s.esp - 2)).gpr .esp) .w16 (s.segReg x)
    pure t.finalAdvance) = _
  rw [State.memWrite_ok h']
  rfl

/-- A push whose slot is out of range. -/
theorem pushSeg_error {s : State} (h : s.inRange (s.esp - 2) .w16 = false) (x : Seg) :
    pushSeg x s = .error (s.outOfRangeAt (s.esp - 2)) := by
  have h' : (s.setGpr .esp (s.esp - 2)).inRange ((s.setGpr .esp (s.esp - 2)).gpr .esp) .w16 = false := by simpa using h
  show (do
    let t ← (s.setGpr .esp (s.esp - 2)).memWrite ((s.setGpr .esp (s.esp - 2)).gpr .esp) .w16 (s.segReg x)
    pure t.finalAdvance) = _
  rw [State.memWrite_error h']
  simp [bind, Except.bind]

/-- A pop with its slot in range (46_segment_stack.md R190). -/
theorem popSeg_ok {s : State} (h : s.inRange s.esp .w16 = true) (x : Seg) :
    popSeg x s = .ok (((s.setGpr .esp (s.esp + 2)).setSeg x (BitVec.ofNat 16 (s.mem.load s.esp.toNat 2))).consume 1) := by
  show (do
    let v ← s.memRead s.esp .w16
    pure ((s.setGpr .esp (s.esp + 2)).setSeg x v).finalAdvance) = _
  rw [State.memRead_ok h]
  rfl

/-- A pop whose slot is out of range. -/
theorem popSeg_error {s : State} (h : s.inRange s.esp .w16 = false) (x : Seg) :
    popSeg x s = .error (s.outOfRangeAt s.esp) := by
  show (do
    let v ← s.memRead s.esp .w16
    pure ((s.setGpr .esp (s.esp + 2)).setSeg x v).finalAdvance) = _
  rw [State.memRead_error h]
  rfl

end Sys2Proof.Machine
end

