-- ==== Sys2Proof/Laws/Step.lean ====
section
/-! SUPPORT. exec in terms of the handlers, and everything a step can do. -/

namespace Sys2Proof.Machine

/-- Every meaning is one cycle of its handler. -/
theorem exec_eq_endCycle (i : Instr) (s : State) : exec i s = endCycle s (handler i s) := by
  cases i <;> rfl

@[simp] theorem endCycle_ok (s t : State) : endCycle s (.ok t) = .next t := rfl
@[simp] theorem endCycle_error (s : State) (a : Nat) : endCycle s (.error a) = .next (takeFault s a) := rfl

/-! ### The handler of each instruction, by its shape -/

theorem handler_addEbGb (e : RM) (g : RegNum) (s : State) : handler (.addEbGb e g) s = aluRmReg .add .w8 e g s := rfl
theorem handler_addEvGv (w : OpSize) (e : RM) (g : RegNum) (s : State) :
    handler (.addEvGv w e g) s = aluRmReg .add w.width e g s := rfl
theorem handler_addGbEb (g : RegNum) (e : RM) (s : State) : handler (.addGbEb g e) s = aluRegRm .add .w8 g e s := rfl
theorem handler_addGvEv (w : OpSize) (g : RegNum) (e : RM) (s : State) :
    handler (.addGvEv w g e) s = aluRegRm .add w.width g e s := rfl
theorem handler_addALIb (imm : BitVec 8) (s : State) : handler (.addALIb imm) s = aluAcc .add .w8 imm s := rfl
theorem handler_addEAXIz (imm : ImmZ) (s : State) : handler (.addEAXIz imm) s = aluAccZ .add imm s := rfl
theorem handler_orEbGb (e : RM) (g : RegNum) (s : State) : handler (.orEbGb e g) s = aluRmReg .or .w8 e g s := rfl
theorem handler_orEvGv (w : OpSize) (e : RM) (g : RegNum) (s : State) :
    handler (.orEvGv w e g) s = aluRmReg .or w.width e g s := rfl
theorem handler_orGbEb (g : RegNum) (e : RM) (s : State) : handler (.orGbEb g e) s = aluRegRm .or .w8 g e s := rfl
theorem handler_orGvEv (w : OpSize) (g : RegNum) (e : RM) (s : State) :
    handler (.orGvEv w g e) s = aluRegRm .or w.width g e s := rfl
theorem handler_orALIb (imm : BitVec 8) (s : State) : handler (.orALIb imm) s = aluAcc .or .w8 imm s := rfl
theorem handler_orEAXIz (imm : ImmZ) (s : State) : handler (.orEAXIz imm) s = aluAccZ .or imm s := rfl
theorem handler_adcEbGb (e : RM) (g : RegNum) (s : State) : handler (.adcEbGb e g) s = aluRmReg .adc .w8 e g s := rfl
theorem handler_adcEvGv (w : OpSize) (e : RM) (g : RegNum) (s : State) :
    handler (.adcEvGv w e g) s = aluRmReg .adc w.width e g s := rfl
theorem handler_adcGbEb (g : RegNum) (e : RM) (s : State) : handler (.adcGbEb g e) s = aluRegRm .adc .w8 g e s := rfl
theorem handler_adcGvEv (w : OpSize) (g : RegNum) (e : RM) (s : State) :
    handler (.adcGvEv w g e) s = aluRegRm .adc w.width g e s := rfl
theorem handler_adcALIb (imm : BitVec 8) (s : State) : handler (.adcALIb imm) s = aluAcc .adc .w8 imm s := rfl
theorem handler_adcEAXIz (imm : ImmZ) (s : State) : handler (.adcEAXIz imm) s = aluAccZ .adc imm s := rfl
theorem handler_pushES (s : State) : handler .pushES s = pushSeg .es s := rfl
theorem handler_popES (s : State) : handler .popES s = popSeg .es s := rfl
theorem handler_pushCS (s : State) : handler .pushCS s = pushSeg .cs s := rfl
theorem handler_pushSS (s : State) : handler .pushSS s = pushSeg .ss s := rfl
theorem handler_popSS (s : State) : handler .popSS s = popSeg .ss s := rfl

/-! ### What a meaning and a step can do -/

/-- A meaning always answers a next state: the handler's, or the fault entry. -/
theorem exec_cases (i : Instr) (s : State) :
    (∃ t, handler i s = .ok t ∧ exec i s = .next t) ∨
    (∃ a, handler i s = .error a ∧ exec i s = .next (takeFault s a)) := by
  rw [exec_eq_endCycle]
  cases h : handler i s with
  | ok t => exact .inl ⟨t, rfl, rfl⟩
  | error a => exact .inr ⟨a, rfl, rfl⟩

/-- A prefix runs the instruction behind it one byte further on, in the same cycle. -/
theorem handler_before (p : Prefix) (j : Instr) (s : State) : handler (p.before j) s = handler j (s.consume 1) := by
  cases p <;> rfl

/-- What a step can do. -/
theorem step_cases (s : State) :
    (s.stopped = true ∧ step s = .next s) ∨
    (s.stopped = false ∧
      ((∃ i n, s.fetchDecode = .ok (i, n) ∧ step s = exec i s) ∨
       (∃ a, s.fetchDecode = .error (.outOfRange a) ∧ step s = .next (takeFault s a)) ∨
       (∃ ps op, s.fetchDecode = .error (.unmapped ps op) ∧ step s = .next (unmappedOpcode ps.length op s)) ∨
       (s.fetchDecode = .error .endless ∧ step s = .fault .prefixScanHang))) := by
  by_cases hs : s.stopped = true
  · exact .inl ⟨hs, by simp [step, hs]⟩
  · have hs' : s.stopped = false := by simpa using hs
    refine .inr ⟨hs', ?_⟩
    cases hd : s.fetchDecode with
    | ok r => exact .inl ⟨r.1, r.2, rfl, by simp [step, hs', hd]⟩
    | error e =>
      cases e with
      | outOfRange a => exact .inr (.inl ⟨a, rfl, by simp [step, hs', hd, stopDecode]⟩)
      | unmapped ps op => exact .inr (.inr (.inl ⟨ps, op, rfl, by simp [step, hs', hd, stopDecode]⟩))
      | endless => exact .inr (.inr (.inr ⟨rfl, by simp [step, hs', hd, stopDecode]⟩))

/-- What an unmapped opcode does, field by field (41_fetch_dispatch.md R127, R128). -/
theorem unmappedOpcode_eq (p : Nat) (op : Byte) (s : State) :
    unmappedOpcode p op s =
      { s with
        eip := s.eip + BitVec.ofNat 32 (p + 1)
        diag := s.diag ++ [{ byte := op, addr := s.eip + BitVec.ofNat 32 p }] } := by
  simp [unmappedOpcode, State.consume, BitVec.add_assoc, BitVec.ofNat_add]

end Sys2Proof.Machine
end

