-- ==== Sys2Proof/Laws/Frame.lean ====
section
/-! SUPPORT. What a handler leaves of the state and how far it moves EIP, for every instruction at once; and everything a
step that has a next state can have done. -/

namespace Sys2Proof.Machine

/-- The flag cells ADD, OR and ADC may write: CF, PF, AF, ZF, SF, OF (42_alu.md R147, R150). -/
def arithmeticCells : List (Fin flagIndexCount) := [0, 2, 4, 6, 7, 11]

/-- What a handler that ends leaves of the state it began in. -/
structure Kept (i : Instr) (s t : State) : Prop where
  cfg : t.cfg = s.cfg
  diag : t.diag = s.diag
  fault : t.faultStatus = s.faultStatus
  cs : t.cs = s.cs
  ds : t.ds = s.ds
  fs : t.fs = s.fs
  gs : t.gs = s.gs
  es : i.body ≠ .popES → t.es = s.es
  ss : i.body ≠ .popSS → t.ss = s.ss
  halted : i.body ≠ .hlt → t.halted = s.halted
  hlt : i.body = .hlt → t.halted = true
  flags : ∀ c, c ∉ arithmeticCells → FlagStore.get t.eflags c = FlagStore.get s.eflags c
  mem : t.mem = s.mem ∨ ∃ a w v, s.inRange a w = true ∧ t.mem = s.mem.store a.toNat (Width.bytes w) v

theorem writeReg_kept (s : State) (n : RegNum) (w : Width) (v : BitVec w.bits) :
    (s.writeReg n w v).cfg = s.cfg ∧ (s.writeReg n w v).diag = s.diag ∧ (s.writeReg n w v).faultStatus = s.faultStatus ∧
    (s.writeReg n w v).cs = s.cs ∧ (s.writeReg n w v).ds = s.ds ∧ (s.writeReg n w v).fs = s.fs ∧ (s.writeReg n w v).gs = s.gs ∧
    (s.writeReg n w v).es = s.es ∧ (s.writeReg n w v).ss = s.ss ∧ (s.writeReg n w v).halted = s.halted ∧
    (s.writeReg n w v).eflags = s.eflags ∧ (s.writeReg n w v).mem = s.mem ∧ (s.writeReg n w v).eip = s.eip := by
  cases n <;> cases w <;> exact ⟨rfl, rfl, rfl, rfl, rfl, rfl, rfl, rfl, rfl, rfl, rfl, rfl, rfl⟩

theorem alu_inert (p : OfPolicy) (op : AluOp) {n : Nat} (a b : BitVec n) (f : FlagStore) :
    ∀ i, i ∉ arithmeticCells → (alu p op a b f).2.get i = f.get i := by
  intro i hi
  simp only [arithmeticCells, List.mem_cons, not_or, List.not_mem_nil, not_false_eq_true, and_true] at hi
  obtain ⟨h0, h2, h4, h6, h7, h11⟩ := hi
  cases op <;> simp only [alu, aluSum, aluOr, resultFlags, FlagStore.get_set, FlagName.cell]
  · generalize overflowHeuristic _ _ _ _ = x
    obtain ⟨x, y⟩ := x
    simp only [FlagStore.get_set, if_neg h0, if_neg h2, if_neg h4, if_neg h6, if_neg h7, if_neg h11]
  · simp only [FlagStore.get_set, if_neg h0, if_neg h2, if_neg h4, if_neg h6, if_neg h7, if_neg h11]
  · generalize overflowHeuristic _ _ _ _ = x
    obtain ⟨x, y⟩ := x
    simp only [FlagStore.get_set, if_neg h0, if_neg h2, if_neg h4, if_neg h6, if_neg h7, if_neg h11]

/-- How far a handler moves EIP (41_fetch_dispatch.md R130). -/
def advance (s : State) (i : Instr) : Nat :=
  if i.body = .hlt ∧ s.cfg.hltAdvancesEip = false then (encode i).length - 1 else (encode i).length

theorem kept_writeReg {i : Instr} {s : State} (h3 : i.body ≠ .hlt)
    (p : OfPolicy) (op : AluOp) {m : Nat} (a b : BitVec m) (n : RegNum) (w : Width) (v : BitVec w.bits) (k : Nat) :
    Kept i s ((State.writeReg { s with eflags := (alu p op a b s.eflags).2 } n w v).consume k) := by
  obtain ⟨e1, e2, e3, e4, e5, e6, e7, e8, e9, e10, e11, e12, e13⟩ := writeReg_kept { s with eflags := (alu p op a b s.eflags).2 } n w v
  refine ⟨e1, e2, e3, e4, e5, e6, e7, fun _ => e8, fun _ => e9, fun _ => e10, fun h => absurd h h3, ?_, .inl e12⟩
  simp only [State.consume]
  rw [e11]
  exact fun i hi => alu_inert _ _ _ _ _ i hi

theorem rmReg_kept {i : Instr} {s t : State} (h3 : i.body ≠ .hlt)
    {op w e g} (h : aluRmReg op w e g s = .ok t) : Kept i s t ∧ t.eip = s.eip + BitVec.ofNat 32 (e.length + 1) := by
  rcases e with n | x
  · rw [aluRmReg_reg] at h
    injection h with h; subst h
    refine ⟨kept_writeReg h3 .., ?_⟩
    simp only [State.consume, (writeReg_kept _ _ _ _).2.2.2.2.2.2.2.2.2.2.2.2]; rfl
  · cases hr : s.inRange (s.ea x) w
    · rw [aluRmReg_mem_error hr] at h; simp [aluAcc] at h
    · rw [aluRmReg_mem hr] at h
      injection h with h; subst h
      exact ⟨⟨rfl, rfl, rfl, rfl, rfl, rfl, rfl, fun _ => rfl, fun _ => rfl, fun _ => rfl, fun h => absurd h h3, fun i hi => alu_inert _ _ _ _ _ i hi, .inr ⟨_, w, _, hr, rfl⟩⟩, rfl⟩
theorem regRm_kept {i : Instr} {s t : State} (h3 : i.body ≠ .hlt)
    {op w e g} (h : aluRegRm op w g e s = .ok t) : Kept i s t ∧ t.eip = s.eip + BitVec.ofNat 32 (e.length + 1) := by
  rcases e with n | x
  · rw [aluRegRm_reg] at h
    injection h with h; subst h
    refine ⟨kept_writeReg h3 .., ?_⟩
    simp only [State.consume, (writeReg_kept _ _ _ _).2.2.2.2.2.2.2.2.2.2.2.2]; rfl
  · cases hr : s.inRange (s.ea x) w
    · rw [aluRegRm_mem_error hr] at h; simp [aluAcc] at h
    · rw [aluRegRm_mem hr] at h
      injection h with h; subst h
      refine ⟨kept_writeReg h3 .., ?_⟩
      simp only [State.consume, (writeReg_kept _ _ _ _).2.2.2.2.2.2.2.2.2.2.2.2]
theorem acc_kept {i : Instr} {s t : State} (h3 : i.body ≠ .hlt)
    {op w v} (h : aluAcc op w v s = .ok t) : Kept i s t ∧ t.eip = s.eip + BitVec.ofNat 32 (w.bytes + 1) := by
  rw [aluAcc_eq] at h
  injection h with h; subst h
  refine ⟨kept_writeReg h3 .., ?_⟩
  simp only [State.consume, (writeReg_kept _ _ _ _).2.2.2.2.2.2.2.2.2.2.2.2]
theorem accZ_kept {i : Instr} {s t : State} (h3 : i.body ≠ .hlt)
    {op z} (h : aluAccZ op z s = .ok t) : Kept i s t ∧ t.eip = s.eip + BitVec.ofNat 32 (z.bytes.length + 1) := by
  cases z <;> exact acc_kept h3 h
theorem push_kept {i : Instr} {s t : State} (h3 : i.body ≠ .hlt) {x} (h : pushSeg x s = .ok t) :
    Kept i s t ∧ t.eip = s.eip + BitVec.ofNat 32 1 := by
  cases hr : s.inRange (s.esp - 2) .w16
  · rw [pushSeg_error hr] at h; simp [aluAcc] at h
  · rw [pushSeg_ok hr] at h
    injection h with h; subst h
    exact ⟨⟨rfl, rfl, rfl, rfl, rfl, rfl, rfl, fun _ => rfl, fun _ => rfl, fun _ => rfl, fun h => absurd h h3, fun _ _ => rfl, .inr ⟨_, .w16, _, hr, rfl⟩⟩, rfl⟩
theorem pop_kept {i : Instr} {s t : State} (h3 : i.body ≠ .hlt) {x} (hx : (i.body = .popES ∧ x = .es) ∨ (i.body = .popSS ∧ x = .ss)) (h : popSeg x s = .ok t) :
    Kept i s t ∧ t.eip = s.eip + BitVec.ofNat 32 1 := by
  cases hr : s.inRange s.esp .w16
  · rw [popSeg_error hr] at h; simp [aluAcc] at h
  · rw [popSeg_ok hr] at h
    injection h with h; subst h
    rcases hx with ⟨hb, rfl⟩ | ⟨hb, rfl⟩
    · exact ⟨⟨rfl, rfl, rfl, rfl, rfl, rfl, rfl, fun h => absurd hb h, fun _ => rfl, fun _ => rfl, fun h => absurd h h3, fun _ _ => rfl, .inl rfl⟩, rfl⟩
    · exact ⟨⟨rfl, rfl, rfl, rfl, rfl, rfl, rfl, fun _ => rfl, fun h => absurd hb h, fun _ => rfl, fun h => absurd h h3, fun _ _ => rfl, .inl rfl⟩, rfl⟩

theorem handler_kept (i : Instr) {s t : State} (h : handler i s = .ok t) :
    Kept i s t ∧ t.eip = s.eip + BitVec.ofNat 32 (advance s i) := by
  have up : ∀ (p : Prefix) (j : Instr) (s t : State), (Kept j (s.consume 1) t ∧ t.eip = (s.consume 1).eip + BitVec.ofNat 32 (advance (s.consume 1) j)) →
      Kept (p.before j) s t ∧ t.eip = s.eip + BitVec.ofNat 32 (advance s (p.before j)) := by
    rintro p j s t ⟨⟨a1, a2, a3, a4, a5, a6, a7, a8, a9, a10, a11, a12, a13⟩, he⟩
    have hb : (p.before j).body = j.body := by simp
    refine ⟨⟨a1, a2, a3, a4, a5, a6, a7, by rwa [hb], by rwa [hb], by rwa [hb], by rwa [hb], a12, a13⟩, ?_⟩
    rw [he]
    have : advance s (p.before j) = 1 + advance (s.consume 1) j := by
      have hl : (encode (p.before j)).length = (encode j).length + 1 := by simp [encode, tailBytes_before]
      have hp : 0 < (encode j).length := by simp [encode]
      simp only [advance, hb, hl]
      show (if j.body = .hlt ∧ s.cfg.hltAdvancesEip = false then _ else _) = 1 + (if j.body = .hlt ∧ s.cfg.hltAdvancesEip = false then _ else _)
      split <;> omega
    rw [this, BitVec.ofNat_add]
    simp [State.consume, BitVec.add_assoc]
  have fin : ∀ {i : Instr} {s : State} {n : Nat}, i.prefixes = [] → i.body ≠ .hlt → i.tailBytes.length = n →
      (Kept i s t ∧ t.eip = s.eip + BitVec.ofNat 32 (n + 1)) → Kept i s t ∧ t.eip = s.eip + BitVec.ofNat 32 (advance s i) := by
    rintro i s n hi h3 hn ⟨a, b⟩
    refine ⟨a, ?_⟩
    rw [b]; simp [advance, h3, encode, hi, hn]
  induction i generalizing s with
  | es j ih => exact up .es j s t (ih h)
  | cs j ih => exact up .cs j s t (ih h)
  | ss j ih => exact up .ss j s t (ih h)
  | ds j ih => exact up .ds j s t (ih h)
  | fs j ih => exact up .fs j s t (ih h)
  | gs j ih => exact up .gs j s t (ih h)
  | o16 j ih => exact up .o16 j s t (ih h)
  | a16 j ih => exact up .a16 j s t (ih h)
  | addEbGb e g => rw [handler_addEbGb] at h; exact fin rfl (by simp [Instr.body]) (RM.encode_length e g) (rmReg_kept (by simp [Instr.body]) h)
  | addEvGv w e g => rw [handler_addEvGv] at h; exact fin rfl (by simp [Instr.body]) (RM.encode_length e g) (rmReg_kept (by simp [Instr.body]) h)
  | addGbEb g e => rw [handler_addGbEb] at h; exact fin rfl (by simp [Instr.body]) (RM.encode_length e g) (regRm_kept (by simp [Instr.body]) h)
  | addGvEv w g e => rw [handler_addGvEv] at h; exact fin rfl (by simp [Instr.body]) (RM.encode_length e g) (regRm_kept (by simp [Instr.body]) h)
  | orEbGb e g => rw [handler_orEbGb] at h; exact fin rfl (by simp [Instr.body]) (RM.encode_length e g) (rmReg_kept (by simp [Instr.body]) h)
  | orEvGv w e g => rw [handler_orEvGv] at h; exact fin rfl (by simp [Instr.body]) (RM.encode_length e g) (rmReg_kept (by simp [Instr.body]) h)
  | orGbEb g e => rw [handler_orGbEb] at h; exact fin rfl (by simp [Instr.body]) (RM.encode_length e g) (regRm_kept (by simp [Instr.body]) h)
  | orGvEv w g e => rw [handler_orGvEv] at h; exact fin rfl (by simp [Instr.body]) (RM.encode_length e g) (regRm_kept (by simp [Instr.body]) h)
  | adcEbGb e g => rw [handler_adcEbGb] at h; exact fin rfl (by simp [Instr.body]) (RM.encode_length e g) (rmReg_kept (by simp [Instr.body]) h)
  | adcEvGv w e g => rw [handler_adcEvGv] at h; exact fin rfl (by simp [Instr.body]) (RM.encode_length e g) (rmReg_kept (by simp [Instr.body]) h)
  | adcGbEb g e => rw [handler_adcGbEb] at h; exact fin rfl (by simp [Instr.body]) (RM.encode_length e g) (regRm_kept (by simp [Instr.body]) h)
  | adcGvEv w g e => rw [handler_adcGvEv] at h; exact fin rfl (by simp [Instr.body]) (RM.encode_length e g) (regRm_kept (by simp [Instr.body]) h)
  | addALIb v => rw [handler_addALIb] at h; exact fin rfl (by simp [Instr.body]) rfl (acc_kept (by simp [Instr.body]) h)
  | orALIb v => rw [handler_orALIb] at h; exact fin rfl (by simp [Instr.body]) rfl (acc_kept (by simp [Instr.body]) h)
  | adcALIb v => rw [handler_adcALIb] at h; exact fin rfl (by simp [Instr.body]) rfl (acc_kept (by simp [Instr.body]) h)
  | addEAXIz z => rw [handler_addEAXIz] at h; exact fin rfl (by simp [Instr.body]) rfl (accZ_kept (by simp [Instr.body]) h)
  | orEAXIz z => rw [handler_orEAXIz] at h; exact fin rfl (by simp [Instr.body]) rfl (accZ_kept (by simp [Instr.body]) h)
  | adcEAXIz z => rw [handler_adcEAXIz] at h; exact fin rfl (by simp [Instr.body]) rfl (accZ_kept (by simp [Instr.body]) h)
  | pushES => rw [handler_pushES] at h; exact fin rfl (by simp [Instr.body]) rfl (push_kept (by simp [Instr.body]) h)
  | pushCS => rw [handler_pushCS] at h; exact fin rfl (by simp [Instr.body]) rfl (push_kept (by simp [Instr.body]) h)
  | pushSS => rw [handler_pushSS] at h; exact fin rfl (by simp [Instr.body]) rfl (push_kept (by simp [Instr.body]) h)
  | popES => rw [handler_popES] at h; exact fin rfl (by simp [Instr.body]) rfl (pop_kept (by simp [Instr.body]) (.inl ⟨rfl, rfl⟩) h)
  | popSS => rw [handler_popSS] at h; exact fin rfl (by simp [Instr.body]) rfl (pop_kept (by simp [Instr.body]) (.inr ⟨rfl, rfl⟩) h)
  | hlt =>
    simp only [handler, hlt, Except.ok.injEq] at h
    subst h
    constructor
    · split <;> exact ⟨rfl, rfl, rfl, rfl, rfl, rfl, rfl, fun _ => rfl, fun _ => rfl, fun h => absurd rfl h, fun _ => rfl, fun _ _ => rfl, .inl rfl⟩
    · simp only [advance, Instr.body, true_and]
      cases s.cfg.hltAdvancesEip <;> simp [State.consume, encode, Instr.prefixes, Instr.tailBytes, Instr.rm?, Instr.immBytes, State.finalAdvance]

theorem rmReg_error {s : State} {op w e g a} (h : aluRmReg op w e g s = .error a) : ∃ b, a = s.outOfRangeAt b := by
  rcases e with n | x
  · rw [aluRmReg_reg] at h; simp [aluAcc] at h
  · cases hr : s.inRange (s.ea x) w
    · rw [aluRmReg_mem_error hr] at h; cases h; exact ⟨_, rfl⟩
    · rw [aluRmReg_mem hr] at h; simp [aluAcc] at h
theorem regRm_error {s : State} {op w e g a} (h : aluRegRm op w g e s = .error a) : ∃ b, a = s.outOfRangeAt b := by
  rcases e with n | x
  · rw [aluRegRm_reg] at h; simp [aluAcc] at h
  · cases hr : s.inRange (s.ea x) w
    · rw [aluRegRm_mem_error hr] at h; cases h; exact ⟨_, rfl⟩
    · rw [aluRegRm_mem hr] at h; simp [aluAcc] at h
theorem push_error {s : State} {x a} (h : pushSeg x s = .error a) : ∃ b, a = s.outOfRangeAt b := by
  cases hr : s.inRange (s.esp - 2) .w16
  · rw [pushSeg_error hr] at h; cases h; exact ⟨_, rfl⟩
  · rw [pushSeg_ok hr] at h; simp [aluAcc] at h
theorem pop_error {s : State} {x a} (h : popSeg x s = .error a) : ∃ b, a = s.outOfRangeAt b := by
  cases hr : s.inRange s.esp .w16
  · rw [popSeg_error hr] at h; cases h; exact ⟨_, rfl⟩
  · rw [popSeg_ok hr] at h; simp [aluAcc] at h
theorem handler_error (i : Instr) {s : State} {a : Nat} (h : handler i s = .error a) : ∃ b, a = s.outOfRangeAt b := by
  induction i generalizing s with
  | es j ih => exact (ih (s := s.consume 1) h).imp fun _ e => e
  | cs j ih => exact (ih (s := s.consume 1) h).imp fun _ e => e
  | ss j ih => exact (ih (s := s.consume 1) h).imp fun _ e => e
  | ds j ih => exact (ih (s := s.consume 1) h).imp fun _ e => e
  | fs j ih => exact (ih (s := s.consume 1) h).imp fun _ e => e
  | gs j ih => exact (ih (s := s.consume 1) h).imp fun _ e => e
  | o16 j ih => exact (ih (s := s.consume 1) h).imp fun _ e => e
  | a16 j ih => exact (ih (s := s.consume 1) h).imp fun _ e => e
  | addEbGb e g => rw [handler_addEbGb] at h; exact rmReg_error h
  | addEvGv w e g => rw [handler_addEvGv] at h; exact rmReg_error h
  | addGbEb g e => rw [handler_addGbEb] at h; exact regRm_error h
  | addGvEv w g e => rw [handler_addGvEv] at h; exact regRm_error h
  | orEbGb e g => rw [handler_orEbGb] at h; exact rmReg_error h
  | orEvGv w e g => rw [handler_orEvGv] at h; exact rmReg_error h
  | orGbEb g e => rw [handler_orGbEb] at h; exact regRm_error h
  | orGvEv w g e => rw [handler_orGvEv] at h; exact regRm_error h
  | adcEbGb e g => rw [handler_adcEbGb] at h; exact rmReg_error h
  | adcEvGv w e g => rw [handler_adcEvGv] at h; exact rmReg_error h
  | adcGbEb g e => rw [handler_adcGbEb] at h; exact regRm_error h
  | adcGvEv w g e => rw [handler_adcGvEv] at h; exact regRm_error h
  | addALIb v => rw [handler_addALIb] at h; simp [aluAcc] at h
  | orALIb v => rw [handler_orALIb] at h; simp [aluAcc] at h
  | adcALIb v => rw [handler_adcALIb] at h; simp [aluAcc] at h
  | addEAXIz z => rw [handler_addEAXIz] at h; cases z <;> simp [aluAccZ, aluAcc] at h
  | orEAXIz z => rw [handler_orEAXIz] at h; cases z <;> simp [aluAccZ, aluAcc] at h
  | adcEAXIz z => rw [handler_adcEAXIz] at h; cases z <;> simp [aluAccZ, aluAcc] at h
  | pushES => rw [handler_pushES] at h; exact push_error h
  | pushCS => rw [handler_pushCS] at h; exact push_error h
  | pushSS => rw [handler_pushSS] at h; exact push_error h
  | popES => rw [handler_popES] at h; exact pop_error h
  | popSS => rw [handler_popSS] at h; exact pop_error h
  | hlt => simp [handler, hlt] at h
/-- An address at which decoding stops is the report of an access out of range. -/
theorem fetchDecode_outOfRange {s : State} {a : Nat} (h : s.fetchDecode = .error (.outOfRange a)) :
    ∃ b, a = s.outOfRangeAt b := by
  obtain ⟨off, w, hr⟩ := decodeWith_outOfRange h
  cases hi : s.inRange (s.eip + BitVec.ofNat 32 off) w
  · rw [State.streamReader, State.memRead_error hi] at hr
    injection hr with hr
    exact ⟨_, hr.symm⟩
  · rw [State.streamReader, State.memRead_ok hi] at hr
    cases hr

/-- Everything a step that has a next state can have done. -/
theorem step_next_cases {s t : State} (h : step s = .next t) :
    (s.stopped = true ∧ t = s) ∨ (s.stopped = false ∧
      ((∃ i n, s.fetchDecode = .ok (i, n) ∧ handler i s = .ok t) ∨
       (∃ b, t = takeFault s (s.outOfRangeAt b)) ∨
       (∃ ps op, s.fetchDecode = .error (.unmapped ps op) ∧ t = { s with
          eip := s.eip + BitVec.ofNat 32 (ps.length + 1)
          diag := s.diag ++ [{ byte := op, addr := s.eip + BitVec.ofNat 32 ps.length }] }))) := by
  rcases step_cases s with ⟨h1, h2⟩ | ⟨h1, ⟨i, n, h2, h3⟩ | ⟨a, h2, h3⟩ | ⟨ps, op, h2, h3⟩ | ⟨h2, h3⟩⟩
  · rw [h2] at h
    cases h
    exact .inl ⟨h1, rfl⟩
  · refine .inr ⟨h1, ?_⟩
    rw [h3] at h
    rcases exec_cases i s with ⟨u, h4, h5⟩ | ⟨a, h4, h5⟩
    · rw [h5] at h
      cases h
      exact .inl ⟨i, n, h2, h4⟩
    · rw [h5] at h
      cases h
      obtain ⟨b, rfl⟩ := handler_error i h4
      exact .inr (.inl ⟨b, rfl⟩)
  · rw [h3] at h
    cases h
    obtain ⟨b, rfl⟩ := fetchDecode_outOfRange h2
    exact .inr ⟨h1, .inr (.inl ⟨b, rfl⟩)⟩
  · rw [h3, unmappedOpcode_eq] at h
    cases h
    exact .inr ⟨h1, .inr (.inr ⟨ps, op, h2, rfl⟩)⟩
  · rw [h3] at h
    cases h

/-- An instruction behind n consumed bytes does what it does alone, n bytes further on (30_encoding.md R74, R75). -/
theorem handler_consume (i : Instr) (s : State) (n : Nat) :
    handler i (s.consume n) = (handler i s).map (fun t => t.consume n) := by
  have comm : ∀ (s : State) a b, (s.consume a).consume b = (s.consume b).consume a := by
    intro s a b
    rw [State.consume_consume, State.consume_consume, Nat.add_comm]
  have wc : ∀ (s : State) (f : BitVec flagIndexCount) (r : RegNum) (w : Width) (v : BitVec w.bits) (k : Nat),
      (State.writeReg { s.consume n with eflags := f } r w v).consume k =
        ((State.writeReg { s with eflags := f } r w v).consume k).consume n := by
    intro s f r w v k
    show ((State.consume { s with eflags := f } n).writeReg r w v).consume k = _
    rw [State.writeReg_consume, comm]
  have mc : ∀ (s : State) (f : BitVec flagIndexCount) (m : Memory) (k : Nat),
      State.consume { s.consume n with eflags := f, mem := m } k = (State.consume { s with eflags := f, mem := m } k).consume n :=
    fun s f m k => comm { s with eflags := f, mem := m } n k
  have hrm : ∀ (s : State) op w e g', aluRmReg op w e g' (s.consume n) = (aluRmReg op w e g' s).map (fun t => t.consume n) := by
    intro s op w e g'
    rcases e with r | x
    · rw [aluRmReg_reg, aluRmReg_reg, State.readReg_consume, State.readReg_consume]
      exact congrArg Except.ok (wc ..)
    · cases hr : s.inRange (s.ea x) w
      · rw [aluRmReg_mem_error hr, aluRmReg_mem_error (by rw [State.ea_consume]; exact hr), State.ea_consume]
        rfl
      · rw [aluRmReg_mem hr, aluRmReg_mem (by rw [State.ea_consume]; exact hr), State.ea_consume, State.readReg_consume]
        exact congrArg Except.ok (mc ..)
  have hgr : ∀ (s : State) op w e g', aluRegRm op w g' e (s.consume n) = (aluRegRm op w g' e s).map (fun t => t.consume n) := by
    intro s op w e g'
    rcases e with r | x
    · rw [aluRegRm_reg, aluRegRm_reg, State.readReg_consume, State.readReg_consume]
      exact congrArg Except.ok (wc ..)
    · cases hr : s.inRange (s.ea x) w
      · rw [aluRegRm_mem_error hr, aluRegRm_mem_error (by rw [State.ea_consume]; exact hr), State.ea_consume]
        rfl
      · rw [aluRegRm_mem hr, aluRegRm_mem (by rw [State.ea_consume]; exact hr), State.ea_consume, State.readReg_consume]
        exact congrArg Except.ok (wc ..)
  have hac : ∀ (s : State) op w v, aluAcc op w v (s.consume n) = (aluAcc op w v s).map (fun t => t.consume n) := by
    intro s op w v
    rw [aluAcc_eq, aluAcc_eq, State.readReg_consume]
    exact congrArg Except.ok (wc ..)
  have hpu : ∀ (s : State) x, pushSeg x (s.consume n) = (pushSeg x s).map (fun t => t.consume n) := by
    intro s x
    cases hr : s.inRange (s.esp - 2) .w16
    · rw [pushSeg_error hr, pushSeg_error (by exact hr)]
      rfl
    · rw [pushSeg_ok hr, pushSeg_ok (by exact hr)]
      have hx : (s.consume n).segReg x = s.segReg x := by cases x <;> rfl
      rw [hx]
      exact congrArg Except.ok (comm { s with esp := _, mem := _ } n 1)
  have hpo : ∀ (s : State) x, popSeg x (s.consume n) = (popSeg x s).map (fun t => t.consume n) := by
    intro s x
    cases hr : s.inRange s.esp .w16
    · rw [popSeg_error hr, popSeg_error (by exact hr)]
      rfl
    · rw [popSeg_ok hr, popSeg_ok (by exact hr)]
      have hx : ((s.consume n).setGpr .esp ((s.consume n).esp + 2)).setSeg x (BitVec.ofNat 16 ((s.consume n).mem.load (s.consume n).esp.toNat 2)) =
          ((s.setGpr .esp (s.esp + 2)).setSeg x (BitVec.ofNat 16 (s.mem.load s.esp.toNat 2))).consume n := by cases x <;> rfl
      rw [hx]
      exact congrArg Except.ok (comm _ n 1)
  induction i generalizing s with
  | es j ih => show handler j ((s.consume n).consume 1) = _; rw [comm]; exact ih (s.consume 1)
  | cs j ih => show handler j ((s.consume n).consume 1) = _; rw [comm]; exact ih (s.consume 1)
  | ss j ih => show handler j ((s.consume n).consume 1) = _; rw [comm]; exact ih (s.consume 1)
  | ds j ih => show handler j ((s.consume n).consume 1) = _; rw [comm]; exact ih (s.consume 1)
  | fs j ih => show handler j ((s.consume n).consume 1) = _; rw [comm]; exact ih (s.consume 1)
  | gs j ih => show handler j ((s.consume n).consume 1) = _; rw [comm]; exact ih (s.consume 1)
  | o16 j ih => show handler j ((s.consume n).consume 1) = _; rw [comm]; exact ih (s.consume 1)
  | a16 j ih => show handler j ((s.consume n).consume 1) = _; rw [comm]; exact ih (s.consume 1)
  | addEbGb e g => rw [handler_addEbGb, handler_addEbGb]; exact hrm ..
  | addEvGv w e g => rw [handler_addEvGv, handler_addEvGv]; exact hrm ..
  | addGbEb g e => rw [handler_addGbEb, handler_addGbEb]; exact hgr ..
  | addGvEv w g e => rw [handler_addGvEv, handler_addGvEv]; exact hgr ..
  | orEbGb e g => rw [handler_orEbGb, handler_orEbGb]; exact hrm ..
  | orEvGv w e g => rw [handler_orEvGv, handler_orEvGv]; exact hrm ..
  | orGbEb g e => rw [handler_orGbEb, handler_orGbEb]; exact hgr ..
  | orGvEv w g e => rw [handler_orGvEv, handler_orGvEv]; exact hgr ..
  | adcEbGb e g => rw [handler_adcEbGb, handler_adcEbGb]; exact hrm ..
  | adcEvGv w e g => rw [handler_adcEvGv, handler_adcEvGv]; exact hrm ..
  | adcGbEb g e => rw [handler_adcGbEb, handler_adcGbEb]; exact hgr ..
  | adcGvEv w g e => rw [handler_adcGvEv, handler_adcGvEv]; exact hgr ..
  | addALIb v => rw [handler_addALIb, handler_addALIb]; exact hac ..
  | orALIb v => rw [handler_orALIb, handler_orALIb]; exact hac ..
  | adcALIb v => rw [handler_adcALIb, handler_adcALIb]; exact hac ..
  | addEAXIz z => rw [handler_addEAXIz, handler_addEAXIz]; cases z <;> simp only [aluAccZ] <;> exact hac ..
  | orEAXIz z => rw [handler_orEAXIz, handler_orEAXIz]; cases z <;> simp only [aluAccZ] <;> exact hac ..
  | adcEAXIz z => rw [handler_adcEAXIz, handler_adcEAXIz]; cases z <;> simp only [aluAccZ] <;> exact hac ..
  | pushES => rw [handler_pushES, handler_pushES]; exact hpu s .es
  | pushCS => rw [handler_pushCS, handler_pushCS]; exact hpu s .cs
  | pushSS => rw [handler_pushSS, handler_pushSS]; exact hpu s .ss
  | popES => rw [handler_popES, handler_popES]; exact hpo s .es
  | popSS => rw [handler_popSS, handler_popSS]; exact hpo s .ss
  | hlt =>
    show Except.ok (if s.cfg.hltAdvancesEip then _ else _) = Except.map _ (Except.ok (if s.cfg.hltAdvancesEip then _ else _))
    split
    · exact congrArg Except.ok (comm { s with halted := true } n 1)
    · rfl

end Sys2Proof.Machine
end

