-- ==== Sys2Proof/Laws/Fetch.lean ====
section
/-! SUPPORT. The decoder field by field, from any reader: what it answers when the fields of an instruction are read, and
when one of them cannot be read; and the machine's reader as such a stream. -/

namespace Sys2Proof

open Sys2Proof.Machine Sys2Proof.Spec

/-- The fields fs as a reader answers them from `off` on: all of them (none), or up to one it stops at with an address. -/
inductive Stream (rd : Reader) : (off : Nat) → (fs : List (List Byte)) → Option Nat → Prop where
  | done {off : Nat} : Stream rd off [] none
  | stop {off a : Nat} {f : List Byte} {gs : List (List Byte)} (h : ∀ w : Width, w.bytes = f.length → rd off w = .error a) :
      Stream rd off (f :: gs) (some a)
  | more {off : Nat} {f : List Byte} {fs : List (List Byte)} {r : Option Nat}
      (h : ∀ (w : Width) (v : BitVec w.bits), leBytes w.bytes v.toNat = f → rd off w = .ok v)
      (ht : Stream rd (off + f.length) fs r) : Stream rd off (f :: fs) r

/-- What a read of a value v answers on a stream. -/
def outcome {α : Type} (v : α) : Option Nat → Except Nat α
  | none => .ok v
  | some a => .error a

variable {rd : Reader} {off : Nat} {r : Option Nat}

/-- Reading one byte and going on. -/
theorem Stream.byte_bind {α : Type} {b : Byte} {fs : List (List Byte)} (h : Stream rd off ([b] :: fs) r)
    {k : Byte → Except Nat α} {v : α} (hk : Stream rd (off + 1) fs r → k b = outcome v r) :
    (rd off .w8 >>= k) = outcome v r := by
  cases h with
  | stop h => rw [h .w8 rfl]; rfl
  | more h ht => rw [h .w8 b (leBytes_one b)]; exact hk ht

/-- Reading the last field of a value of width w. -/
theorem Stream.last_bind {α : Type} {w : Width} {d : BitVec w.bits} (h : Stream rd off [leBytes w.bytes d.toNat] r)
    {k : BitVec w.bits → Except Nat α} {v : α} (hk : k d = .ok v) : (rd off w >>= k) = outcome v r := by
  cases h with
  | stop h => rw [h w (by simp)]; rfl
  | more h ht => rw [h w d rfl]; cases ht; exact hk

theorem fieldOf_leBytes {n v : Nat} : fieldOf (leBytes (n + 1) v) = [leBytes (n + 1) v] := by simp [fieldOf, leBytes]

theorem readDisp_stream {w : OpSize} {d : Disp w.width.bits} (h : Stream rd off (fieldOf d.bytes) r) :
    readDisp rd off d.mod w = outcome (d, d.bytes.length) r := by
  cases d with
  | d0 => cases h; rfl
  | d8 d =>
    have h : Stream rd off [leBytes 1 d.toNat] r := by rw [leBytes_one]; exact h
    exact Stream.last_bind (w := .w8) h rfl
  | full d =>
    cases w
    · have h : Stream rd off (fieldOf (leBytes (1 + 1) d.toNat)) r := h
      exact Stream.last_bind (w := .w16) (fieldOf_leBytes ▸ h) rfl
    · have h : Stream rd off (fieldOf (leBytes (3 + 1) d.toNat)) r := h
      exact Stream.last_bind (w := .w32) (fieldOf_leBytes ▸ h) rfl

theorem outcome_bind {α β : Type} {v : α} {k : α → Except Nat β} {u : β} (hk : r = none → k v = .ok u) :
    (outcome v r >>= k) = outcome u r := by
  cases r with
  | none => exact hk rfl
  | some a => rfl

theorem readAddr16_stream {x : Addr16} (hw : x.wf = true) (h : Stream rd off (fieldOf (RM.mem (.a16 x)).dispBytes) r) :
    readAddr16 rd off (RM.mem (.a16 x)).mod (RM.mem (.a16 x)).rm = outcome (x, (RM.mem (.a16 x)).dispBytes.length) r := by
  unfold readAddr16
  cases x with
  | disp d =>
    have h : Stream rd off (fieldOf (leBytes (1 + 1) d.toNat)) r := h
    rw [if_pos ⟨rfl, rfl⟩]
    exact Stream.last_bind (w := .w16) (fieldOf_leBytes ▸ h) rfl
  | based b d =>
    rw [if_neg]
    · simp only [RM.mod, RM.rm, RM.dispBytes]
      rw [readDisp_stream (w := .o16) h, outcome_bind fun _ => ?_]
      simp [base16_ofBits_iff.mpr rfl, pure, Except.pure]
    · rintro ⟨h6, h0⟩
      cases b <;> simp [RM.rm, Base16.bits] at h6
      cases d <;> simp [RM.mod, Disp.mod, Addr16.wf] at h0 hw

theorem readAddr32_stream {x : Addr32} (hw : x.wf = true)
    (h : Stream rd off ((RM.mem (.a32 x)).sib.toList.map (fun b => [b]) ++ fieldOf (RM.mem (.a32 x)).dispBytes) r) :
    readAddr32 rd off (RM.mem (.a32 x)).mod (RM.mem (.a32 x)).rm =
      outcome (x, ((RM.mem (.a32 x)).sib.toList ++ (RM.mem (.a32 x)).dispBytes).length) r := by
  unfold readAddr32
  cases x with
  | disp d =>
    have h : Stream rd off (fieldOf (leBytes (3 + 1) d.toNat)) r := h
    rw [if_neg (by simp [RM.rm]), if_pos ⟨rfl, rfl⟩]
    exact Stream.last_bind (w := .w32) (fieldOf_leBytes ▸ h) rfl
  | based b d =>
    simp [Addr32.wf] at hw
    rw [if_neg (by cases b <;> simp_all [RM.rm, RegNum.bits]), if_neg]
    · simp only [RM.mod, RM.rm, RM.dispBytes]
      rw [readDisp_stream (w := .o32) h, outcome_bind fun _ => ?_]
      simp [regNum_ofBits_iff.mpr rfl, pure, Except.pure, RM.sib]
    · rintro ⟨h5, h0⟩
      cases b <;> simp [RM.rm, RegNum.bits] at h5
      cases d <;> simp [RM.mod, Disp.mod] at h0 hw
  | sib sc i b d =>
    simp [Addr32.wf] at hw
    rw [if_pos (show (RM.mem (.a32 (.sib sc i b d))).rm = 4 from rfl)]
    refine Stream.byte_bind h fun h => ?_
    simp only [topField_fieldsByte, midField_fieldsByte, lowField_fieldsByte, RM.mod]
    rw [if_neg]
    · rw [readDisp_stream (w := .o32) h, outcome_bind fun _ => ?_]
      simp [regNum_ofBits_iff.mpr rfl, scale_ofBits_iff.mpr rfl, indexOfBits_iff.mpr ⟨rfl, hw.1⟩, pure, Except.pure, RM.sib,
        RM.dispBytes]
      omega
    · rintro ⟨h5, h0⟩
      cases b <;> simp [RegNum.bits] at h5
      cases d <;> simp [Disp.mod] at h0 hw
  | sibDisp sc i d =>
    simp [Addr32.wf] at hw
    rw [if_pos (show (RM.mem (.a32 (.sibDisp sc i d))).rm = 4 from rfl)]
    refine Stream.byte_bind h fun h => ?_
    have h : Stream rd (off + 1) (fieldOf (leBytes (3 + 1) d.toNat)) r := h
    simp only [topField_fieldsByte, midField_fieldsByte, lowField_fieldsByte, RM.mod]
    rw [if_pos ⟨by trivial, by trivial⟩]
    refine Stream.last_bind (w := .w32) (fieldOf_leBytes ▸ h) ?_
    simp [scale_ofBits_iff.mpr rfl, indexOfBits_iff.mpr ⟨rfl, hw⟩, pure, Except.pure, RM.sib, RM.dispBytes]

/-- ModR/M, SIB and displacement: E and G, or the stop (40_effective_address.md R101, R111). -/
theorem readModRM_stream {asz : AdSize} {e : RM} {g : RegNum} (hw : e.wf asz = true)
    (h : Stream rd off ([fieldsByte e.mod g.bits e.rm] :: (e.sib.toList.map fun b => [b]) ++ fieldOf e.dispBytes) r) :
    readModRM rd off asz = outcome (e, g, (e.encode g).length) r := by
  refine Stream.byte_bind h fun h => ?_
  simp only [topField_fieldsByte, midField_fieldsByte, lowField_fieldsByte, regNum_ofBits_iff.mpr rfl]
  rcases e with n | x | x
  · rw [if_pos (show (RM.reg n).mod = 3 from rfl)]
    cases h
    simp [RM.rm, regNum_ofBits_iff.mpr rfl, pure, Except.pure, outcome, RM.encode, RM.sib, RM.dispBytes]
  · have hm : (RM.mem (.a16 x)).mod ≠ 3 := by cases x <;> first | exact disp_mod_ne3 _ | simp [RM.mod]
    cases asz <;> simp [RM.wf] at hw
    rw [if_neg hm, readAddr16_stream hw h]
    refine outcome_bind fun _ => ?_
    simp [pure, Except.pure, RM.encode, RM.sib]
    omega
  · have hm : (RM.mem (.a32 x)).mod ≠ 3 := by cases x <;> first | exact disp_mod_ne3 _ | simp [RM.mod]
    cases asz <;> simp [RM.wf] at hw
    rw [if_neg hm, readAddr32_stream hw h]
    refine outcome_bind fun _ => ?_
    simp [pure, Except.pure, RM.encode]
    omega

theorem readImmZ_stream {z : ImmZ} (h : Stream rd off (fieldOf z.bytes) r) :
    readImmZ rd off z.size = outcome (z, z.bytes.length) r := by
  cases z with
  | i16 v =>
    have h : Stream rd off (fieldOf (leBytes (1 + 1) v.toNat)) r := h
    exact Stream.last_bind (w := .w16) (fieldOf_leBytes ▸ h) (by simp [ImmZ.bytes, pure, Except.pure])
  | i32 v =>
    have h : Stream rd off (fieldOf (leBytes (3 + 1) v.toNat)) r := h
    exact Stream.last_bind (w := .w32) (fieldOf_leBytes ▸ h) (by simp [ImmZ.bytes, pure, Except.pure])

/-- What follows the opcode of an instruction without prefixes, or the stop (30_encoding.md R87). -/
theorem readForm_stream {osz : OpSize} {asz : AdSize} {j : Instr} {f : Form} (hp : j.prefixes = []) (hf : formOf j.opcode = some f)
    (hw : j.wfAt osz asz = true) (h : Stream rd off (tailFields j) r) :
    readForm rd off osz asz f = outcome (j, j.tailBytes.length) r := by
  cases j <;> first | (exfalso; revert hp; simp only [Instr.prefixes]; simp; done) | skip
  all_goals
    obtain rfl := Option.some.inj (Eq.symm hf)
    simp only [Instr.wfAt, Instr.opSize?, Instr.rm?, Bool.and_true, Bool.true_and, Bool.and_eq_true, beq_iff_eq] at hw
  all_goals first
    | (cases h; rfl)
    | (exact Stream.last_bind (w := .w8) (by rw [leBytes_one]; exact h) rfl)
    | (subst hw
       show (readImmZ rd off _ >>= _) = _
       rw [readImmZ_stream h]
       exact outcome_bind fun _ => rfl)
    | (obtain ⟨rfl, hw⟩ := hw
       show (readModRM rd off asz >>= _) = _
       rw [readModRM_stream hw h]
       exact outcome_bind fun _ => rfl)
    | (show (readModRM rd off asz >>= _) = _
       rw [readModRM_stream hw h]
       exact outcome_bind fun _ => rfl)

theorem Stream.append {off : Nat} {fs gs : List (List Byte)} (h : Stream rd off fs none)
    (hg : Stream rd (off + fs.flatten.length) gs r) : Stream rd off (fs ++ gs) r := by
  induction fs generalizing off with
  | nil => exact hg
  | cons f fs ih =>
    cases h with
    | more h ht => exact .more h (ih ht (by simpa [Nat.add_assoc] using hg))

/-- Prefixes and an opcode that are read are scanned, given enough fuel (41_fetch_dispatch.md R123). -/
theorem scan_stream {fuel off : Nat} {ps : List Prefix} {op : Byte} (hn : Prefix.ofByte op = none) (hf : ps.length < fuel)
    (h : Stream rd off ((ps.map fun p => [p.byte]) ++ [[op]]) none) : scanPrefixes rd fuel off = .ok (ps, op) := by
  induction ps generalizing fuel off with
  | nil =>
    obtain ⟨f, rfl⟩ : ∃ f, fuel = f + 1 := ⟨fuel - 1, by simp at hf; omega⟩
    cases h with
    | more h ht => simp only [scanPrefixes, h .w8 op (leBytes_one op), hn]
  | cons p ps ih =>
    obtain ⟨f, rfl⟩ : ∃ f, fuel = f + 1 := ⟨fuel - 1, by simp at hf; omega⟩
    cases h with
    | more h ht =>
      have hr := ih (fuel := f) (off := off + 1) (by simpa using hf) ht
      simp only [scanPrefixes, h .w8 p.byte (leBytes_one _), ofByte_iff.mpr rfl, hr]

/-- A scan stops at the first byte after prefixes that cannot be read (41_fetch_dispatch.md R124). -/
theorem scan_stream_stop {fuel off a : Nat} {ps : List Prefix} (hf : ps.length < fuel)
    (h : Stream rd off (ps.map fun p => [p.byte]) none) (ha : rd (off + ps.length) .w8 = .error a) :
    scanPrefixes rd fuel off = .error (.outOfRange a) := by
  induction ps generalizing fuel off with
  | nil =>
    obtain ⟨f, rfl⟩ : ∃ f, fuel = f + 1 := ⟨fuel - 1, by simp at hf; omega⟩
    simp only [scanPrefixes, show rd off .w8 = .error a from ha]
  | cons p ps ih =>
    obtain ⟨f, rfl⟩ : ∃ f, fuel = f + 1 := ⟨fuel - 1, by simp at hf; omega⟩
    cases h with
    | more h ht =>
      have e : off + 1 + ps.length = off + (p :: ps).length := by simp; omega
      have hr := ih (fuel := f) (off := off + 1) (by simpa using hf) ht (by rw [e]; exact ha)
      simp only [scanPrefixes, h .w8 p.byte (leBytes_one _), ofByte_iff.mpr rfl, hr]

theorem tailFields_before (p : Prefix) (j : Instr) : tailFields (p.before j) = tailFields j := by simp [tailFields]

theorem tailFields_withPrefixes (ps : List Prefix) (j : Instr) : tailFields (j.withPrefixes ps) = tailFields j := by
  induction ps with
  | nil => rfl
  | cons p ps ih => rw [withPrefixes_cons, tailFields_before, ih]

/-- The decoder on the fields of a well-formed instruction: with prefixes and opcode read it answers the instruction, or
stops where one of the other fields does. -/
theorem decodeWith_stream {fuel : Nat} {i : Instr} (hw : i.wf = true) (hf : i.prefixes.length < fuel)
    (h : Stream rd 0 ((i.prefixes.map fun p => [p.byte]) ++ [[i.opcode]]) none)
    (ht : Stream rd (i.prefixes.length + 1) (tailFields i) r) :
    decodeWith rd fuel = (match r with | none => .ok (i, (encode i).length) | some a => .error (.outOfRange a)) := by
  obtain ⟨hm, hn⟩ := opcode_mapped i
  obtain ⟨f, hfo⟩ := Option.isSome_iff_exists.mp hm
  have hi := (withPrefixes_body i).1
  have hb := (withPrefixes_body i).2
  have hop : i.opcode = i.body.opcode := (congrArg Instr.opcode hi).trans (withPrefixes_opcode ..)
  have htl : i.tailBytes = i.body.tailBytes := (congrArg Instr.tailBytes hi).trans (withPrefixes_tail ..)
  have hform := readForm_stream (rd := rd) (off := i.prefixes.length + 1) (r := r) (osz := operandSize i.prefixes)
    (asz := addressSize i.prefixes) hb (hop ▸ hfo)
    (by rw [← withPrefixes_wfAt i.prefixes, ← hi]; exact hw)
    (by rw [← tailFields_withPrefixes i.prefixes, ← hi]; exact ht)
  simp only [decodeWith, scan_stream hn hf h, hfo, hform]
  cases r with
  | none => simp only [outcome, ← hi, encode, htl]; simp; omega
  | some a => rfl

theorem fieldOf_flatten (l : List Byte) : (fieldOf l).flatten = l := by
  unfold fieldOf
  split <;> simp_all

/-- The fields of an instruction are its encoding, cut. -/
theorem fieldsOf_flatten (i : Instr) : (fieldsOf i).flatten = encode i := by
  have hb : ∀ l : List Byte, (l.map fun b => [b]).flatten = l := fun l => by induction l <;> simp_all
  have hp : (i.prefixes.map fun p => [p.byte]).flatten = i.prefixes.map Prefix.byte := by
    rw [← hb (i.prefixes.map Prefix.byte), List.map_map]; rfl
  have ht : (tailFields i).flatten = i.tailBytes := by
    cases hr : i.rm? <;> cases hg : i.reg? <;>
      simp [tailFields, Instr.tailBytes, hr, hg, fieldOf_flatten, hb, RM.encode]
  rw [fieldsOf, List.flatten_append, hp, List.flatten_cons, ht]
  rfl

/-! ### The machine's stream -/

theorem streamAddr_eq (s : State) (off : Nat) : (s.eip + BitVec.ofNat 32 off).toNat = streamAddr s off := by
  simp [streamAddr, BitVec.toNat_add]

theorem Memory.load_of_bytes {m : Memory} {a : Nat} {l : List Byte} (h : ∀ k (h : k < l.length), m.read (a + k) = l[k]) :
    m.load a l.length = leValue l := by
  induction l generalizing a with
  | nil => rfl
  | cons b l ih =>
    have h0 := h 0 (by simp)
    rw [List.length_cons, Memory.load, leValue, ih fun k hk => ?_]
    · rw [show m.read a = b from h0]
    · have := h (k + 1) (by simpa using hk)
      rw [show a + 1 + k = a + (k + 1) by omega]
      simpa using this

/-- Fields that stand at EIP are what the machine reads there. -/
theorem Spec.FieldsAt.stream {s : State} {off : Nat} {fs : List (List Byte)} (h : FieldsAt s off fs) :
    Stream s.streamReader off fs none := by
  induction fs generalizing off with
  | nil => exact .done
  | cons f fs ih =>
    obtain ⟨h1, h2, h3⟩ := h
    refine .more (fun w v hv => ?_) (ih h3)
    have hl : w.bytes = f.length := by rw [← hv, leBytes_length]
    rw [State.streamReader, State.memRead_ok (by rw [State.inRange_iff, streamAddr_eq, hl]; exact h1), streamAddr_eq, hl,
      Memory.load_of_bytes h2, ← hv, leValue_leBytes, ← Width.two_pow_bits, Nat.mod_eq_of_lt v.isLt, BitVec.ofNat_toNat]
    simp

theorem Spec.FieldsAt.append {s : State} {off : Nat} {fs gs : List (List Byte)} :
    FieldsAt s off (fs ++ gs) ↔ FieldsAt s off fs ∧ FieldsAt s (off + fs.flatten.length) gs := by
  induction fs generalizing off with
  | nil => simp [FieldsAt]
  | cons f fs ih => simp [FieldsAt, ih, and_assoc, Nat.add_assoc]

/-- A field that runs past N is reported with max(addr, N) (20_memory.md R53). -/
theorem streamReader_error {s : State} {off : Nat} {w : Width} (h : s.cfg.memSize < streamAddr s off + w.bytes) :
    s.streamReader off w = .error (max (streamAddr s off) s.cfg.memSize) := by
  rw [State.streamReader, State.memRead_error, State.outOfRangeAt, streamAddr_eq]
  rw [← Bool.not_eq_true, State.inRange_iff, streamAddr_eq]
  exact Nat.not_le_of_gt h

/-- Each byte of a list that stands in memory from EIP + off on. -/
theorem Spec.FieldsAt.byte {s : State} {off : Nat} {l : List Byte} (h : FieldsAt s off (l.map fun b => [b])) (k : Nat) (hk : k < l.length) :
    streamAddr s (off + k) < s.cfg.memSize ∧ s.mem.read (streamAddr s (off + k)) = l[k] := by
  induction l generalizing off k with
  | nil => simp at hk
  | cons b l ih =>
    obtain ⟨h1, h2, h3⟩ := h
    cases k with
    | zero => exact ⟨h1, by simpa using h2 0 (by simp)⟩
    | succ k => 
      have := ih h3 k (by simpa using hk)
      rw [show off + (k + 1) = off + [b].length + k by simp; omega]
      simpa using this
/-- With N below 2^32 at most N bytes stand at EIP: the bytes after them lie beyond N (41_fetch_dispatch.md R124). -/
theorem Spec.BytesAtEip.length_le {s : State} {l : List Byte} (h : BytesAtEip s l) (hN : s.cfg.memSize < 4294967296) : l.length ≤ s.cfg.memSize := by
  refine Nat.le_of_not_lt fun hlt => ?_
  by_cases he : s.eip.toNat < s.cfg.memSize
  · have := (Spec.FieldsAt.byte h (s.cfg.memSize - s.eip.toNat) (by omega)).1
    simp only [streamAddr] at this; omega
  · have := (Spec.FieldsAt.byte h 0 (by omega)).1
    have := s.eip.isLt
    simp only [streamAddr] at *; omega
theorem prefixFields_eq (qs : List Prefix) : (qs.map Prefix.byte).map (fun b => [b]) = qs.map fun p => [p.byte] := by simp [Function.comp_def]
/-- Prefixes and a byte that is none stand at EIP: the scan reads fewer than N + 1 prefixes. -/
theorem Spec.BytesAtEip.prefixes_lt {s : State} {qs : List Prefix} {op : Byte} (hc : s.cfg.wf) (hn : Prefix.ofByte op = none) (h : BytesAtEip s (qs.map Prefix.byte ++ [op])) :
    qs.length < s.cfg.memSize + 1 := by
  by_cases hN : s.cfg.memSize < 4294967296
  · have := Spec.BytesAtEip.length_le h hN; simp at this; omega
  · have hN : s.cfg.memSize = 4294967296 := Nat.le_antisymm hc.2 (Nat.le_of_not_lt hN)
    refine Nat.lt_succ_of_le (Nat.le_of_not_lt fun hlt => ?_)
    have h1 := (Spec.FieldsAt.byte h qs.length (by simp)).2
    have h2 := (Spec.FieldsAt.byte h (qs.length - 4294967296) (by simp <;> omega)).2
    have e : streamAddr s (0 + (qs.length - 4294967296)) = streamAddr s (0 + qs.length) := by simp only [streamAddr]; omega
    rw [e, h1] at h2
    rw [List.getElem_append_right (by simp), List.getElem_append_left (by simp; omega)] at h2
    simp at h2
    rw [h2, ofByte_iff.mpr rfl] at hn
    cases hn

end Sys2Proof
end

