-- ==== Sys2Proof/Laws/Record.lean ====
section
/-! SUPPORT. The opcode record of a cycle (10_state.md R40) against what the cycle decodes, from any reader. -/

namespace Sys2Proof

open Sys2Proof.Machine

variable {rd : Reader} {fuel off : Nat}

/-- A scan that ends at an opcode has recorded its prefixes and that byte (41_fetch_dispatch.md R123). -/
theorem scanRecord_of_scan {ps : List Prefix} {op : Byte} (h : scanPrefixes rd fuel off = .ok (ps, op)) :
    scanRecord rd fuel off = (ps.map Prefix.byte, some op) := by
  induction fuel generalizing off ps with
  | zero => cases h
  | succ fuel ih =>
    simp only [scanPrefixes] at h
    split at h
    · cases h
    · next b hb =>
      split at h
      · next hn =>
        cases h
        simp [scanRecord, hb, hn]
      · next p hp =>
        split at h
        · cases h
        · next qs o hq =>
          simp only [Except.ok.injEq, Prod.mk.injEq] at h
          obtain ⟨rfl, rfl⟩ := h
          simp only [scanRecord, hb, hp, ih hq]
          rw [List.map_cons, ← ofByte_iff.mp hp]

/-- A scan that stops at a byte it cannot read has recorded no opcode (41_fetch_dispatch.md R124). -/
theorem scanRecord_of_stop {a : Nat} (h : scanPrefixes rd fuel off = .error (.outOfRange a)) :
    (scanRecord rd fuel off).2 = none := by
  induction fuel generalizing off with
  | zero => rfl
  | succ fuel ih =>
    simp only [scanPrefixes] at h
    split at h
    · next hb => simp [scanRecord, hb]
    · next b hb =>
      split at h
      · cases h
      · next p hp =>
        split at h
        · next e he =>
          cases h
          simp [scanRecord, hb, hp, ih he]
        · cases h

/-- The scan looks no opcode up. -/
theorem scanPrefixes_ne_unmapped (fuel off : Nat) (ps : List Prefix) (op : Byte) :
    ¬scanPrefixes rd fuel off = .error (.unmapped ps op) := by
  induction fuel generalizing off with
  | zero => simp [scanPrefixes]
  | succ fuel ih =>
    simp only [scanPrefixes]
    split
    · simp
    · split
      · simp
      · split
        · next he =>
          intro h
          cases h
          exact ih _ he
        · simp

/-- The record's test for 0x67 is the decoder's (30_encoding.md R73). -/
theorem a16_recorded (ps : List Prefix) : Prefix.byte .a16 ∈ ps.map Prefix.byte ↔ Prefix.a16 ∈ ps := by
  simp only [List.mem_map]
  constructor
  · rintro ⟨p, hp, hb⟩
    cases p <;> first | exact hp | (exact absurd hb (by decide))
  · exact fun h => ⟨_, h, rfl⟩

/-! ### The fields a finished read leaves -/

theorem readDisp_mod {mod : BitVec 2} {w : OpSize} {d : Disp w.width.bits} {n : Nat} (hm : mod ≠ 3)
    (h : readDisp rd off mod w = .ok (d, n)) : d.mod = mod := by
  have hc : ∀ m : BitVec 2, m ≠ 3 → m = 0 ∨ m = 1 ∨ m = 2 := by decide
  rcases hc mod hm with rfl | rfl | rfl
  · obtain ⟨rfl, rfl⟩ := by simpa [readDisp] using h
    rfl
  · obtain ⟨_, _, h⟩ := bind_ok_iff.mp (show (rd off .w8 >>= fun d => pure (Disp.d8 d, 1)) = .ok (d, n) from h)
    obtain ⟨rfl, rfl⟩ := by simpa [pure_ok_iff] using h
    rfl
  · obtain ⟨_, _, h⟩ := bind_ok_iff.mp (show (rd off w.width >>= fun d => pure (Disp.full d, w.width.bytes)) = .ok (d, n) from h)
    obtain ⟨rfl, rfl⟩ := by simpa [pure_ok_iff] using h
    rfl

theorem readAddr16_fields {mod : BitVec 2} {rm : BitVec 3} {x : Addr16} {n : Nat} (hm : mod ≠ 3)
    (h : readAddr16 rd off mod rm = .ok (x, n)) : (RM.mem (.a16 x)).mod = mod ∧ (RM.mem (.a16 x)).rm = rm := by
  unfold readAddr16 at h
  split at h
  · next hc =>
    obtain ⟨_, _, h⟩ := bind_ok_iff.mp h
    obtain ⟨rfl, rfl⟩ := by simpa [pure_ok_iff] using h
    exact ⟨hc.2.symm, hc.1.symm⟩
  · obtain ⟨⟨d, k⟩, hd, h⟩ := bind_ok_iff.mp h
    obtain ⟨rfl, rfl⟩ := by simpa [pure_ok_iff] using h
    exact ⟨readDisp_mod (w := .o16) hm hd, (base16_ofBits_iff.mp rfl).symm⟩

theorem readSib_fields {mod : BitVec 2} {x : Addr32} {n : Nat} (hm : mod ≠ 3) (h : readSib rd off mod = .ok (x, n)) :
    (RM.mem (.a32 x)).mod = mod ∧ (RM.mem (.a32 x)).rm = 4 ∧
      ∃ s, rd off .w8 = .ok s ∧ (RM.mem (.a32 x)).sib = some s := by
  obtain ⟨s, hs, h⟩ := bind_ok_iff.mp h
  have hi := (indexOfBits_iff.mp (rfl : indexOfBits (midField s) = indexOfBits (midField s))).1
  split at h
  · next hc =>
    obtain ⟨_, _, h⟩ := bind_ok_iff.mp h
    obtain ⟨rfl, rfl⟩ := by simpa [pure_ok_iff] using h
    exact ⟨hc.2.symm, rfl, s, hs, congrArg some (fieldsByte_eq_iff.mpr ⟨scale_ofBits_iff.mp rfl, hi, hc.1⟩).symm⟩
  · obtain ⟨⟨d, k⟩, hd, h⟩ := bind_ok_iff.mp h
    obtain ⟨rfl, rfl⟩ := by simpa [pure_ok_iff] using h
    exact ⟨readDisp_mod (w := .o32) hm hd, rfl, s, hs,
      congrArg some (fieldsByte_eq_iff.mpr ⟨scale_ofBits_iff.mp rfl, hi, regNum_ofBits_iff.mp rfl⟩).symm⟩

theorem readAddr32_fields {mod : BitVec 2} {rm : BitVec 3} {x : Addr32} {n : Nat} (hm : mod ≠ 3)
    (h : readAddr32 rd off mod rm = .ok (x, n)) :
    (RM.mem (.a32 x)).mod = mod ∧ (RM.mem (.a32 x)).rm = rm ∧
      (RM.mem (.a32 x)).sib = (if rm = 4 then (rd off .w8).toOption else none) := by
  unfold readAddr32 at h
  split at h
  · next h4 =>
    obtain ⟨h1, h2, s, hs, h3⟩ := readSib_fields hm h
    exact ⟨h1, h2.trans h4.symm, by rw [h3, if_pos h4, hs]; rfl⟩
  · next h4 =>
    rw [if_neg h4]
    split at h
    · next hc =>
      obtain ⟨_, _, h⟩ := bind_ok_iff.mp h
      obtain ⟨rfl, rfl⟩ := by simpa [pure_ok_iff] using h
      exact ⟨hc.2.symm, hc.1.symm, rfl⟩
    · obtain ⟨⟨d, k⟩, hd, h⟩ := bind_ok_iff.mp h
      obtain ⟨rfl, rfl⟩ := by simpa [pure_ok_iff] using h
      exact ⟨readDisp_mod (w := .o32) hm hd, (regNum_ofBits_iff.mp rfl).symm, rfl⟩

/-- `DecodeModRM` that ends has recorded the ModR/M and SIB bytes of its operands (40_effective_address.md R101, R107). -/
theorem modrmRecord_of_read {asz : AdSize} {e : RM} {g : RegNum} {n : Nat} (h : readModRM rd off asz = .ok (e, g, n)) :
    modrmRecord rd off asz = (some (fieldsByte e.mod g.bits e.rm), e.sib) := by
  obtain ⟨m, hm, h⟩ := bind_ok_iff.mp h
  simp only [modrmRecord, hm, sibFollows]
  split at h
  · next h3 =>
    obtain ⟨rfl, rfl, rfl⟩ := by simpa [pure_ok_iff] using h
    have hf : fieldsByte 3 (RegNum.ofBits (midField m)).bits (RegNum.ofBits (lowField m)).bits = m :=
      (fieldsByte_eq_iff.mpr ⟨h3, regNum_ofBits_iff.mp rfl, regNum_ofBits_iff.mp rfl⟩).symm
    simp only [RM.mod, RM.rm, RM.sib, hf]
    simp [h3]
  · next h3 =>
    cases asz with
    | a16 =>
      obtain ⟨⟨x, k⟩, hx, h⟩ := bind_ok_iff.mp h
      obtain ⟨rfl, rfl, rfl⟩ := by simpa [pure_ok_iff] using h
      obtain ⟨h1, h2⟩ := readAddr16_fields h3 hx
      have hf : fieldsByte (RM.mem (.a16 x)).mod (RegNum.ofBits (midField m)).bits (RM.mem (.a16 x)).rm = m :=
        (fieldsByte_eq_iff.mpr ⟨h1.symm, regNum_ofBits_iff.mp rfl, h2.symm⟩).symm
      rw [hf]
      simp [RM.sib]
    | a32 =>
      obtain ⟨⟨x, k⟩, hx, h⟩ := bind_ok_iff.mp h
      obtain ⟨rfl, rfl, rfl⟩ := by simpa [pure_ok_iff] using h
      obtain ⟨h1, h2, h4⟩ := readAddr32_fields h3 hx
      have hf : fieldsByte (RM.mem (.a32 x)).mod (RegNum.ofBits (midField m)).bits (RM.mem (.a32 x)).rm = m :=
        (fieldsByte_eq_iff.mpr ⟨h1.symm, regNum_ofBits_iff.mp rfl, h2.symm⟩).symm
      rw [hf, h4]
      have hs : (AdSize.a32 == AdSize.a32 && topField m != 3 && lowField m == 4) = (lowField m == 4) := by
        rw [bne_iff_ne.mpr h3]
        rfl
      simp only [hs, beq_iff_eq]

/-- A form that is read has recorded what its instruction has after the opcode. -/
theorem tailRecord_of_read {osz : OpSize} {asz : AdSize} {op : Byte} {f : Form} {j : Instr} {n : Nat}
    (hf : formOf op = some f) (h : readForm rd off osz asz f = .ok (j, n)) :
    j.opcode = op ∧ j.prefixes = [] ∧ tailRecord rd off asz op = ((j.record 0).modrm, (j.record 0).sib) := by
  simp only [tailRecord, hf]
  unfold formOf at hf
  split at hf
  all_goals try (simp at hf; done)
  all_goals
    rename_i hop
    have hop' : op = BitVec.ofNat 8 op.toNat := by simp
    rw [hop] at hop'
    simp only [Option.some.injEq] at hf
    subst hf hop'
    simp only [readForm] at h
  all_goals first
    | (obtain ⟨⟨e, g, k⟩, hm, h⟩ := bind_ok_iff.mp h
       obtain ⟨rfl, rfl⟩ := by simpa [pure_ok_iff] using h
       exact ⟨rfl, rfl, modrmRecord_of_read hm⟩)
    | (obtain ⟨_, _, h⟩ := bind_ok_iff.mp h
       obtain ⟨rfl, rfl⟩ := by simpa [pure_ok_iff] using h
       exact ⟨rfl, rfl, rfl⟩)
    | (obtain ⟨rfl, rfl⟩ := by simpa using h
       exact ⟨rfl, rfl, rfl⟩)

theorem record_withPrefixes (ps : List Prefix) (j : Instr) (e : Word) :
    (j.withPrefixes ps).record e = { j.record e with prefixes := (ps ++ j.prefixes).map Prefix.byte } := by
  have h1 : (j.withPrefixes ps).rm? = j.rm? ∧ (j.withPrefixes ps).reg? = j.reg? := by
    induction ps with
    | nil => exact ⟨rfl, rfl⟩
    | cons p ps ih => simp [withPrefixes_cons, ih]
  simp [Instr.record, withPrefixes_prefixes, withPrefixes_opcode, h1]

/-! ### The record of a cycle -/

/-- A cycle that decodes an instruction has made that instruction's record. -/
theorem recordWith_of_decode {i : Instr} {n : Nat} (e : Word) (h : decodeWith rd fuel = .ok (i, n)) :
    recordWith rd fuel e = i.record e := by
  unfold decodeWith at h
  split at h
  · cases h
  · next ps op hs =>
    split at h
    · cases h
    · next f hf =>
      split at h
      · cases h
      · next j k hr =>
        simp only [Except.ok.injEq, Prod.mk.injEq] at h
        obtain ⟨rfl, rfl⟩ := h
        obtain ⟨ho, hp, ht⟩ := tailRecord_of_read hf hr
        have ha : (if Prefix.byte .a16 ∈ ps.map Prefix.byte then AdSize.a16 else defaultAdSize) = addressSize ps := by
          simp only [addressSize, a16_recorded]
        simp only [recordWith, scanRecord_of_scan hs, ha, List.length_map, ht, record_withPrefixes, hp, List.append_nil]
        simp [Instr.record, ho]

/-- A cycle that meets an unmapped opcode has recorded its prefixes and that byte, and nothing after it (R127). -/
theorem recordWith_of_unmapped {ps : List Prefix} {op : Byte} (e : Word) (h : decodeWith rd fuel = .error (.unmapped ps op)) :
    recordWith rd fuel e =
      { prefixes := ps.map Prefix.byte, startEip := e, opcode := some op, modrm := none, sib := none } := by
  unfold decodeWith at h
  split at h
  · next he =>
    cases h
    exact absurd he (scanPrefixes_ne_unmapped _ _ _ _)
  · next qs o hs =>
    split at h
    · next hf =>
      cases h
      simp [recordWith, scanRecord_of_scan hs, tailRecord, hf]
    · split at h <;> cases h

/-- The record of a cycle that decodes i is i's. -/
theorem Machine.State.cycleRecord_of_decode {s : State} {i : Instr} {n : Nat} (hs : s.stopped = false)
    (h : s.fetchDecode = .ok (i, n)) : s.cycleRecord = some (i.record s.eip) := by
  simp only [State.cycleRecord, hs, h, Bool.false_eq_true, if_false]
  exact congrArg some (recordWith_of_decode _ h)

/-- The record of a cycle that meets an unmapped opcode. -/
theorem Machine.State.cycleRecord_of_unmapped {s : State} {ps : List Prefix} {op : Byte} (hs : s.stopped = false)
    (h : s.fetchDecode = .error (.unmapped ps op)) :
    s.cycleRecord =
      some { prefixes := ps.map Prefix.byte, startEip := s.eip, opcode := some op, modrm := none, sib := none } := by
  simp only [State.cycleRecord, hs, h, Bool.false_eq_true, if_false]
  exact congrArg some (recordWith_of_unmapped _ h)

end Sys2Proof
end

