-- ==== Sys2Proof/Laws/Stores.lean ====
section
/-! SUPPORT. Where a handler stores: at the address and size `storeOf` computes, or nowhere (20_memory.md R61). -/

namespace Sys2Proof

open Sys2Proof.Machine Sys2Proof.Spec

/-- EIP enters no address (40_effective_address.md R108). -/
theorem storeOf_consume (s : State) (n : Nat) (i : Instr) : storeOf (s.consume n) i = storeOf s i := by
  have h : ∀ w e, rmStore (s.consume n) w e = rmStore s w e := by
    intro w e; cases e <;> simp [rmStore]
  induction i with
  | es j ih => exact ih
  | cs j ih => exact ih
  | ss j ih => exact ih
  | ds j ih => exact ih
  | fs j ih => exact ih
  | gs j ih => exact ih
  | o16 j ih => exact ih
  | a16 j ih => exact ih
  | _ => first | rfl | exact h ..

/-- Where a handler that ends has stored: at `storeOf`, below N, or nowhere. -/
def StoredAt (s t : State) : Option (Nat × Nat) → Prop
  | none => t.mem = s.mem
  | some (a, k) => k ≤ 4 ∧ a + k ≤ s.cfg.memSize ∧ ∃ v, t.mem = s.mem.store a k v

/-- Everything a handler that ends can have stored. -/
theorem handler_stored (i : Instr) {s t : State} (h : handler i s = .ok t) : StoredAt s t (storeOf s i) := by
  have hw (op w n) {m : Nat} (a b : BitVec m) (v : BitVec (Width.bits w)) (s : State) k : ((State.writeReg { s with eflags := (alu s.cfg.ofUntriggered op a b s.eflags).2 } n w v).consume k).mem = s.mem :=
    (writeReg_kept { s with eflags := (alu s.cfg.ofUntriggered op a b s.eflags).2 } n w v).2.2.2.2.2.2.2.2.2.2.2.1
  have hrm : ∀ {s t : State} op w e g, aluRmReg op w e g s = .ok t → StoredAt s t (rmStore s w e) := by
    intro s t op w e g h
    rcases e with r | x
    · rw [aluRmReg_reg] at h; injection h with h; subst h; exact hw ..
    · cases hr : s.inRange (s.ea x) w
      · rw [aluRmReg_mem_error hr] at h; cases h
      · rw [aluRmReg_mem hr] at h; injection h with h; subst h
        exact ⟨by cases w <;> decide, (State.inRange_iff ..).mp hr, _, rfl⟩
  have hgr : ∀ {s t : State} op w g e, aluRegRm op w g e s = .ok t → StoredAt s t none := by
    intro s t op w g e h
    rcases e with r | x
    · rw [aluRegRm_reg] at h; injection h with h; subst h; exact hw ..
    · cases hr : s.inRange (s.ea x) w
      · rw [aluRegRm_mem_error hr] at h; cases h
      · rw [aluRegRm_mem hr] at h; injection h with h; subst h; exact hw ..
  have hac : ∀ {s t : State} op w v, aluAcc op w v s = .ok t → StoredAt s t none := by
    intro s t op w v h
    rw [aluAcc_eq] at h; injection h with h; subst h; exact hw ..
  have hpu : ∀ {s t : State} x, pushSeg x s = .ok t → StoredAt s t (some ((s.esp - 2).toNat, 2)) := by
    intro s t x h
    cases hr : s.inRange (s.esp - 2) .w16
    · rw [pushSeg_error hr] at h; cases h
    · rw [pushSeg_ok hr] at h; injection h with h; subst h
      exact ⟨by decide, (State.inRange_iff ..).mp hr, _, rfl⟩
  have hpo : ∀ {s t : State} x, popSeg x s = .ok t → StoredAt s t none := by
    intro s t x h
    cases hr : s.inRange s.esp .w16
    · rw [popSeg_error hr] at h; cases h
    · rw [popSeg_ok hr] at h; injection h with h; subst h
      cases x <;> rfl
  have hpre : ∀ (s : State) (j : Instr), StoredAt (s.consume 1) t (storeOf (s.consume 1) j) → StoredAt s t (storeOf s j) := by
    intro s j h; rw [storeOf_consume] at h
    cases hs : storeOf s j <;> rw [hs] at h <;> exact h
  induction i generalizing s with
  | es j ih => exact hpre s j (ih h)
  | cs j ih => exact hpre s j (ih h)
  | ss j ih => exact hpre s j (ih h)
  | ds j ih => exact hpre s j (ih h)
  | fs j ih => exact hpre s j (ih h)
  | gs j ih => exact hpre s j (ih h)
  | o16 j ih => exact hpre s j (ih h)
  | a16 j ih => exact hpre s j (ih h)
  | addEbGb e g => rw [handler_addEbGb] at h; exact hrm _ _ _ _ h
  | addEvGv w e g => rw [handler_addEvGv] at h; exact hrm _ _ _ _ h
  | orEbGb e g => rw [handler_orEbGb] at h; exact hrm _ _ _ _ h
  | orEvGv w e g => rw [handler_orEvGv] at h; exact hrm _ _ _ _ h
  | adcEbGb e g => rw [handler_adcEbGb] at h; exact hrm _ _ _ _ h
  | adcEvGv w e g => rw [handler_adcEvGv] at h; exact hrm _ _ _ _ h
  | addGbEb g e => rw [handler_addGbEb] at h; exact hgr _ _ _ _ h
  | addGvEv w g e => rw [handler_addGvEv] at h; exact hgr _ _ _ _ h
  | orGbEb g e => rw [handler_orGbEb] at h; exact hgr _ _ _ _ h
  | orGvEv w g e => rw [handler_orGvEv] at h; exact hgr _ _ _ _ h
  | adcGbEb g e => rw [handler_adcGbEb] at h; exact hgr _ _ _ _ h
  | adcGvEv w g e => rw [handler_adcGvEv] at h; exact hgr _ _ _ _ h
  | addALIb v => rw [handler_addALIb] at h; exact hac _ _ _ h
  | orALIb v => rw [handler_orALIb] at h; exact hac _ _ _ h
  | adcALIb v => rw [handler_adcALIb] at h; exact hac _ _ _ h
  | addEAXIz z => rw [handler_addEAXIz] at h; cases z <;> (simp only [aluAccZ] at h; exact hac _ _ _ h)
  | orEAXIz z => rw [handler_orEAXIz] at h; cases z <;> (simp only [aluAccZ] at h; exact hac _ _ _ h)
  | adcEAXIz z => rw [handler_adcEAXIz] at h; cases z <;> (simp only [aluAccZ] at h; exact hac _ _ _ h)
  | pushES => rw [handler_pushES] at h; exact hpu _ h
  | pushCS => rw [handler_pushCS] at h; exact hpu _ h
  | pushSS => rw [handler_pushSS] at h; exact hpu _ h
  | popES => rw [handler_popES] at h; exact hpo _ h
  | popSS => rw [handler_popSS] at h; exact hpo _ h
  | hlt =>
    simp only [handler, hlt] at h
    split at h <;> (injection h with h; subst h; rfl)

end Sys2Proof
end

