-- ==== Sys2Proof/Tests/Slice0.lean ====
section
/-! SUPPORT. The model's own tests: ill-formed terms refused, one word of every opcode row decoded, one or two single
steps for every instruction (the expected values are those of spec/95_test_vectors.md and of the instruction rules'
examples), and for every obligation with hypotheses a concrete input that meets them. -/

namespace Sys2Proof.Tests

set_option Elab.async false

open Sys2Proof Sys2Proof.Machine Sys2Proof.Spec

/-! ### Helpers -/

/-- The reset core with bytes at address 0. -/
def at0 (l : List Byte) : State := { State.reset with mem := Memory.writeBytes [] 0 l }

/-- The reset core of N bytes with bytes at address 0. -/
def sized (n : Nat) (l : List Byte) : State := { at0 l with cfg := { Config.initial with memSize := n } }

/-- The state with bytes stored from address a on. -/
def put (s : State) (a : Nat) (l : List Byte) : State := { s with mem := s.mem.writeBytes a l }

/-- The state with CF set. -/
def carry (s : State) : State := s.setFlag 0 true

/-- The arithmetic flags in the order of the vectors: CF PF AF ZF SF OF. -/
def flags (s : State) : List Nat :=
  [(s.flag 0).toNat, (s.flag 2).toNat, (s.flag 4).toNat, (s.flag 6).toNat, (s.flag 7).toNat, (s.flag 11).toNat]

/-- One cycle, and a view of the state after it. -/
def after {α : Type} (s : State) (f : State → α) : Option α :=
  match step s with
  | .next t => some (f t)
  | _ => none

/-- The n bytes from address a on. -/
def bytesAt (s : State) (a n : Nat) : List Byte := (List.range n).map fun i => s.mem.read (a + i)

/-- The effective address and the length of the instruction a byte list holds. -/
def eaOf (l : List Byte) (s : State) : Option (Word × Nat) :=
  match decode l with
  | .ok (i, n) =>
    match i.rm? with
    | some (.mem x) => some (s.ea x, n)
    | _ => none
  | .error _ => none

/-! ### WellFormed: one ill-formed term for each check -/

theorem test_wf_operand_size_without_prefix : (Instr.addEvGv .o16 (.reg .r0) .r0).wf = false := by decide
theorem test_wf_operand_size_with_prefix : (Instr.o16 (.addEvGv .o32 (.reg .r0) .r0)).wf = false := by decide
theorem test_wf_immediate_size : (Instr.addEAXIz (.i16 1)).wf = false := by decide
theorem test_wf_address_size_without_prefix : (Instr.addEbGb (.mem (.a16 (.disp 0))) .r0).wf = false := by decide
theorem test_wf_address_size_with_prefix : (Instr.a16 (.addEbGb (.mem (.a32 (.disp 0))) .r0)).wf = false := by decide
theorem test_wf_bp_needs_displacement : (Instr.a16 (.addEbGb (.mem (.a16 (.based .bp .d0))) .r0)).wf = false := by decide
theorem test_wf_base4_needs_sib : (Instr.addEbGb (.mem (.a32 (.based .r4 .d0))) .r0).wf = false := by decide
theorem test_wf_base5_needs_displacement : (Instr.addEbGb (.mem (.a32 (.based .r5 .d0))) .r0).wf = false := by decide
theorem test_wf_sib_index4 : (Instr.addEbGb (.mem (.a32 (.sib .x1 (some .r4) .r0 .d0))) .r0).wf = false := by decide
theorem test_wf_sib_base5 : (Instr.addEbGb (.mem (.a32 (.sib .x1 none .r5 .d0))) .r0).wf = false := by decide
theorem test_wf_sib_disp_index4 : (Instr.addEbGb (.mem (.a32 (.sibDisp .x1 (some .r4) 0))) .r0).wf = false := by decide
theorem test_wf_accepts : (Instr.o16 (.a16 (.addEvGv .o16 (.mem (.a16 (.based .bxsi .d0))) .r0))).wf = true := by decide

/-! ### Decoding: a word of every row, written out from 30_encoding.md R71, R76, R77, R79 to R87 -/

theorem test_decode_addEbGb : decode [0x00, 0b11000000] = .ok (.addEbGb (.reg .r0) .r0, 2) := by decide +kernel
theorem test_decode_addEvGv :
    decode [0x01, 0b10000100, 0b10001000, 0x00, 0x01, 0x00, 0x00] =
      .ok (.addEvGv .o32 (.mem (.a32 (.sib .x4 (some .r1) .r0 (.full 0x100)))) .r0, 7) := by decide +kernel
theorem test_decode_addGbEb : decode [0x02, 0b00000111] = .ok (.addGbEb .r0 (.mem (.a32 (.based .r7 .d0))), 2) := by decide +kernel
theorem test_decode_addGvEv : decode [0x03, 0b01000101, 0x08] = .ok (.addGvEv .o32 .r0 (.mem (.a32 (.based .r5 (.d8 8)))), 3) := by decide +kernel
theorem test_decode_addALIb : decode [0x04, 0x01] = .ok (.addALIb 1, 2) := by decide +kernel
theorem test_decode_addEAXIz : decode [0x05, 0x78, 0x56, 0x34, 0x12] = .ok (.addEAXIz (.i32 0x12345678), 5) := by decide +kernel
theorem test_decode_pushES : decode [0x06] = .ok (.pushES, 1) := by decide +kernel
theorem test_decode_popES : decode [0x07] = .ok (.popES, 1) := by decide +kernel
theorem test_decode_orEbGb : decode [0x08, 0b11001000] = .ok (.orEbGb (.reg .r0) .r1, 2) := by decide +kernel
theorem test_decode_orEvGv : decode [0x09, 0b00011000] = .ok (.orEvGv .o32 (.mem (.a32 (.based .r0 .d0))) .r3, 2) := by decide +kernel
theorem test_decode_orGbEb :
    decode [0x0A, 0b00100100, 0b00100101, 0x00, 0x02, 0x00, 0x00] =
      .ok (.orGbEb .r4 (.mem (.a32 (.sibDisp .x1 none 0x200))), 7) := by decide +kernel
theorem test_decode_orGvEv : decode [0x0B, 0b00000101, 0x00, 0x01, 0x00, 0x00] = .ok (.orGvEv .o32 .r0 (.mem (.a32 (.disp 0x100))), 6) := by decide +kernel
theorem test_decode_orALIb : decode [0x0C, 0xF0] = .ok (.orALIb 0xF0, 2) := by decide +kernel
theorem test_decode_orEAXIz : decode [0x0D, 0x00, 0x00, 0x00, 0x80] = .ok (.orEAXIz (.i32 0x80000000), 5) := by decide +kernel
theorem test_decode_pushCS : decode [0x0E] = .ok (.pushCS, 1) := by decide +kernel
theorem test_decode_adcEbGb : decode [0x10, 0b11000100] = .ok (.adcEbGb (.reg .r4) .r0, 2) := by decide +kernel
theorem test_decode_adcEvGv : decode [0x11, 0b11001000] = .ok (.adcEvGv .o32 (.reg .r0) .r1, 2) := by decide +kernel
theorem test_decode_adcGbEb : decode [0x12, 0b00000011] = .ok (.adcGbEb .r0 (.mem (.a32 (.based .r3 .d0))), 2) := by decide +kernel
theorem test_decode_adcGvEv : decode [0x13, 0b11010001] = .ok (.adcGvEv .o32 .r2 (.reg .r1), 2) := by decide +kernel
theorem test_decode_adcALIb : decode [0x14, 0x81] = .ok (.adcALIb 0x81, 2) := by decide +kernel
theorem test_decode_adcEAXIz : decode [0x15, 0x01, 0x00, 0x00, 0x00] = .ok (.adcEAXIz (.i32 1), 5) := by decide +kernel
theorem test_decode_pushSS : decode [0x16] = .ok (.pushSS, 1) := by decide +kernel
theorem test_decode_popSS : decode [0x17] = .ok (.popSS, 1) := by decide +kernel
theorem test_decode_hlt : decode [0xF4] = .ok (.hlt, 1) := by decide +kernel
theorem test_decode_es : decode [0x26, 0x06] = .ok (.es .pushES, 2) := by decide +kernel
theorem test_decode_cs : decode [0x2E, 0xF4] = .ok (.cs .hlt, 2) := by decide +kernel
theorem test_decode_ss : decode [0x36, 0x00, 0b11000000] = .ok (.ss (.addEbGb (.reg .r0) .r0), 3) := by decide +kernel
theorem test_decode_ds : decode [0x3E, 0x26, 0x00, 0b11000000] = .ok (.ds (.es (.addEbGb (.reg .r0) .r0)), 4) := by decide +kernel
theorem test_decode_fs : decode [0x64, 0x17] = .ok (.fs .popSS, 2) := by decide +kernel
theorem test_decode_gs : decode [0x65, 0x04, 0x01] = .ok (.gs (.addALIb 1), 3) := by decide +kernel
theorem test_decode_o16 : decode [0x66, 0x05, 0x01, 0x00] = .ok (.o16 (.addEAXIz (.i16 1)), 4) := by decide +kernel
theorem test_decode_a16 :
    decode [0x67, 0x00, 0b10000111, 0x02, 0x00] = .ok (.a16 (.addEbGb (.mem (.a16 (.based .bx (.full 2)))) .r0), 5) := by decide +kernel

/-- V2.57: the escape byte 0x0F is unmapped and not combined with the next byte (30_encoding.md R78). -/
theorem test_decode_escape : decode [0x0F, 0x00] = .error (.unmapped [] 0x0F) := by decide +kernel
/-- V2.102: a truncated immediate stops at the first byte that is missing. -/
theorem test_decode_truncated : decode [0x05, 0x01, 0x00] = .error (.outOfRange 3) := by decide +kernel

/-- Every opcode row's word, zeros after it, decodes to an instruction of that row. -/
theorem test_table_rows :
    ∀ op ∈ mappedOpcodes ++ prefixBytes, (decodeTableWord 8 op.toNat).isSome = true := by decide +kernel
/-- The step after reset runs the placed word. -/
theorem test_withFetchWord :
    after (State.reset.withFetchWord 16 0x0104) (fun t => (t.eax, t.eip)) = some (1, 2) := by decide +kernel

/-! ### Effective addresses and lengths: V2.60 to V2.76 (95_test_vectors.md 2.5) -/

theorem test_ea_16 :
    eaOf [0x67, 0x00, 0x00] { at0 [] with ebx := 0x1000, esi := 0x234 } = some (0x1234, 3) ∧
    eaOf [0x67, 0x00, 0x06, 0x34, 0x12] (at0 []) = some (0x1234, 5) ∧
    eaOf [0x67, 0x00, 0x46, 0xFF] { at0 [] with ebp := 0x100 } = some (0xFF, 4) ∧
    eaOf [0x67, 0x00, 0x87, 0x02, 0x00] { at0 [] with ebx := 0xFFFF } = some (1, 5) ∧
    eaOf [0x67, 0x00, 0x40, 0xFE] { at0 [] with ebx := 1 } = some (0xFFFF, 4) ∧
    eaOf [0x67, 0x01, 0x00] { at0 [] with eax := 0x10000 } = some (0, 3) := by decide +kernel
theorem test_ea_32 :
    eaOf [0x00, 0x05, 0x00, 0x01, 0x00, 0x00] (at0 []) = some (0x100, 6) ∧
    eaOf [0x00, 0x43, 0x80] { at0 [] with ebx := 0x1000 } = some (0xF80, 3) ∧
    eaOf [0x00, 0x45, 0x00] { at0 [] with ebp := 0x300 } = some (0x300, 3) ∧
    eaOf [0x00, 0x85, 0xF0, 0xFF, 0xFF, 0xFF] { at0 [] with ebp := 0x300 } = some (0x2F0, 6) := by decide +kernel
theorem test_ea_sib :
    eaOf [0x00, 0x44, 0x88, 0x10] { at0 [] with eax := 0x1000, ecx := 0x10 } = some (0x1050, 4) ∧
    eaOf [0x00, 0x44, 0x65, 0x04] { at0 [] with ebp := 0x2000 } = some (0x2004, 4) ∧
    eaOf [0x00, 0x04, 0xCD, 0x00, 0x01, 0x00, 0x00] { at0 [] with ecx := 2 } = some (0x110, 7) ∧
    eaOf [0x00, 0x04, 0xE0] { at0 [] with eax := 0x1234 } = some (0x1234, 3) ∧
    eaOf [0x00, 0x04, 0x24] { at0 [] with esp := 0x1FF0 } = some (0x1FF0, 3) ∧
    eaOf [0x00, 0x04, 0x25, 0x00, 0x02, 0x00, 0x00] (at0 []) = some (0x200, 7) ∧
    eaOf [0x00, 0x84, 0x88, 0x00, 0x01, 0x00, 0x00] { at0 [] with eax := 0x100, ecx := 0x10 } = some (0x240, 7) := by
  decide +kernel

/-! ### One cycle: ADD -/

/-- R160's example. -/
theorem test_addEbGb : after { at0 [0x00, 0xC0] with eax := 5 } (fun t => (t.eax, flags t, t.eip)) =
    some (0x0A, [0, 1, 0, 0, 0, 0], 2) := by decide +kernel
/-- V2.51: rm = 4 at width 8 is AH. -/
theorem test_addEbGb_ah : after { at0 [0x00, 0xE0] with eax := 0x0302 } (fun t => t.eax) = some 0x0305 := by decide +kernel
/-- R161's example. -/
theorem test_addEvGv : after { at0 [0x66, 0x01, 0xD8] with eax := 0xABCDFFFF, ebx := 1 } (fun t => (t.eax, flags t, t.eip)) =
    some (0xABCD0000, [1, 1, 1, 1, 0, 0], 3) := by decide +kernel
/-- V2.50: a register is both address and source. -/
theorem test_addEvGv_mem : after { at0 [0x01, 0x00] with eax := 0x100 } (fun t => (bytesAt t 0x100 4, t.eax, t.eip)) =
    some ([0x00, 0x01, 0x00, 0x00], 0x100, 2) := by decide +kernel
/-- R162's example. -/
theorem test_addGbEb : after (put { at0 [0x02, 0x07] with edi := 0x100, eax := 0x11 } 0x100 [0x22])
    (fun t => (t.eax, flags t, bytesAt t 0x100 1, t.eip)) = some (0x33, [0, 1, 0, 0, 0, 0], [0x22], 2) := by decide +kernel
/-- R163's example. -/
theorem test_addGvEv : after (put { at0 [0x03, 0x45, 0x08] with ebp := 0x200, eax := 0x7FFFFFFF } 0x208 [1])
    (fun t => (t.eax, flags t, t.eip)) = some (0x80000000, [0, 1, 1, 0, 1, 0], 3) := by decide +kernel
/-- V1.2. -/
theorem test_addALIb : after { at0 [0x04, 0x01] with eax := 0xFF } (fun t => (t.eax, flags t, t.eip)) =
    some (0, [1, 1, 1, 1, 0, 0], 2) := by decide +kernel
/-- V2.3: a wrap with SF set moves the carry to OF. -/
theorem test_addALIb_overflow : after { at0 [0x04, 0x81] with eax := 0xFF } (fun t => (t.eax, flags t)) =
    some (0x80, [0, 0, 1, 0, 1, 1]) := by decide +kernel
/-- R165's example. -/
theorem test_addEAXIz : after (at0 [0x05, 0x78, 0x56, 0x34, 0x12]) (fun t => (t.eax, flags t, t.eip)) =
    some (0x12345678, [0, 1, 0, 0, 0, 0], 5) := by decide +kernel

/-! ### One cycle: OR -/

/-- R170's example: AF stays. -/
theorem test_orEbGb : after ((carry { at0 [0x08, 0xC8] with eax := 0x0F, ecx := 0xF0 }).setFlag 11 true |>.setFlag 4 true)
    (fun t => (t.eax, flags t, t.eip)) = some (0xFF, [0, 1, 1, 0, 1, 0], 2) := by decide +kernel
/-- R171's example. -/
theorem test_orEvGv : after (put { at0 [0x09, 0x18] with eax := 0x100, ebx := 1 } 0x100 [0, 0, 0, 0x80])
    (fun t => (bytesAt t 0x100 4, flags t, t.eip)) = some ([0x01, 0x00, 0x00, 0x80], [0, 0, 0, 0, 1, 0], 2) := by decide +kernel
/-- R172's example. -/
theorem test_orGbEb : after (put { at0 [0x0A, 0x24, 0x25, 0x00, 0x02, 0x00, 0x00] with eax := 0x0100 } 0x200 [0x80])
    (fun t => (t.eax, flags t, t.eip)) = some (0x8100, [0, 1, 0, 0, 1, 0], 7) := by decide +kernel
/-- R173's example. -/
theorem test_orGvEv : after { at0 [0x66, 0x0B, 0xC0] with eax := 0xFFFF0000 } (fun t => (t.eax, flags t, t.eip)) =
    some (0xFFFF0000, [0, 1, 0, 1, 0, 0], 3) := by decide +kernel
/-- V1.3. -/
theorem test_orALIb : after ((carry { at0 [0x0C, 0xF0] with eax := 0x0F }).setFlag 11 true) (fun t => (t.eax, flags t, t.eip)) =
    some (0xFF, [0, 1, 0, 0, 1, 0], 2) := by decide +kernel
/-- R175's example. -/
theorem test_orEAXIz : after { at0 [0x0D, 0x00, 0x00, 0x00, 0x80] with eax := 1 } (fun t => (t.eax, flags t, t.eip)) =
    some (0x80000001, [0, 0, 0, 0, 1, 0], 5) := by decide +kernel

/-! ### One cycle: ADC -/

/-- 95_test_vectors.md 2.4, opcode 10. -/
theorem test_adcEbGb : after (carry { at0 [0x10, 0xC4] with eax := 0x80 }) (fun t => (t.eax, flags t, t.eip)) =
    some (0x8180, [0, 1, 0, 0, 1, 0], 2) := by decide +kernel
/-- V2.29, R181's operands. -/
theorem test_adcEvGv : after (carry { at0 [0x11, 0xC8] with eax := 0xFFFFFFFF }) (fun t => (t.eax, flags t, t.eip)) =
    some (0, [1, 1, 1, 1, 0, 0], 2) := by decide +kernel
/-- V2.20: the quirk of R147, CF stays 0 when operand and carry-in wrap together. -/
theorem test_adcGbEb : after (put (carry { at0 [0x12, 0x03] with ebx := 0x100 }) 0x100 [0xFF])
    (fun t => (t.eax, flags t, t.eip)) = some (0, [0, 1, 1, 1, 0, 0], 2) := by decide +kernel
/-- R183's example. -/
theorem test_adcGvEv : after (carry { at0 [0x66, 0x13, 0xD1] with edx := 0x7FFF, ecx := 0x7FFF })
    (fun t => (t.edx, flags t, t.eip)) = some (0xFFFF, [0, 1, 1, 0, 1, 0], 3) := by decide +kernel
/-- R184's example. -/
theorem test_adcALIb : after { at0 [0x14, 0x81] with eax := 0xFF } (fun t => (t.eax, flags t, t.eip)) =
    some (0x80, [0, 0, 1, 0, 1, 1], 2) := by decide +kernel
/-- R185's example. -/
theorem test_adcEAXIz : after (carry { at0 [0x15, 0x01, 0x00, 0x00, 0x00] with eax := 0xFFFFFFFF })
    (fun t => (t.eax, flags t, t.eip)) = some (1, [1, 0, 1, 0, 0, 0], 5) := by decide +kernel
/-- 95_test_vectors.md 2.1: under ADD_OF_UNTRIGGERED = preserve OF keeps its value when the refinement does not fire. -/
theorem test_add_preserve :
    after ((({ at0 [0x04, 0x01] with eax := 0xFF, cfg := { Config.initial with ofUntriggered := .preserve } } : State).setFlag 11 true))
      (fun t => (t.eax, flags t)) = some (0, [1, 1, 1, 1, 0, 1]) := by decide +kernel

/-! ### One cycle: PUSH, POP, HLT, prefixes -/

/-- V2.90. -/
theorem test_pushES : after { at0 [0x06] with es := 0x1234 } (fun t => (t.esp, bytesAt t 0xFFFD 2, t.eip)) =
    some (0xFFFD, [0x34, 0x12], 1) := by decide +kernel
/-- V2.91. -/
theorem test_popES : after (put { at0 [0x07] with esp := 0xFFFD } 0xFFFD [0x34, 0x12]) (fun t => (t.es, t.esp, t.eip)) =
    some (0x1234, 0xFFFF, 1) := by decide +kernel
/-- R194's example, with bytes in the slot that the push clears. -/
theorem test_pushCS : after (put (at0 [0x0E]) 0xFFFD [0x55, 0x55]) (fun t => (t.esp, bytesAt t 0xFFFD 2, t.eip)) =
    some (0xFFFD, [0x00, 0x00], 1) := by decide +kernel
/-- V2.93, first cycle. -/
theorem test_pushSS : after { at0 [0x16] with ss := 0xBEEF, esp := 0x1000 } (fun t => (t.esp, bytesAt t 0xFFE 2, t.ss)) =
    some (0xFFE, [0xEF, 0xBE], 0xBEEF) := by decide +kernel
/-- V2.93, second cycle. -/
theorem test_popSS : after (put { at0 [0x17] with esp := 0xFFE } 0xFFE [0xEF, 0xBE]) (fun t => (t.ss, t.esp)) =
    some (0xBEEF, 0x1000) := by decide +kernel
/-- R200's example under both values of HLT_ADVANCES_EIP. -/
theorem test_hlt :
    after (put { at0 [] with eip := 2 } 2 [0xF4]) (fun t => (t.halted, t.eip)) = some (true, 3) ∧
    after (put { at0 [] with eip := 2, cfg := { Config.initial with hltAdvancesEip := false } } 2 [0xF4])
      (fun t => (t.halted, t.eip)) = some (true, 2) := by decide +kernel
/-- V2.87 and the slot of V2.90: an override changes nothing but the length. -/
theorem test_es : after { at0 [0x26, 0x06] with es := 0x1234 } (fun t => (t.esp, bytesAt t 0xFFFD 2, t.eip)) =
    some (0xFFFD, [0x34, 0x12], 2) := by decide +kernel
/-- P3, last instruction: `cs hlt`. -/
theorem test_cs : after (at0 [0x2E, 0xF4]) (fun t => (t.halted, t.eip)) = some (true, 2) := by decide +kernel
/-- An override has no effect on the address (30_encoding.md R74): SS, DS, FS, GS. -/
theorem test_overrides_ignored :
    ∀ p ∈ [(0x36 : Byte), 0x3E, 0x64, 0x65],
      after { put (at0 [p, 0x02, 0x07]) 0x100 [0x22] with edi := 0x100, ss := 1, ds := 2, fs := 3, gs := 4 }
        (fun t => (t.eax, t.eip)) = some (0x22, 3) := by decide +kernel
/-- V2.54: two 0x66 act as one. -/
theorem test_o16 : after { at0 [0x66, 0x66, 0x01, 0xC0] with eax := 0x00010001 } (fun t => (t.eax, t.eip)) =
    some (0x00010002, 4) := by decide +kernel
/-- V2.94: 0x66 does not widen the slot. -/
theorem test_o16_push : after { at0 [0x66, 0x06] with es := 0x1234 } (fun t => (t.esp, bytesAt t 0xFFFD 2, t.eip)) =
    some (0xFFFD, [0x34, 0x12], 2) := by decide +kernel
/-- P4, fourth instruction. -/
theorem test_a16 : after (put { at0 [0x67, 0x00, 0x06, 0x00, 0x02] with eax := 0x80 } 0x200 [0x80])
    (fun t => (bytesAt t 0x200 1, flags t, t.eip)) = some ([0x00], [1, 1, 0, 1, 0, 0], 5) := by decide +kernel

/-! ### Diagnostics, faults, reset -/

/-- V2.56. -/
theorem test_unmapped : step (at0 [0x66, 0x90]) =
    .next { at0 [0x66, 0x90] with eip := 2, diag := [{ byte := 0x90, addr := 1 }] } := by rfl
/-- V2.100. -/
theorem test_fault_operand : step (sized 0x40 [0x00, 0x05, 0x00, 0x01, 0x00, 0x00]) =
    .next { sized 0x40 [0x00, 0x05, 0x00, 0x01, 0x00, 0x00] with faultStatus := .addressOutOfRange 0x100 } := by rfl
/-- V2.101. -/
theorem test_fault_push : after (sized 0x8000 [0x06]) (fun t => (t.faultStatus, t.esp, t.eip)) =
    some (.addressOutOfRange 0xFFFD, 0xFFFF, 0) := by decide +kernel
/-- V2.103. -/
theorem test_fault_prefix_scan : after (sized 3 [0x66, 0x66, 0x66]) (fun t => (t.faultStatus, t.eip)) =
    some (.addressOutOfRange 3, 0) := by decide +kernel
/-- R40, from V2.102, V2.103 and cut encodings: the record of an unmapped opcode, of a scan that meets the end of memory,
of a ModR/M form cut after its opcode, after ModR/M, after SIB, of an immediate form, and of a complete SIB form. -/
theorem test_record :
    (at0 [0x66, 0x0F, 0xC0]).cycleRecord = some ⟨[0x66], 0, some 0x0F, none, none⟩ ∧
    (sized 3 [0x66, 0x66, 0x66]).cycleRecord = some ⟨[0x66, 0x66, 0x66], 0, none, none, none⟩ ∧
    (sized 1 [0x00]).cycleRecord = some ⟨[], 0, some 0x00, none, none⟩ ∧
    (sized 2 [0x00, 0x04]).cycleRecord = some ⟨[], 0, some 0x00, some 0x04, none⟩ ∧
    (sized 3 [0x00, 0x04, 0x25]).cycleRecord = some ⟨[], 0, some 0x00, some 0x04, some 0x25⟩ ∧
    (sized 3 [0x05, 0x01, 0x00]).cycleRecord = some ⟨[], 0, some 0x05, none, none⟩ ∧
    (at0 [0x2E, 0x0A, 0x04, 0x24]).cycleRecord = some ⟨[0x2E], 0, some 0x0A, some 0x04, some 0x24⟩ := by decide +kernel
/-- R40, R121: with 0x67 or mod = 11b no SIB byte is read; EIP is where decoding starts; a no-op makes no record. -/
theorem test_record_without_sib :
    (at0 [0x67, 0x00, 0x04]).cycleRecord = some ⟨[0x67], 0, some 0x00, some 0x04, none⟩ ∧
    (at0 [0x00, 0xC4]).cycleRecord = some ⟨[], 0, some 0x00, some 0xC4, none⟩ ∧
    ({ at0 [0x00, 0xC4, 0xF4] with eip := 2 } : State).cycleRecord = some ⟨[], 2, some 0xF4, none, none⟩ ∧
    ({ at0 [] with halted := true } : State).cycleRecord = none := by decide +kernel
/-- V2.104. -/
theorem test_fault_crossing : after { sized 0x40 [0x01, 0x04, 0x24] with esp := 0x3E } (fun t => (t.faultStatus, t.eip)) =
    some (.addressOutOfRange 0x40, 0) := by decide +kernel
/-- V2.105 and V2.107. -/
theorem test_fault_stack :
    after { sized 0x40 [0x07] with esp := 0x3F } (fun t => (t.faultStatus, t.esp)) = some (.addressOutOfRange 0x40, 0x3F) ∧
    after { sized 0x40 [0x06] with esp := 1 } (fun t => (t.faultStatus, t.esp)) = some (.addressOutOfRange 0xFFFFFFFF, 1) := by
  decide +kernel
/-- V2.108: the address needs 33 bits. -/
theorem test_fault_top : (sized 0x100000000 []).memRead 0xFFFFFFFF .w16 = .error 0x100000000 := by decide +kernel
/-- V2.110 to V2.112. -/
theorem test_views :
    (({ at0 [] with eax := 0x12345678 } : State).set (.hi8 .a) 0xAB).eax = 0x1234AB78 ∧
    (({ at0 [] with eax := 0x12345678 } : State).set (.r16 .eax) 0xBEEF).eax = 0x1234BEEF ∧
    (({ at0 [] with eip := 0x12345 } : State).set .ip 0x10).eip = 0x10010 := by decide
/-- V2.115: reset ends a fault and leaves memory. -/
theorem test_reset_clears_fault :
    ({ at0 [0x06] with faultStatus := .addressOutOfRange 7, esp := 3 } : State).applyReset = at0 [0x06] := by decide +kernel

/-! ### The assembler's text and choice (30_encoding.md R93, R94), on the spec's own spellings -/

/-- V1.7 and R183's example. -/
theorem test_text :
    instrText (.addEbGb (.mem (.a32 (.sibDisp .x1 none 0x200))) .r0) = "add byte ptr [0x00000200], al" ∧
    instrText (.o16 (.adcGvEv .o16 .r2 (.reg .r1))) = "adc dx, cx" ∧ instrText (.cs .hlt) = "cs hlt" ∧
    instrText (.a16 (.addEbGb (.mem (.a16 (.disp 0x200))) .r0)) = "a16 add byte ptr [0x0200], al" := by decide +kernel
/-- R94: the destination stands in rm, and one size prefix after the overrides. -/
theorem test_assemblerForm :
    assemblerForm (.o16 (.o16 (.es (.addGvEv .o16 .r0 (.reg .r3))))) = .es (.o16 (.addEvGv .o16 (.reg .r0) .r3)) := by decide

/-! ### Witnesses: inputs that meet the hypotheses of each obligation, at a boundary for each clause -/

theorem inv_at0 (l : List Byte) (h : ∀ c ∈ (at0 l).mem, c.1 < 0x20000) : (at0 l).Inv :=
  ⟨Memory.wf_writeBytes ⟨by simp, by simp⟩ 0 l, h, (by decide : Config.initial.wf), trivial⟩

/-- [disp32]. -/
abbrev absolute (d : BitVec 32) : RM := .mem (.a32 (.disp d))

theorem witness_DecodeOfEncode :
    (Instr.o16 (.a16 (.addEvGv .o16 (.mem (.a16 (.based .bp (.full 0xFFFF)))) .r7))).wf = true ∧
    (Instr.gs (.adcEAXIz (.i32 0xFFFFFFFF))).wf = true ∧
    (Instr.orGbEb .r7 (.mem (.a32 (.sib .x8 (some .r7) .r5 (.d8 0x80))))).wf = true := by decide
theorem witness_EncodeOfDecode : decode [0x26, 0x06, 0xFF] = .ok (.es .pushES, 2) := by decide +kernel
theorem witness_InstructionLength :
    (∃ i : Instr, i.wf = true ∧ addressSize i.prefixes = .a16 ∧ (i.record 0).modrm = some 0x06) ∧
    (∃ i : Instr, i.wf = true ∧ addressSize i.prefixes = .a32 ∧ (i.record 0).modrm = some 0x04 ∧ (i.record 0).sib = some 0x25) ∧
    (∃ i : Instr, i.wf = true ∧ (i.record 0).modrm = none ∧ i.immBytes.length = 2) :=
  ⟨⟨.a16 (.addEbGb (.mem (.a16 (.disp 1))) .r0), by decide⟩, ⟨.addEbGb (.mem (.a32 (.sibDisp .x1 none 1))) .r0, by decide⟩,
    ⟨.o16 (.addEAXIz (.i16 1)), by decide⟩⟩
theorem witness_OperandWidthFollowsPrefix :
    (decode [0x66, 0x05, 0x01, 0x00] = .ok (.o16 (.addEAXIz (.i16 1)), 4) ∧
      (Instr.o16 (.addEAXIz (.i16 1))).opSize? = some .o16 ∧ (0x66 : Byte) ∈ ((Instr.o16 (.addEAXIz (.i16 1))).record 0).prefixes) ∧
    (decode [0x01, 0xC0] = .ok (.addEvGv .o32 (.reg .r0) .r0, 2) ∧
      (Instr.addEvGv .o32 (.reg .r0) .r0).opSize? = some .o32 ∧
      (0x66 : Byte) ∉ ((Instr.addEvGv .o32 (.reg .r0) .r0).record 0).prefixes) := by decide +kernel
theorem witness_AddressWidthFollowsPrefix :
    (decode [0x67, 0x00, 0x00] = .ok (.a16 (.addEbGb (.mem (.a16 (.based .bxsi .d0))) .r0), 3) ∧
      (RM.mem (.a16 (.based .bxsi .d0))).adSize? = some .a16 ∧
      (0x67 : Byte) ∈ ((Instr.a16 (.addEbGb (.mem (.a16 (.based .bxsi .d0))) .r0)).record 0).prefixes) ∧
    (decode [0x00, 0x00] = .ok (.addEbGb (.mem (.a32 (.based .r0 .d0))) .r0, 2) ∧
      (RM.mem (.a32 (.based .r0 .d0))).adSize? = some .a32 ∧
      (0x67 : Byte) ∉ ((Instr.addEbGb (.mem (.a32 (.based .r0 .d0))) .r0).record 0).prefixes) := by decide +kernel
theorem witness_StepRunsDecodedInstruction :
    (at0 [0x66, 0xF4]).halted = false ∧ (at0 [0x66, 0xF4]).faultStatus = .none ∧
    (at0 [0x66, 0xF4]).fetchDecode = .ok (.o16 .hlt, 2) := by decide +kernel
/-- A core of N = 2^32 bytes whose EIP is its last address: the first byte stands there, the others from 0 on. -/
def atTop (b : Byte) (l : List Byte) : State :=
  put { sized 0x100000000 l with eip := 0xFFFFFFFF } 0xFFFFFFFF [b]

/-- One byte that stands at EIP + off is a field there. -/
theorem fieldsAt_byte {s : State} {off : Nat} {b : Byte} {fs : List (List Byte)}
    (h : streamAddr s off < s.cfg.memSize ∧ s.mem.read (streamAddr s off) = b) (ht : FieldsAt s (off + 1) fs) :
    FieldsAt s off ([b] :: fs) :=
  ⟨h.1, fun k hk => by obtain rfl : k = 0 := by simpa using hk
                       exact h.2, ht⟩

/-- The instruction ends at the last byte of memory, and one runs on from address 2^32 - 1 to 0. -/
theorem witness_StepRunsBytesAtEip :
    ((sized 2 [0x04, 0x01]).cfg.wf ∧ (sized 2 [0x04, 0x01]).halted = false ∧ (sized 2 [0x04, 0x01]).faultStatus = .none ∧
      (Instr.addALIb 1).wf = true ∧ FieldsAt (sized 2 [0x04, 0x01]) 0 (fieldsOf (.addALIb 1))) ∧
    ((atTop 0x04 [0x01]).cfg.wf ∧ (atTop 0x04 [0x01]).halted = false ∧ (atTop 0x04 [0x01]).faultStatus = .none ∧
      FieldsAt (atTop 0x04 [0x01]) 0 (fieldsOf (.addALIb 1))) :=
  ⟨⟨by decide, rfl, rfl, rfl, fieldsAt_byte (by decide +kernel) (fieldsAt_byte (by decide +kernel) trivial)⟩,
    by decide, rfl, rfl, fieldsAt_byte (by decide +kernel) (fieldsAt_byte (by decide +kernel) trivial)⟩
/-- V1.2 `04 01` with its opcode at 2^32 - 1: the immediate is read at 0, and EIP is 1 after it. -/
theorem test_instruction_wraps : after (atTop 0x04 [0x01]) (fun t => (t.eax, t.eip)) = some (1, 1) := by decide +kernel
theorem witness_StoppedCycleIsNoop :
    ({ at0 [] with halted := true } : State).halted = true ∧
    ({ at0 [] with faultStatus := .addressOutOfRange 0x20000 } : State).faultStatus ≠ .none := by decide
/-- The unmapped byte is the last byte of memory, or stands at 0 after a prefix at 2^32 - 1. -/
theorem witness_UnmappedOpcodeSkipsOneByte :
    (sized 2 [0x66, 0x90]).cfg.wf ∧ (sized 2 [0x66, 0x90]).halted = false ∧ (sized 2 [0x66, 0x90]).faultStatus = .none ∧
    (∀ b ∈ [(0x66 : Byte)], b ∈ prefixBytes) ∧ (0x90 : Byte) ∉ prefixBytes ∧ (0x90 : Byte) ∉ mappedOpcodes ∧
    BytesAtEip (sized 2 [0x66, 0x90]) ([0x66] ++ [0x90]) ∧
    (atTop 0x66 [0x90]).cfg.wf ∧ BytesAtEip (atTop 0x66 [0x90]) ([0x66] ++ [0x90]) :=
  ⟨by decide, rfl, rfl, by decide, by decide, by decide,
    fieldsAt_byte (by decide +kernel) (fieldsAt_byte (by decide +kernel) trivial), by decide,
    fieldsAt_byte (by decide +kernel) (fieldsAt_byte (by decide +kernel) trivial)⟩
/-- EIP at N; V2.103, three prefixes in a memory of three bytes; V2.102, an immediate that runs past the third byte. -/
theorem witness_FetchBeyondMemoryFaults :
    (({ at0 [] with eip := 0x20000 } : State).halted = false ∧ ({ at0 [] with eip := 0x20000 } : State).faultStatus = .none ∧
      ({ at0 [] with eip := 0x20000 } : State).cfg.memSize ≤ ({ at0 [] with eip := 0x20000 } : State).eip.toNat) ∧
    ((sized 3 [0x66, 0x66, 0x66]).cfg.wf ∧ (∀ b ∈ [(0x66 : Byte), 0x66, 0x66], b ∈ prefixBytes) ∧
      BytesAtEip (sized 3 [0x66, 0x66, 0x66]) [0x66, 0x66, 0x66] ∧
      (sized 3 [0x66, 0x66, 0x66]).cfg.memSize ≤ streamAddr (sized 3 [0x66, 0x66, 0x66]) 3) ∧
    ((sized 3 [0x05, 0x01, 0x00]).cfg.wf ∧ (Instr.addEAXIz (.i32 1)).wf = true ∧
      fieldsOf (.addEAXIz (.i32 1)) = [[0x05]] ++ [0x01, 0, 0, 0] :: [] ∧ FieldsAt (sized 3 [0x05, 0x01, 0x00]) 0 [[0x05]] ∧
      (sized 3 [0x05, 0x01, 0x00]).cfg.memSize < streamAddr (sized 3 [0x05, 0x01, 0x00]) 1 + 4) :=
  ⟨by decide,
    ⟨by decide, by decide, fieldsAt_byte (by decide +kernel) (fieldsAt_byte (by decide +kernel) (fieldsAt_byte (by decide +kernel) trivial)),
      by decide⟩,
    by decide, rfl, by decide, fieldsAt_byte (by decide +kernel) trivial, by decide⟩

/-- Prefix bytes from address k on, n of them. -/
def prefixFill (k : Nat) : (n : Nat) → Memory
  | 0 => []
  | n + 1 => (k, 0x66) :: prefixFill (k + 1) n

theorem prefixFill_bounds {k n : Nat} {c : Host.Cell} (h : c ∈ prefixFill k n) : k ≤ c.1 ∧ c.1 < k + n ∧ c.2 = 0x66 := by
  induction n generalizing k with
  | zero => simp [prefixFill] at h
  | succ n ih =>
    rcases List.mem_cons.mp h with rfl | h
    · exact ⟨Nat.le_refl _, by show k < _; omega, rfl⟩
    · have := ih h
      exact ⟨by omega, by omega, this.2.2⟩

theorem prefixFill_wf (k n : Nat) : (prefixFill k n).wf := by
  refine ⟨?_, fun c h => by rw [(prefixFill_bounds h).2.2]; decide⟩
  induction n generalizing k with
  | zero => exact List.Pairwise.nil
  | succ n ih => exact List.pairwise_cons.mpr ⟨fun c h => Nat.lt_of_succ_le (prefixFill_bounds h).1, ih (k + 1)⟩

theorem prefixFill_read {k n a : Nat} (h : k ≤ a) (h' : a < k + n) : (prefixFill k n).read a = 0x66 := by
  induction n generalizing k with
  | zero => omega
  | succ n ih =>
    simp only [prefixFill, Memory.read]
    split
    · rfl
    · exact ih (by omega) (by omega)

/-- A core of 2^32 bytes that holds nothing but prefixes: both sides of the equivalence have a state. -/
theorem witness_HangExactly :
    (∃ s : State, s.Inv ∧ s.halted = false ∧ s.faultStatus = .none ∧ s.cfg.memSize = 2 ^ 32 ∧
      ∀ a, a < 2 ^ 32 → s.mem.read a ∈ prefixBytes) ∧
    (at0 []).Inv ∧ (at0 []).halted = false ∧ (at0 []).faultStatus = .none :=
  ⟨⟨State.resetOf { Config.initial with memSize := 2 ^ 32 } (prefixFill 0 (2 ^ 32)) [],
      ⟨prefixFill_wf _ _, fun c h => by have := (prefixFill_bounds h).2.1; rwa [Nat.zero_add] at this, ⟨by decide, by decide⟩, trivial⟩,
      rfl, rfl, rfl, fun a h => by
        show (prefixFill 0 (2 ^ 32)).read a ∈ prefixBytes
        rw [prefixFill_read (Nat.zero_le a) (by omega)]
        decide⟩,
    inv_at0 [] (by decide), rfl, rfl⟩
theorem witness_FaultUndoesTheCycle :
    (sized 0x40 [0x06]).Inv ∧ step (sized 0x40 [0x06]) = .next { sized 0x40 [0x06] with faultStatus := .addressOutOfRange 0xFFFD } ∧
    FaultStatus.addressOutOfRange 0xFFFD ≠ (sized 0x40 [0x06]).faultStatus :=
  ⟨⟨by decide +kernel, by decide +kernel, by decide, trivial⟩, rfl, by decide⟩
/-- `66 F4` at address 0 of a core with HLT_ADVANCES_EIP = false. -/
def haltInPlace : State := { at0 [0x66, 0xF4] with cfg := { Config.initial with hltAdvancesEip := false } }
/-- HLT under HLT_ADVANCES_EIP = false, another instruction, an unmapped opcode. -/
theorem witness_EipAfterCycle :
    (haltInPlace.fetchDecode = .ok (.o16 .hlt, 2) ∧ after haltInPlace (fun t => (t.faultStatus, t.eip)) = some (.none, 1)) ∧
    ((at0 [0x04, 0x01]).fetchDecode = .ok (.addALIb 1, 2) ∧ after (at0 [0x04, 0x01]) (fun t => (t.faultStatus, t.eip)) = some (.none, 2)) ∧
    ((at0 [0x0F]).fetchDecode = .error (.unmapped [] 0x0F) ∧ after (at0 [0x0F]) (fun t => (t.faultStatus, t.eip)) = some (.none, 1)) := by
  decide +kernel
theorem witness_StepKeepsInvariant :
    (at0 [0x01, 0x00]).Inv ∧ (after (at0 [0x01, 0x00]) fun t => t.mem) = some (at0 [0x01, 0x00]).mem :=
  ⟨inv_at0 _ (by decide +kernel), by decide +kernel⟩
theorem witness_ResetMeetsInvariant :
    (⟨0x100000000, .preserve, false⟩ : Config).wf ∧ Memory.wf [(0xFFFFFFFF, 1)] ∧
    ∀ x ∈ ([(0xFFFFFFFF, 1)] : Memory), x.1 < 0x100000000 := by decide
theorem witness_OnlyHltHalts :
    ((at0 [0xF4]).halted = false ∧ after (at0 [0xF4]) (fun t => t.halted) = some true) ∧
    (({ at0 [] with halted := true } : State).halted = true ∧
      after { at0 [] with halted := true } (fun t => t.halted) = some true) := by decide +kernel
theorem witness_SegmentsWrittenByPopsOnly :
    (after (put { at0 [0x07] with esp := 0x100 } 0x100 [1]) fun t => t.es) = some 1 ∧
    (after (put { at0 [0x17] with esp := 0x100 } 0x100 [1]) fun t => t.ss) = some 1 := by decide +kernel
theorem witness_InertFlagCellsKept : (after { at0 [0x04, 0xFF] with eflags := 0xFFFFFFFF } fun t => t.eflags) =
    some 0xFFFFF7AE := by decide +kernel
theorem witness_InertFlagCellsNeverRead :
    ArithmeticCellsAgree (carry (at0 [0x14, 0x00])).eflags 0xFFFFF701 ∧
    (after (carry (at0 [0x14, 0x00])) fun t => t.eax) = some 1 := ⟨by unfold ArithmeticCellsAgree; decide, by decide +kernel⟩
theorem witness_DataSegmentsNeverRead : (after (at0 [0x3E, 0x02, 0x07]) fun t => t.eip) = some 3 := by decide +kernel
theorem witness_DiagnosticsOnlyGrow : (after (at0 [0x0F]) fun t => t.diag.length) = some 1 := by decide +kernel
/-- The core before the last dword of memory is added to. -/
def addToLast : State := put { at0 [0x01, 0x03] with eax := 0x01010101, ebx := 0x1FFFC } 0x1FFFC [1]
/-- A store to the last dword of memory, a push, an instruction that stores nothing, an unmapped opcode, a halted core. -/
theorem witness_StepStoresAtMostOneOperand :
    (addToLast.mem.wf ∧ addToLast.fetchDecode = .ok (.addEvGv .o32 (.mem (.a32 (.based .r3 .d0))) .r0, 2) ∧
      storeOf addToLast (.addEvGv .o32 (.mem (.a32 (.based .r3 .d0))) .r0) = some (0x1FFFC, 4) ∧
      after addToLast (fun t => (t.faultStatus, bytesAt t 0x1FFFC 4)) = some (.none, [2, 1, 1, 1])) ∧
    ((at0 [0x06]).fetchDecode = .ok (.pushES, 1) ∧ storeOf (at0 [0x06]) .pushES = some (0xFFFD, 2)) ∧
    ((at0 [0x04, 1]).fetchDecode = .ok (.addALIb 1, 2) ∧ storeOf (at0 [0x04, 1]) (.addALIb 1) = none) ∧
    (at0 [0x0F]).fetchDecode = .error (.unmapped [] 0x0F) ∧
    ({ at0 [] with halted := true } : State).halted = true := by decide +kernel

/-- The operand's last byte is the last byte of memory, at each width; a register operand needs nothing. -/
theorem witness_accessible :
    (at0 []).mem.wf ∧ Accessible (at0 []) .w8 (absolute 0x1FFFF) ∧ Accessible (at0 []) .w16 (absolute 0x1FFFE) ∧
    Accessible (at0 []) .w32 (absolute 0x1FFFC) ∧ Accessible (at0 []) .w32 (.reg .r4) :=
  ⟨by decide, by unfold Accessible; decide, by unfold Accessible; decide, by unfold Accessible; decide, trivial⟩
theorem witness_AddRmRegCompletes : ∃ s w e, s.mem.wf ∧ Accessible s w e :=
  ⟨_, _, _, witness_accessible.1, witness_accessible.2.1⟩
theorem witness_AddRegRmCompletes : ∃ s w e, Accessible s w e := ⟨_, _, _, witness_accessible.2.1⟩
theorem witness_AdcRmRegCompletes : ∃ s w e, s.mem.wf ∧ Accessible s w e :=
  ⟨_, _, _, witness_accessible.1, witness_accessible.2.2.1⟩
theorem witness_AdcRegRmCompletes : ∃ s w e, Accessible s w e := ⟨_, _, _, witness_accessible.2.2.1⟩
theorem witness_OrRmRegCompletes : ∃ s w e, s.mem.wf ∧ Accessible s w e :=
  ⟨_, _, _, witness_accessible.1, witness_accessible.2.2.2.1⟩
theorem witness_OrRegRmCompletes : ∃ s w e, Accessible s w e := ⟨_, _, _, witness_accessible.2.2.2.1⟩
theorem witness_OperandBeyondMemoryFaults :
    (at0 []).cfg.memSize < ((at0 []).ea (.a32 (.disp 0x1FFFD))).toNat + Width.w32.bytes ∧
    (at0 []).cfg.memSize < ((at0 []).ea (.a32 (.disp 0xFFFFFFFF))).toNat + Width.w16.bytes := by decide +kernel
/-- CF set; OF set; the carry-in with an operand of all ones. -/
theorem witness_CarryOverflowExclusive :
    (alu .clear .add (0xFF : BitVec 8) 0x01 0).2.get 0 = true ∧ (alu .clear .add (0xFF : BitVec 8) 0x81 0).2.get 11 = true ∧
    (alu .clear .adc (0x10 : BitVec 8) (BitVec.allOnes 8) 1).1 = 0x10 ∧ FlagStore.get 1 0 = true := by decide +kernel
/-- ESP = N: the slot is the last two bytes of memory. -/
theorem witness_PushCompletes :
    ({ at0 [] with esp := 0x20000 } : State).mem.wf ∧
    (({ at0 [] with esp := 0x20000 } : State).esp - 2).toNat + 2 ≤ ({ at0 [] with esp := 0x20000 } : State).cfg.memSize := by
  decide
theorem witness_PopCompletes :
    ({ at0 [] with esp := 0x1FFFE } : State).esp.toNat + 2 ≤ ({ at0 [] with esp := 0x1FFFE } : State).cfg.memSize := by decide
theorem witness_StackBeyondMemoryFaults :
    ({ at0 [] with esp := 0x20001 } : State).cfg.memSize < (({ at0 [] with esp := 0x20001 } : State).esp - 2).toNat + 2 ∧
    ({ at0 [] with esp := 0x1FFFF } : State).cfg.memSize < ({ at0 [] with esp := 0x1FFFF } : State).esp.toNat + 2 := by decide
theorem witness_PushThenPopMoves :
    (at0 []).mem.wf ∧ ((at0 []).esp - 2).toNat + 2 ≤ (at0 []).cfg.memSize := by decide
theorem witness_PrefixedInstructionCompletes : AccessesInRange (at0 []) (.cs (.addEbGb (absolute 0x1FFFF) .r0)) :=
  witness_accessible.2.1
theorem witness_AssemblerFormSameEffect : (Instr.o16 (.o16 (.es (.addGvEv .o16 .r0 (.reg .r3))))).wf = true := by decide
theorem witness_CompletesIffAccessesInRange :
    (at0 []).faultStatus = .none ∧ AccessesInRange (at0 []) (.addEbGb (absolute 0x1FFFF) .r0) ∧
    ¬AccessesInRange (at0 []) (.addEbGb (absolute 0x20000) .r0) :=
  ⟨rfl, witness_accessible.2.1, by unfold AccessesInRange Accessible; decide⟩
theorem witness_ViewReadsItsSlotBits : 15 < (View.r16 .esp).bits ∧ 7 < (View.hi8 .b).bits := by decide
theorem witness_ViewWriteMerges :
    ¬(View.r32 .eax = slotView (.hi8 .a) ∧ viewLow (.hi8 .a) ≤ 16 ∧ 16 < viewLow (.hi8 .a) + (View.hi8 .a).bits) ∧
    slotView (.r32 .eax) = .r32 .eax := by decide
theorem witness_MemReadIsLittleEndianSum :
    (0x1FFFC : Word).toNat + Width.w32.bytes ≤ (at0 []).cfg.memSize ∧
    (at0 []).cfg.memSize < (0x1FFFD : Word).toNat + Width.w32.bytes := by decide
theorem witness_MemWriteIsLittleEndian :
    (at0 []).mem.wf ∧ (0x1FFFE : Word).toNat + Width.w16.bytes ≤ (at0 []).cfg.memSize ∧ 1 < Width.w16.bytes ∧
    (at0 []).cfg.memSize < (0x1FFFF : Word).toNat + Width.w16.bytes := by decide
theorem witness_MemReadAfterWrite :
    (at0 []).mem.wf ∧ (at0 []).memWrite 0x1FFFF .w8 0xAB = .ok { at0 [] with mem := [(0x1FFFF, 0xAB)] } := ⟨by decide, rfl⟩
theorem witness_EqualReadsEqualMemories : ∃ m m' : Memory, m.wf ∧ m'.wf ∧ ∀ a, m.read a = m'.read a :=
  ⟨[(1, 2)], [(1, 2)], by decide, by decide, fun _ => rfl⟩
/-- Three bytes, one of them zero. -/
theorem witness_EveryContentsIsAMemory :
    Memory.wf [(0, 1), (2, 3)] ∧ (∀ x ∈ ([(0, 1), (2, 3)] : Memory), x.1 < 3) ∧ Memory.read [(0, 1), (2, 3)] 1 = 0 := by decide
theorem witness_HostFlagWrite :
    hostSetFlag (at0 []) 1 2 = .error .badFlagValue ∧ hostSetFlag (at0 []) 1 0 = .ok { at0 [] with eflags := 0 } :=
  ⟨rfl, rfl⟩
theorem witness_HostCallsKeepInvariant :
    (at0 [0xF4]).Inv ∧ hostSetFlag (at0 []) 17 1 = .ok { at0 [] with eflags := 0x20002 } ∧
    hostWrite (at0 []) 0x1FFFF .w8 1 = .ok { at0 [] with mem := [(0x1FFFF, 1)] } ∧
    hostLoad (at0 []) 0x1FFFE [1, 0] = .ok { at0 [] with mem := [(0x1FFFE, 1)] } :=
  ⟨inv_at0 _ (by decide), rfl, rfl, rfl⟩

end Sys2Proof.Tests
end

section
/-! Noninterference (10_state.md R30, R31, R33): DS, FS, GS and the inert flag cells are read by no step. One predicate
on changes of the state (`Unseen`), one lemma that every step commutes with such a change, and the two changes. -/

namespace Sys2Proof.Machine

open Sys2Proof.Spec

/-! ### Changes of the state that no cycle sees -/

/-- φ changes only what no operation of a cycle reads: what a cycle reads is the same after φ, and every update a cycle
makes commutes with φ. The segment registers a push reads are ES, CS and SS, and those a pop writes ES and SS
(46_segment_stack.md R192 to R196). -/
structure Unseen (φ : State → State) : Prop where
  gpr : ∀ s g, (φ s).gpr g = s.gpr g
  eip : ∀ s, (φ s).eip = s.eip
  halted : ∀ s, (φ s).halted = s.halted
  faultStatus : ∀ s, (φ s).faultStatus = s.faultStatus
  mem : ∀ s, (φ s).mem = s.mem
  diag : ∀ s, (φ s).diag = s.diag
  cfg : ∀ s, (φ s).cfg = s.cfg
  pushed : ∀ s x, x = .es ∨ x = .cs ∨ x = .ss → (φ s).segReg x = s.segReg x
  popped : ∀ s x v, x = .es ∨ x = .ss → (φ s).setSeg x v = φ (s.setSeg x v)
  setGpr : ∀ s g v, (φ s).setGpr g v = φ (s.setGpr g v)
  withEip : ∀ s v, { φ s with eip := v } = φ { s with eip := v }
  withHalted : ∀ s b, { φ s with halted := b } = φ { s with halted := b }
  withFaultStatus : ∀ s f, { φ s with faultStatus := f } = φ { s with faultStatus := f }
  withMem : ∀ s m, { φ s with mem := m } = φ { s with mem := m }
  withDiag : ∀ s d, { φ s with diag := d } = φ { s with diag := d }
  runAlu : ∀ s op (n : Nat) (a b : BitVec n), (φ s).runAlu op a b = ((s.runAlu op a b).1, φ (s.runAlu op a b).2)

/-- The outcome of a cycle with φ applied to its next state. -/
def mapNext (φ : State → State) : Result → Result
  | .next t => .next (φ t)
  | .fault r => .fault r
  | .refused r => .refused r

namespace Unseen

variable {φ : State → State} (h : Unseen φ)
include h

theorem consume (s : State) (n : Nat) : (φ s).consume n = φ (s.consume n) := by
  simp only [State.consume, h.eip, h.withEip]

theorem ea (s : State) (x : Addr) : (φ s).ea x = s.ea x := by
  rcases x with x | x
  · cases x with
    | disp d => rfl
    | based b d => cases b <;> simp only [State.ea, State.ea16, State.base16, State.get, h.gpr]
  · have hi : ∀ sc i, (φ s).indexValue sc i = s.indexValue sc i := fun sc i => by
      cases i <;> simp only [State.indexValue, h.gpr]
    cases x <;> simp only [State.ea, State.ea32, h.gpr, hi]

theorem rmLoc (s : State) (w : Width) (e : RM) : (φ s).rmLoc w e = s.rmLoc w e := by
  cases e <;> simp only [State.rmLoc, h.ea]

theorem get_regView (s : State) (n : RegNum) (w : Width) : (φ s).get (regView n w) = s.get (regView n w) := by
  cases n <;> cases w <;> simp only [regView, byteViewOf, State.get, h.gpr]

theorem set_regView (s : State) (n : RegNum) (w : Width) (v : BitVec (regView n w).bits) :
    (φ s).set (regView n w) v = φ (s.set (regView n w) v) := by
  cases w with
  | w8 => cases n <;> simp only [regView, byteViewOf, State.set, h.gpr, h.setGpr]
  | w16 => simp only [regView, State.set, h.gpr, h.setGpr]
  | w32 => exact h.setGpr ..

theorem readReg (s : State) (n : RegNum) (w : Width) : (φ s).readReg n w = s.readReg n w := by
  simp only [State.readReg, h.get_regView]

theorem writeReg (s : State) (n : RegNum) (w : Width) (v : BitVec w.bits) :
    (φ s).writeReg n w v = φ (s.writeReg n w v) := h.set_regView ..

theorem inRange (s : State) (a : Word) (w : Width) : (φ s).inRange a w = s.inRange a w := by
  simp only [State.inRange, h.cfg]

theorem memRead (s : State) (a : Word) (w : Width) : (φ s).memRead a w = s.memRead a w := by
  simp only [State.memRead, h.inRange, h.mem, State.outOfRangeAt, h.cfg]

theorem memWrite (s : State) (a : Word) (w : Width) (v : BitVec w.bits) :
    (φ s).memWrite a w v = (s.memWrite a w v).map φ := by
  cases hr : s.inRange a w with
  | true =>
    rw [State.memWrite_ok hr, State.memWrite_ok (by rw [h.inRange]; exact hr), h.withMem, h.mem]
    rfl
  | false =>
    rw [State.memWrite_error hr, State.memWrite_error (by rw [h.inRange]; exact hr), State.outOfRangeAt, h.cfg]
    rfl

theorem readOp (s : State) (w : Width) (e : RM) : (φ s).readOp w (s.rmLoc w e) = s.readOp w (s.rmLoc w e) := by
  cases e with
  | reg n => simp only [State.rmLoc, State.readOp, h.get_regView]
  | mem x => exact h.memRead ..

theorem writeOp (s u : State) (w : Width) (v : BitVec w.bits) (e : RM) :
    (φ s).writeOp w v (u.rmLoc w e) = (s.writeOp w v (u.rmLoc w e)).map φ := by
  cases e with
  | reg n => exact congrArg Except.ok (h.set_regView ..)
  | mem x => exact h.memWrite ..

/-! The handler shapes. -/

theorem aluRmReg (op : AluOp) (w : Width) (e : RM) (g : RegNum) (s : State) :
    aluRmReg op w e g (φ s) = (aluRmReg op w e g s).map φ := by
  simp only [Machine.aluRmReg, h.consume, h.rmLoc, h.readOp, h.readReg, h.runAlu, h.writeOp]
  generalize s.consume e.length = u
  cases u.readOp w (u.rmLoc w e) with
  | error a => rfl
  | ok a =>
    simp only [bind, Except.bind]
    cases (u.runAlu op a (u.readReg g w)).2.writeOp w (u.runAlu op a (u.readReg g w)).1 (u.rmLoc w e) with
    | error b => rfl
    | ok t => exact congrArg Except.ok (h.consume t 1)

theorem aluRegRm (op : AluOp) (w : Width) (g : RegNum) (e : RM) (s : State) :
    aluRegRm op w g e (φ s) = (aluRegRm op w g e s).map φ := by
  simp only [Machine.aluRegRm, h.consume, h.rmLoc, h.readOp, h.readReg, h.runAlu, h.writeReg, State.finalAdvance_eq]
  generalize s.consume e.length = u
  cases u.readOp w (u.rmLoc w e) <;> rfl

theorem aluAcc (op : AluOp) (w : Width) (imm : BitVec w.bits) (s : State) :
    aluAcc op w imm (φ s) = (aluAcc op w imm s).map φ := by
  simp only [Machine.aluAcc, h.consume, h.readReg, h.runAlu, h.writeReg, State.finalAdvance_eq, Except.map]

theorem aluAccZ (op : AluOp) (z : ImmZ) (s : State) : aluAccZ op z (φ s) = (aluAccZ op z s).map φ := by
  cases z <;> exact h.aluAcc ..

theorem pushSeg {x : Seg} (hx : x = .es ∨ x = .cs ∨ x = .ss) (s : State) :
    pushSeg x (φ s) = (pushSeg x s).map φ := by
  simp only [Machine.pushSeg, State.decGpr, h.pushed s x hx, h.gpr, h.setGpr, h.memWrite]
  cases (s.setGpr .esp (s.gpr .esp - BitVec.ofNat 32 2)).memWrite
      ((s.setGpr .esp (s.gpr .esp - BitVec.ofNat 32 2)).gpr .esp) .w16 (s.segReg x) with
  | error a => rfl
  | ok t => exact congrArg Except.ok (h.consume t 1)

theorem popSeg {x : Seg} (hx : x = .es ∨ x = .ss) (s : State) : popSeg x (φ s) = (popSeg x s).map φ := by
  simp only [Machine.popSeg, State.incGpr, h.gpr, h.setGpr, h.memRead, h.popped _ x _ hx, State.finalAdvance_eq, h.consume]
  cases s.memRead (s.gpr .esp) .w16 <;> rfl

theorem hlt (s : State) : hlt (φ s) = (hlt s).map φ := by
  show Except.ok (if (φ s).cfg.hltAdvancesEip then State.consume { φ s with halted := true } 1 else _) = _
  rw [h.withHalted, h.consume, h.cfg]
  simp only [Machine.hlt, Except.map]
  split <;> rfl

/-- No handler sees φ. -/
theorem handler (i : Instr) (s : State) : handler i (φ s) = (handler i s).map φ := by
  have behind : ∀ (p : Prefix) (j : Instr) (s : State), (∀ s, Machine.handler j (φ s) = (Machine.handler j s).map φ) →
      Machine.handler (p.before j) (φ s) = (Machine.handler (p.before j) s).map φ := fun p j s ih => by
    rw [handler_before, handler_before, h.consume, ih]
  induction i generalizing s with
  | es j ih => exact behind .es j s ih
  | cs j ih => exact behind .cs j s ih
  | ss j ih => exact behind .ss j s ih
  | ds j ih => exact behind .ds j s ih
  | fs j ih => exact behind .fs j s ih
  | gs j ih => exact behind .gs j s ih
  | o16 j ih => exact behind .o16 j s ih
  | a16 j ih => exact behind .a16 j s ih
  | addEbGb e g => exact h.aluRmReg .add .w8 e g s
  | addEvGv w e g => exact h.aluRmReg .add w.width e g s
  | addGbEb g e => exact h.aluRegRm .add .w8 g e s
  | addGvEv w g e => exact h.aluRegRm .add w.width g e s
  | addALIb v => exact h.aluAcc .add .w8 v s
  | addEAXIz z => exact h.aluAccZ .add z s
  | orEbGb e g => exact h.aluRmReg .or .w8 e g s
  | orEvGv w e g => exact h.aluRmReg .or w.width e g s
  | orGbEb g e => exact h.aluRegRm .or .w8 g e s
  | orGvEv w g e => exact h.aluRegRm .or w.width g e s
  | orALIb v => exact h.aluAcc .or .w8 v s
  | orEAXIz z => exact h.aluAccZ .or z s
  | adcEbGb e g => exact h.aluRmReg .adc .w8 e g s
  | adcEvGv w e g => exact h.aluRmReg .adc w.width e g s
  | adcGbEb g e => exact h.aluRegRm .adc .w8 g e s
  | adcGvEv w g e => exact h.aluRegRm .adc w.width g e s
  | adcALIb v => exact h.aluAcc .adc .w8 v s
  | adcEAXIz z => exact h.aluAccZ .adc z s
  | pushES => exact h.pushSeg (.inl rfl) s
  | pushCS => exact h.pushSeg (.inr (.inl rfl)) s
  | pushSS => exact h.pushSeg (.inr (.inr rfl)) s
  | popES => exact h.popSeg (.inl rfl) s
  | popSS => exact h.popSeg (.inr rfl) s
  | hlt => exact h.hlt s

/-! The cycle. -/

theorem fetchDecode (s : State) : (φ s).fetchDecode = s.fetchDecode := by
  have hr : (φ s).streamReader = s.streamReader := funext fun off => funext fun w => by
    simp only [State.streamReader, h.eip, h.memRead]
  simp only [State.fetchDecode, hr, h.cfg]

theorem takeFault (s : State) (a : Nat) : takeFault (φ s) a = φ (takeFault s a) := h.withFaultStatus ..

theorem unmappedOpcode (p : Nat) (op : Byte) (s : State) : unmappedOpcode p op (φ s) = φ (unmappedOpcode p op s) := by
  show State.consume
    { (φ s).consume p with diag := ((φ s).consume p).diag ++ [{ byte := op, addr := ((φ s).consume p).eip }] } 1 = _
  rw [h.consume, h.withDiag, h.diag, h.eip, h.consume]
  rfl

theorem exec (i : Instr) (s : State) : exec i (φ s) = mapNext φ (exec i s) := by
  rw [exec_eq_endCycle, exec_eq_endCycle, h.handler]
  cases Machine.handler i s with
  | ok t => rfl
  | error a => exact congrArg Host.Outcome.next (h.takeFault s a)

theorem stopDecode (s : State) (e : DecodeStop) : stopDecode (φ s) e = mapNext φ (stopDecode s e) := by
  cases e with
  | outOfRange a => exact congrArg Host.Outcome.next (h.takeFault s a)
  | unmapped ps op => exact congrArg Host.Outcome.next (h.unmappedOpcode ps.length op s)
  | endless => rfl

/-- No step sees φ: it does before and after φ the same. -/
theorem step (s : State) : step (φ s) = mapNext φ (step s) := by
  have hs : (φ s).stopped = s.stopped := by simp only [State.stopped, h.halted, h.faultStatus]
  simp only [Machine.step, hs, h.fetchDecode]
  split
  · rfl
  · cases s.fetchDecode with
    | ok r => exact h.exec ..
    | error e => exact h.stopDecode ..

end Unseen

/-! ### DS, FS and GS -/

theorem unseen_withDataSegs (d f g : BitVec 16) : Unseen (withDataSegs · d f g) where
  gpr _ g := by cases g <;> rfl
  eip _ := rfl
  halted _ := rfl
  faultStatus _ := rfl
  mem _ := rfl
  diag _ := rfl
  cfg _ := rfl
  pushed _ x hx := by rcases hx with rfl | rfl | rfl <;> rfl
  popped _ x _ hx := by rcases hx with rfl | rfl <;> rfl
  setGpr _ g _ := by cases g <;> rfl
  withEip _ _ := rfl
  withHalted _ _ := rfl
  withFaultStatus _ _ := rfl
  withMem _ _ := rfl
  withDiag _ _ := rfl
  runAlu _ _ _ _ _ := rfl

/-- Settles O24: replacing DS, FS and GS is a change no step sees. -/
theorem dataSegmentsNeverRead : Obligations.DataSegmentsNeverRead := by
  unfold Obligations.DataSegmentsNeverRead
  intro s t d f g h
  rw [(unseen_withDataSegs d f g).step s, h]
  rfl

/-! ### The inert flag cells -/

/-- The flag store with the arithmetic cells of f and every other cell of g. -/
def FlagStore.arithmeticOver (f g : FlagStore) : FlagStore := arithmeticCells.foldr (fun c k => k.set c (f.get c)) g

theorem FlagStore.get_arithmeticOver (f g : FlagStore) (i : Fin flagIndexCount) :
    (f.arithmeticOver g).get i = if i ∈ arithmeticCells then f.get i else g.get i := by
  unfold FlagStore.arithmeticOver
  induction arithmeticCells with
  | nil => simp
  | cons c cs ih =>
    rw [List.foldr_cons, FlagStore.get_set, ih]
    by_cases hc : i = c
    · simp [hc]
    · simp [hc]

/-- Every cell a sum leaves depends on F[OF] and on that cell alone (42_alu.md R147, R152). -/
theorem aluSum_get_congr {f g : FlagStore} (hovf : f.get FlagName.ovf.cell = g.get FlagName.ovf.cell)
    {i : Fin flagIndexCount} (hi : f.get i = g.get i) (p : OfPolicy) {n : Nat} (a b : BitVec n) (c : Bool) :
    (aluSum p a b c f).2.get i = (aluSum p a b c g).2.get i := by
  simp only [aluSum, hovf]
  obtain ⟨cf, ovf⟩ := overflowHeuristic p (g.get FlagName.ovf.cell) _ _
  simp only [resultFlags, FlagStore.get_set, hi]

theorem aluOr_get_congr {f g : FlagStore} {i : Fin flagIndexCount} (hi : f.get i = g.get i) {n : Nat} (a b : BitVec n) :
    (aluOr a b f).2.get i = (aluOr a b g).2.get i := by
  simp only [aluOr, resultFlags, FlagStore.get_set, hi]

/-- The ALU reads no flag cell but CF and OF: its result depends on F[CF], and a cell it leaves on F[CF], F[OF] and that
cell (42_alu.md R140, R147). -/
theorem alu_congr {f g : FlagStore} (hcf : f.get FlagName.cf.cell = g.get FlagName.cf.cell)
    (hovf : f.get FlagName.ovf.cell = g.get FlagName.ovf.cell) (p : OfPolicy) (op : AluOp) {n : Nat} (a b : BitVec n) :
    (alu p op a b f).1 = (alu p op a b g).1 ∧
    ∀ i, f.get i = g.get i → (alu p op a b f).2.get i = (alu p op a b g).2.get i := by
  cases op with
  | add => exact ⟨rfl, fun i hi => aluSum_get_congr hovf hi ..⟩
  | or => exact ⟨rfl, fun i hi => aluOr_get_congr hi ..⟩
  | adc =>
    simp only [alu, hcf]
    exact ⟨rfl, fun i hi => aluSum_get_congr hovf hi ..⟩

/-- The ALU on a flag store with its inert cells replaced: the same result, and the same cells but for those. -/
theorem alu_arithmeticOver (p : OfPolicy) (op : AluOp) {n : Nat} (a b : BitVec n) (f g : FlagStore) :
    alu p op a b (f.arithmeticOver g) = ((alu p op a b f).1, (alu p op a b f).2.arithmeticOver g) := by
  have same : ∀ i, i ∈ arithmeticCells → (f.arithmeticOver g).get i = f.get i := fun i hi => by
    rw [FlagStore.get_arithmeticOver, if_pos hi]
  obtain ⟨hr, hc⟩ := alu_congr (same _ (by decide)) (same _ (by decide)) p op a b
  refine Prod.ext hr (FlagStore.ext_cells fun i => ?_)
  rw [FlagStore.get_arithmeticOver]
  split
  · next hi => exact hc i (same i hi)
  · next hi => rw [alu_inert _ _ _ _ _ i hi, FlagStore.get_arithmeticOver, if_neg hi]

/-- The state with its inert flag cells replaced by those of g. -/
def withInertCells (g : FlagStore) (s : State) : State := { s with eflags := FlagStore.arithmeticOver s.eflags g }

theorem unseen_withInertCells (g : FlagStore) : Unseen (withInertCells g) where
  gpr _ g := by cases g <;> rfl
  eip _ := rfl
  halted _ := rfl
  faultStatus _ := rfl
  mem _ := rfl
  diag _ := rfl
  cfg _ := rfl
  pushed _ x hx := by rcases hx with rfl | rfl | rfl <;> rfl
  popped _ x _ hx := by rcases hx with rfl | rfl <;> rfl
  setGpr _ g _ := by cases g <;> rfl
  withEip _ _ := rfl
  withHalted _ _ := rfl
  withFaultStatus _ _ := rfl
  withMem _ _ := rfl
  withDiag _ _ := rfl
  runAlu s op _ a b := by
    simp only [State.runAlu_eq, withInertCells, alu_arithmeticOver]

/-- A state whose arithmetic cells are replaced by equal ones differs in its inert cells only. -/
theorem withInertCells_of_agree {s : State} {f : FlagStore} (h : ArithmeticCellsAgree s.eflags f) :
    withInertCells f s = { s with eflags := f } := by
  have hf : FlagStore.arithmeticOver s.eflags f = f := FlagStore.ext_cells fun i => by
    rw [FlagStore.get_arithmeticOver]
    split
    · next hi => exact h i hi
    · rfl
  rw [withInertCells, hf]

/-- Settles O23: replacing the inert flag cells is a change no step sees. -/
theorem inertFlagCellsNeverRead : Obligations.InertFlagCellsNeverRead := by
  unfold Obligations.InertFlagCellsNeverRead
  intro s t f hf h
  refine ⟨FlagStore.arithmeticOver t.eflags f, ?_, fun i hi => ?_, fun i hi => ?_⟩
  · rw [← withInertCells_of_agree hf, (unseen_withInertCells f).step s, h]
    rfl
  · rw [FlagStore.get_arithmeticOver, if_pos (by exact hi)]
  · rw [FlagStore.get_arithmeticOver, if_neg (by exact hi)]

end Sys2Proof.Machine
end

section
/-! What every step keeps, what a view write changes, and the host's calls (10_state.md R24, R25, R29, R33, R36 to R39). -/

namespace Sys2Proof.Machine

open Sys2Proof.Spec

/-! ### What every step keeps -/

/-- What a step that runs no instruction to its end leaves: a stopped core, a fault and an unmapped opcode move at most
EIP, the fault status and the diagnostic stream, and the last appends one event (41_fetch_dispatch.md R120, R127, R131). -/
def NoInstruction (s t : State) : Prop :=
  ∃ v f d, t = { s with eip := v, faultStatus := f, diag := d } ∧ (d = s.diag ∨ ∃ e, d = s.diag ++ [e])

/-- A step either ran the decoded instruction to its end, with that instruction's frame, or ran none. -/
theorem step_kept {s t : State} (h : step s = .next t) :
    (∃ i n, s.fetchDecode = .ok (i, n) ∧ Kept i s t) ∨ NoInstruction s t := by
  rcases step_next_cases h with ⟨-, rfl⟩ | ⟨-, ⟨i, n, hd, hi⟩ | ⟨b, rfl⟩ | ⟨ps, op, -, rfl⟩⟩
  · exact .inr ⟨_, _, _, rfl, .inl rfl⟩
  · exact .inl ⟨i, n, hd, (handler_kept i hi).1⟩
  · exact .inr ⟨_, _, _, rfl, .inl rfl⟩
  · exact .inr ⟨_, _, _, rfl, .inr ⟨_, rfl⟩⟩

/-- Settles O20: an instruction's frame keeps the halted bit unless its body is HLT. -/
theorem onlyHltHalts : Obligations.OnlyHltHalts := by
  unfold Obligations.OnlyHltHalts
  intro s t h
  rcases step_kept h with ⟨i, n, hd, hk⟩ | ⟨v, f, d, rfl, -⟩
  · by_cases hb : i.body = .hlt
    · exact ⟨fun _ => hk.hlt hb, fun _ _ => ⟨i, n, hd, hb⟩⟩
    · rw [hk.halted hb]
      exact ⟨id, fun h0 h1 => absurd (h0.symm.trans h1) (by decide)⟩
  · exact ⟨id, fun h0 h1 => absurd (h0.symm.trans h1) (by decide)⟩

/-- Settles O21: an instruction's frame keeps every segment register but the one its body pops. -/
theorem segmentsWrittenByPopsOnly : Obligations.SegmentsWrittenByPopsOnly := by
  unfold Obligations.SegmentsWrittenByPopsOnly
  intro s t h
  rcases step_kept h with ⟨i, n, hd, hk⟩ | ⟨v, f, d, rfl, -⟩
  · exact ⟨hk.cs, hk.ds, hk.fs, hk.gs,
      fun he => ⟨i, n, hd, Classical.byContradiction fun hb => he (hk.es hb)⟩,
      fun hs => ⟨i, n, hd, Classical.byContradiction fun hb => hs (hk.ss hb)⟩⟩
  · exact ⟨rfl, rfl, rfl, rfl, fun he => absurd rfl he, fun hs => absurd rfl hs⟩

/-- Settles O22: an instruction's frame keeps every cell outside the arithmetic ones. -/
theorem inertFlagCellsKept : Obligations.InertFlagCellsKept := by
  unfold Obligations.InertFlagCellsKept
  intro s t h
  rcases step_kept h with ⟨i, n, -, hk⟩ | ⟨v, f, d, rfl, -⟩
  · exact hk.flags
  · exact fun _ _ => rfl

/-- Settles O25: an instruction emits no event, and a step without one at most one. -/
theorem diagnosticsOnlyGrow : Obligations.DiagnosticsOnlyGrow := by
  unfold Obligations.DiagnosticsOnlyGrow
  intro s t h
  rcases step_kept h with ⟨i, n, -, hk⟩ | ⟨v, f, d, rfl, hd⟩
  · exact ⟨hk.cfg, .inl hk.diag⟩
  · exact ⟨rfl, hd⟩

/-! ### Register views -/

theorem gprField_eq_gpr (s : State) (g : Gpr) : gprField s g = s.gpr g := by cases g <;> rfl

theorem slotValue_lo8 (s : State) (g : ByteGpr) : slotValue s (.lo8 g) = (s.gpr g.gpr).toNat := by cases g <;> rfl

theorem slotValue_hi8 (s : State) (g : ByteGpr) : slotValue s (.hi8 g) = (s.gpr g.gpr).toNat := by cases g <;> rfl

theorem slotValue_seg (s : State) (x : Seg) : slotValue s (.seg x) = (s.segReg x).toNat := by cases x <;> rfl

theorem slotView_lo8 (g : ByteGpr) : slotView (.lo8 g) = .r32 g.gpr := by cases g <;> rfl

theorem slotView_hi8 (g : ByteGpr) : slotView (.hi8 g) = .r32 g.gpr := by cases g <;> rfl

/-- Bit k of n bits cut from a slot is bit low + k of the slot. -/
theorem getLsbD_cut {m : Nat} (v : BitVec m) (low : Nat) {n k : Nat} (h : k < n) :
    (v.extractLsb' low n).getLsbD k = v.toNat.testBit (low + k) := by
  rw [BitVec.getLsbD_extractLsb', decide_eq_true h, Bool.true_and, BitVec.testBit_toNat]

/-- Settles O50: a view is its whole slot or a cut of it. -/
theorem viewReadsItsSlotBits : Obligations.ViewReadsItsSlotBits := by
  unfold Obligations.ViewReadsItsSlotBits
  intro s x k hk
  cases x with
  | r32 g => simp only [State.get, slotValue, gprField_eq_gpr, viewLow, Nat.zero_add, BitVec.testBit_toNat]
  | r16 g => simp only [State.get, slotValue, gprField_eq_gpr, viewLow, getLsbD_cut _ _ hk]
  | lo8 g => simp only [State.get, slotValue_lo8, viewLow, getLsbD_cut _ _ hk]
  | hi8 g => simp only [State.get, slotValue_hi8, viewLow, getLsbD_cut _ _ hk]
  | eip => simp only [State.get, slotValue, viewLow, Nat.zero_add, BitVec.testBit_toNat]
  | ip => simp only [State.get, slotValue, viewLow, getLsbD_cut _ _ hk]
  | seg x => simp only [State.get, slotValue_seg, viewLow, Nat.zero_add, BitVec.testBit_toNat]

/-- The two slot values agree on every bit that view x does not name. -/
def BitsKeptOutside (x : View) (v w : Word) : Prop :=
  ∀ k, ¬(viewLow x ≤ k ∧ k < viewLow x + x.bits) → w.getLsbD k = v.getLsbD k

/-- A whole slot has no bit outside its view. -/
theorem bitsKeptOutside_whole {x : View} (hl : viewLow x = 0) (hb : x.bits = 32) (v w : Word) : BitsKeptOutside x v w := by
  intro k hk
  rw [BitVec.getLsbD_of_ge _ _ (by omega), BitVec.getLsbD_of_ge _ _ (by omega)]

/-- The bits of a slot from n on, cut off, are those bits. -/
theorem getLsbD_cut_top {j m n : Nat} (u : BitVec m) (hm : n + j = m) (i : Nat) :
    (u.extractLsb' n j).getLsbD i = u.getLsbD (n + i) := by
  rw [BitVec.getLsbD_extractLsb']
  by_cases h : i < j
  · rw [decide_eq_true h, Bool.true_and]
  · rw [BitVec.getLsbD_of_ge u _ (by omega), Bool.and_false]

/-- A slot with its low bits replaced keeps its other bits. -/
theorem bitsKeptOutside_low {x : View} {j : Nat} (hl : viewLow x = 0) (hb : x.bits + j = 32) (u : Word) (v : BitVec x.bits) :
    BitsKeptOutside x u ((u.extractLsb' x.bits j ++ v).cast (by omega)) := by
  intro k hk
  rw [BitVec.getLsbD_cast, BitVec.getLsbD_append, if_neg (by omega), getLsbD_cut_top u hb, Nat.add_sub_cancel' (by omega)]

/-- A slot with bits 15:8 replaced keeps bits 7:0 and its bits from 16 on. -/
theorem bitsKeptOutside_hi8 (g : ByteGpr) (u : Word) (v : BitVec 8) :
    BitsKeptOutside (.hi8 g) u (u.extractLsb' 16 16 ++ v ++ u.extractLsb' 0 8) := by
  intro k hk
  simp only [viewLow, View.bits] at hk
  by_cases h : k < 8
  · rw [BitVec.getLsbD_append, if_pos h, getLsbD_cut u 0 h, Nat.zero_add, BitVec.testBit_toNat]
  · rw [BitVec.getLsbD_append, if_neg h, BitVec.getLsbD_append, if_neg (by omega), getLsbD_cut_top u rfl,
      show 16 + (k - 8 - 8) = k by omega]

/-- What a view write does: it replaces one slot, in which only the bits of the view may differ (10_state.md R25). -/
theorem set_cases (s : State) (x : View) (v : BitVec x.bits) :
    (∃ g w, slotView x = .r32 g ∧ s.set x v = s.setGpr g w ∧ BitsKeptOutside x (s.gpr g) w) ∨
    (∃ w, slotView x = .eip ∧ s.set x v = { s with eip := w } ∧ BitsKeptOutside x s.eip w) ∨
    (∃ y w, x = .seg y ∧ s.set x v = s.setSeg y w) := by
  cases x with
  | r32 g => exact .inl ⟨g, v, rfl, rfl, bitsKeptOutside_whole rfl rfl _ _⟩
  | r16 g => exact .inl ⟨g, _, rfl, rfl, bitsKeptOutside_low (x := .r16 g) rfl rfl _ v⟩
  | lo8 g => exact .inl ⟨g.gpr, _, slotView_lo8 g, rfl, bitsKeptOutside_low (x := .lo8 g) rfl rfl _ v⟩
  | hi8 g => exact .inl ⟨g.gpr, _, slotView_hi8 g, rfl, bitsKeptOutside_hi8 g _ v⟩
  | eip => exact .inr (.inl ⟨v, rfl, rfl, bitsKeptOutside_whole rfl rfl _ _⟩)
  | ip => exact .inr (.inl ⟨_, rfl, rfl, bitsKeptOutside_low (x := .ip) rfl rfl _ v⟩)
  | seg y => exact .inr (.inr ⟨y, v, rfl, rfl⟩)

/-- A view write leaves everything but registers. -/
theorem set_kept (s : State) (x : View) (v : BitVec x.bits) :
    (s.set x v).eflags = s.eflags ∧ (s.set x v).mem = s.mem ∧ (s.set x v).halted = s.halted ∧
    (s.set x v).faultStatus = s.faultStatus ∧ (s.set x v).diag = s.diag ∧ (s.set x v).cfg = s.cfg := by
  rcases set_cases s x v with ⟨g, w, -, hs, -⟩ | ⟨w, -, hs, -⟩ | ⟨y, w, -, hs⟩
  · simp [hs]
  · simp [hs]
  · simp [hs]

/-- A view that is the full view of its slot is a 32-bit register, EIP or a segment register. -/
theorem fullView_cases {y : View} (h : slotView y = y) : (∃ g, y = .r32 g) ∨ y = .eip ∨ ∃ z, y = .seg z := by
  cases y with
  | r32 g => exact .inl ⟨g, rfl⟩
  | eip => exact .inr (.inl rfl)
  | seg z => exact .inr (.inr ⟨z, rfl⟩)
  | r16 g => cases h
  | lo8 g => rw [slotView_lo8] at h; cases h
  | hi8 g => rw [slotView_hi8] at h; cases h
  | ip => cases h

/-- A view write changes no bit of a full view outside the bits it names. -/
theorem getLsbD_get_set (s : State) (x : View) (v : BitVec x.bits) {y : View} (hy : slotView y = y) {k : Nat}
    (hk : ¬(y = slotView x ∧ viewLow x ≤ k ∧ k < viewLow x + x.bits)) :
    ((s.set x v).get y).getLsbD k = (s.get y).getLsbD k := by
  rcases set_cases s x v with ⟨g, w, hx, hs, hw⟩ | ⟨w, hx, hs, hw⟩ | ⟨z, w, rfl, hs⟩
  · rw [hs]
    rcases fullView_cases hy with ⟨g', rfl⟩ | rfl | ⟨z, rfl⟩
    · simp only [State.get, State.gpr_setGpr]
      split
      · next e => exact e ▸ hw k fun h => hk ⟨e ▸ hx.symm, h⟩
      · rfl
    · simp only [State.get, State.setGpr_eip]
    · simp only [State.get, State.segReg_setGpr]
  · rw [hs]
    rcases fullView_cases hy with ⟨g', rfl⟩ | rfl | ⟨z, rfl⟩
    · simp only [State.get, State.gpr_withEip]
    · exact hw k fun h => hk ⟨hx.symm, h⟩
    · simp only [State.get, State.segReg_withEip]
  · rw [hs]
    rcases fullView_cases hy with ⟨g', rfl⟩ | rfl | ⟨z', rfl⟩
    · simp only [State.get, State.gpr_setSeg]
    · simp only [State.get, State.setSeg_eip]
    · by_cases e : z' = z
      · have hk16 : 16 ≤ k := Nat.le_of_not_lt fun h => hk ⟨congrArg View.seg e, Nat.zero_le k, by simpa [viewLow] using h⟩
        rw [BitVec.getLsbD_of_ge _ _ hk16, BitVec.getLsbD_of_ge _ _ hk16]
      · simp only [State.get, State.segReg_setSeg_ne s w e]

/-- Settles O51: a write is read back, and it replaces one slot, in which it keeps the bits outside the view. -/
theorem viewWriteMerges : Obligations.ViewWriteMerges := by
  unfold Obligations.ViewWriteMerges
  intro s x v
  exact ⟨State.get_set_same s x v, fun y k hy hk => getLsbD_get_set s x v hy hk, set_kept s x v⟩

/-! ### The host's calls -/

/-- Settles O58: the value is 0 or 1 and is stored, or it is refused. -/
theorem hostFlagWrite : Obligations.HostFlagWrite := by
  unfold Obligations.HostFlagWrite
  intro s i v
  have stored : ∀ b : Bool, hostGetFlag (s.setFlag i b) i = b.toNat ∧ CellsKept [i] s.eflags (s.setFlag i b).eflags ∧
      s.setFlag i b = { s with eflags := (s.setFlag i b).eflags } := fun b =>
    ⟨congrArg Bool.toNat (FlagStore.get_set_same ..),
      fun j hj => by rw [State.setFlag_eflags, FlagStore.get_set, if_neg (by simpa using hj)], rfl⟩
  refine ⟨fun h => ?_, fun h => ?_⟩
  · rw [hostSetFlag, if_neg (by omega), if_neg (by omega)]
  · obtain rfl | rfl : v = 0 ∨ v = 1 := by omega
    · exact ⟨_, rfl, stored false⟩
    · exact ⟨_, rfl, stored true⟩

/-- The invariant speaks of memory, parameters and fault status only. -/
theorem State.Inv.congr {s t : State} (h : s.Inv) (hm : t.mem = s.mem) (hc : t.cfg = s.cfg)
    (hf : t.faultStatus = s.faultStatus) : t.Inv := by
  unfold State.Inv
  rw [hm, hc, hf]
  exact h

/-- A canonical memory that lists only addresses listed before or below N keeps the invariant. -/
theorem State.Inv.withMem {s : State} (h : s.Inv) {m : Memory} (hw : m.wf)
    (hb : ∀ c ∈ m, c ∈ s.mem ∨ c.1 < s.cfg.memSize) : State.Inv { s with mem := m } := by
  obtain ⟨-, hlt, hc, hf⟩ := h
  exact ⟨hw, fun c hcm => (hb c hcm).elim (hlt c) id, hc, hf⟩

/-- A reset state keeps the invariant of the memory and the parameters it keeps. -/
theorem State.Inv.hostReset {s : State} (h : s.Inv) : (hostReset s).Inv := by
  obtain ⟨hw, hlt, hc, -⟩ := h
  exact ⟨hw, hlt, hc, trivial⟩

theorem State.Inv.hostSetView {s : State} (h : s.Inv) (x : View) (v : BitVec x.bits) : (hostSetView s x v).Inv := by
  obtain ⟨-, hm, -, hf, -, hc⟩ := set_kept s x v
  exact h.congr hm hc hf

theorem State.Inv.hostSetFlag {s t : State} (h : s.Inv) {i : Fin flagIndexCount} {v : Nat}
    (ht : hostSetFlag s i v = .ok t) : t.Inv := by
  unfold Machine.hostSetFlag at ht
  split at ht
  · cases ht
    exact h.congr rfl rfl rfl
  · split at ht
    · cases ht
      exact h.congr rfl rfl rfl
    · cases ht

theorem State.Inv.hostWrite {s t : State} (h : s.Inv) {a : Word} {w : Width} {v : BitVec w.bits}
    (ht : hostWrite s a w v = .ok t) : t.Inv := by
  unfold Machine.hostWrite at ht
  cases hr : s.inRange a w with
  | true =>
    rw [State.memWrite_ok hr] at ht
    cases ht
    rw [State.inRange_iff] at hr
    exact h.withMem (Memory.wf_store h.1 ..) fun c hc =>
      (Memory.mem_store hc).imp_right fun ⟨_, hlt⟩ => Nat.lt_of_lt_of_le hlt hr
  | false =>
    rw [State.memWrite_error hr] at ht
    cases ht

theorem State.Inv.hostLoad {s t : State} (h : s.Inv) {a : Nat} {l : List Byte} (ht : hostLoad s a l = .ok t) : t.Inv := by
  unfold Machine.hostLoad at ht
  split at ht
  · next hr =>
    cases ht
    exact h.withMem (Memory.wf_writeBytes h.1 ..) fun c hc =>
      (Memory.mem_writeBytes hc).imp_right fun ⟨_, hlt⟩ => Nat.lt_of_lt_of_le hlt hr
  · cases ht

/-- Settles O59: each call leaves memory as it is or stores below N, and sets no fault status but none. -/
theorem hostCallsKeepInvariant : Obligations.HostCallsKeepInvariant := by
  unfold Obligations.HostCallsKeepInvariant
  intro s h
  exact ⟨h.hostReset, h.hostSetView, fun _ _ _ => h.hostSetFlag, fun _ _ _ _ => h.hostWrite, fun _ _ _ => h.hostLoad⟩

end Sys2Proof.Machine
end

section
/-! Memory (20_memory.md R50 to R54, R61): what a read and a write of 1, 2 or 4 bytes do, which bytes a step stores to,
that every step keeps the invariant, and the fault of an operand that runs past N. -/

namespace Sys2Proof.Machine

open Sys2Proof.Spec

/-! ### Every step keeps the invariant -/

/-- A store below N keeps the invariant (20_memory.md R54). -/
theorem State.Inv.store {s : State} (h : s.Inv) {a n : Nat} (hr : a + n ≤ s.cfg.memSize) (v : Nat) :
    State.Inv { s with mem := s.mem.store a n v } :=
  h.withMem (Memory.wf_store h.1 ..) fun _ hc =>
    (Memory.mem_store hc).imp_right fun ⟨_, hlt⟩ => Nat.lt_of_lt_of_le hlt hr

/-- A fault keeps the invariant: the address of an access out of range is one R212 can record. -/
theorem State.Inv.takeFault {s : State} (h : s.Inv) (b : Word) : (takeFault s (s.outOfRangeAt b)).Inv := by
  obtain ⟨hw, hlt, hc, -⟩ := h
  exact ⟨hw, hlt, hc, State.outOfRangeAt_bounds hc b⟩

/-- An instruction keeps the invariant: it stores in range or nowhere. -/
theorem State.Inv.handler {s t : State} (h : s.Inv) {i : Instr} (hi : handler i s = .ok t) : t.Inv := by
  obtain ⟨hk, -⟩ := handler_kept i hi
  rcases hk.mem with hm | ⟨a, w, v, hr, hm⟩
  · exact h.congr hm hk.cfg hk.fault
  · exact (h.store ((State.inRange_iff ..).mp hr) v).congr hm hk.cfg hk.fault

/-- Settles O18: a step does nothing, runs an instruction, takes the fault of an access out of range, or skips an
unmapped opcode, which touches only EIP and the diagnostic stream. -/
theorem stepKeepsInvariant : Obligations.StepKeepsInvariant := by
  unfold Obligations.StepKeepsInvariant
  intro s t h hst
  rcases step_next_cases hst with ⟨-, rfl⟩ | ⟨-, ⟨i, n, -, hi⟩ | ⟨b, rfl⟩ | ⟨ps, op, -, rfl⟩⟩
  · exact h
  · exact h.handler hi
  · exact h.takeFault b
  · exact h.congr rfl rfl rfl

/-! ### Where a step stores -/

theorem memKept_of_mem_eq {s t : State} (h : t.mem = s.mem) : MemKept s t := fun _ => by rw [h]

theorem memKeptOutside_of_memKept {s t : State} (h : MemKept s t) (a k : Nat) : MemKeptOutside a k s t := fun x _ => h x

theorem memKeptOutside_of_store {s t : State} (hw : s.mem.wf) {a k v : Nat} (h : t.mem = s.mem.store a k v) :
    MemKeptOutside a k s t := fun x hx => by rw [h, Memory.read_store_outside hw hx]

theorem rmStore_size_le {s : State} {w : Width} {e : RM} {a k : Nat} (h : rmStore s w e = some (a, k)) : k ≤ 4 := by
  cases e with
  | reg n => cases h
  | mem x =>
    cases h
    cases w <;> decide

/-- No instruction stores to more than 4 bytes (20_memory.md R54). -/
theorem storeOf_size_le {s : State} {i : Instr} {a k : Nat} (h : storeOf s i = some (a, k)) : k ≤ 4 := by
  induction i with
  | es j ih => exact ih h
  | cs j ih => exact ih h
  | ss j ih => exact ih h
  | ds j ih => exact ih h
  | fs j ih => exact ih h
  | gs j ih => exact ih h
  | o16 j ih => exact ih h
  | a16 j ih => exact ih h
  | addEbGb e g => exact rmStore_size_le (w := .w8) h
  | addEvGv w e g => exact rmStore_size_le (w := w.width) h
  | orEbGb e g => exact rmStore_size_le (w := .w8) h
  | orEvGv w e g => exact rmStore_size_le (w := w.width) h
  | adcEbGb e g => exact rmStore_size_le (w := .w8) h
  | adcEvGv w e g => exact rmStore_size_le (w := w.width) h
  | pushES => cases h; decide
  | pushCS => cases h; decide
  | pushSS => cases h; decide
  | _ => cases h

/-- A core that is not quiescent is neither halted nor faulted (47_hlt.md R202). -/
theorem State.stopped_eq_false {s : State} : s.stopped = false ↔ s.halted = false ∧ s.faultStatus = .none := by
  simp [State.stopped]

/-- A step either ran the decoded instruction to its end, without a fault, or left memory as it is; and then the core was
quiescent, the cycle faulted, or no instruction was decoded. -/
theorem step_mem_cases {s t : State} (h : step s = .next t) :
    (s.halted = false ∧ s.faultStatus = .none ∧ t.faultStatus = .none ∧
      ∃ i n, s.fetchDecode = .ok (i, n) ∧ StoredAt s t (storeOf s i)) ∨
    (MemKept s t ∧ (s.halted = false → s.faultStatus = .none → t.faultStatus = .none → ∃ e, s.fetchDecode = .error e)) := by
  rcases step_next_cases h with ⟨hs, rfl⟩ | ⟨hs, ⟨i, n, hd, hi⟩ | ⟨b, rfl⟩ | ⟨ps, op, hd, rfl⟩⟩
  · refine .inr ⟨memKept_of_mem_eq rfl, fun hh hf _ => ?_⟩
    rw [State.stopped_eq_false.mpr ⟨hh, hf⟩] at hs
    cases hs
  · obtain ⟨hh, hf⟩ := State.stopped_eq_false.mp hs
    exact .inl ⟨hh, hf, (handler_kept i hi).1.fault.trans hf, i, n, hd, handler_stored i hi⟩
  · exact .inr ⟨memKept_of_mem_eq rfl, fun _ _ hf => by cases hf⟩
  · exact .inr ⟨memKept_of_mem_eq rfl, fun _ _ _ => ⟨_, hd⟩⟩

/-- Settles O26: a step that ran an instruction stored where `storeOf` says; every other step left memory as it is. -/
theorem stepStoresAtMostOneOperand : Obligations.StepStoresAtMostOneOperand := by
  unfold Obligations.StepStoresAtMostOneOperand
  intro s t hw hst
  rcases step_mem_cases hst with ⟨hh, hf, hf', i, n, hd, hm⟩ | ⟨hk, hclean⟩
  · rw [hd]
    refine ⟨fun hbad => ?_, nofun, fun j m hj hs => ?_, fun j m a k hj hs => ?_⟩
    · simp [hh, hf, hf'] at hbad
    · cases hj
      rw [hs] at hm
      exact memKept_of_mem_eq hm
    · cases hj
      rw [hs] at hm
      obtain ⟨hk, hr, v, hm⟩ := hm
      exact ⟨hk, memKeptOutside_of_store hw hm, fun _ _ _ => hr⟩
  · refine ⟨fun _ => hk, fun _ _ => hk, fun _ _ _ _ => hk, fun i n a k hd hs => ?_⟩
    refine ⟨storeOf_size_le hs, memKeptOutside_of_memKept hk a k, fun hh hf hf' => ?_⟩
    obtain ⟨e, he⟩ := hclean hh hf hf'
    cases hd.symm.trans he

/-! ### An operand past N -/

theorem State.inRange_eq_false_iff (s : State) (a : Word) (w : Width) :
    s.inRange a w = false ↔ s.cfg.memSize < a.toNat + w.bytes := by
  simp [State.inRange]

/-! The cycle of each ModR/M form, at every width. -/

theorem exec_addRmReg (e : RM) (g : RegNum) (w : Width) (s : State) :
    exec (addRmReg e g w) s = endCycle s (aluRmReg .add w e g s) := by cases w <;> rfl
theorem exec_addRegRm (g : RegNum) (e : RM) (w : Width) (s : State) :
    exec (addRegRm g e w) s = endCycle s (aluRegRm .add w g e s) := by cases w <;> rfl
theorem exec_orRmReg (e : RM) (g : RegNum) (w : Width) (s : State) :
    exec (orRmReg e g w) s = endCycle s (aluRmReg .or w e g s) := by cases w <;> rfl
theorem exec_orRegRm (g : RegNum) (e : RM) (w : Width) (s : State) :
    exec (orRegRm g e w) s = endCycle s (aluRegRm .or w g e s) := by cases w <;> rfl
theorem exec_adcRmReg (e : RM) (g : RegNum) (w : Width) (s : State) :
    exec (adcRmReg e g w) s = endCycle s (aluRmReg .adc w e g s) := by cases w <;> rfl
theorem exec_adcRegRm (g : RegNum) (e : RM) (w : Width) (s : State) :
    exec (adcRegRm g e w) s = endCycle s (aluRegRm .adc w g e s) := by cases w <;> rfl

/-- Settles O36: each shape reads its memory operand before it writes anything, so the cycle ends in that read's fault. -/
theorem operandBeyondMemoryFaults : Obligations.OperandBeyondMemoryFaults := by
  unfold Obligations.OperandBeyondMemoryFaults
  intro s w x g h
  rw [← State.inRange_eq_false_iff] at h
  have rmReg (op : AluOp) : endCycle s (aluRmReg op w (.mem x) g s) = .next (takeFault s (s.outOfRangeAt (s.ea x))) := by
    rw [aluRmReg_mem_error h, endCycle_error]
  have regRm (op : AluOp) : endCycle s (aluRegRm op w g (.mem x) s) = .next (takeFault s (s.outOfRangeAt (s.ea x))) := by
    rw [aluRegRm_mem_error h, endCycle_error]
  simp only [List.forall_mem_cons, exec_addRmReg, exec_addRegRm, exec_orRmReg, exec_orRegRm, exec_adcRmReg,
    exec_adcRegRm, rmReg, regRm]
  exact ⟨rfl, rfl, rfl, rfl, rfl, rfl, List.forall_mem_nil _⟩

/-! ### Reads and writes of 1, 2 and 4 bytes -/

/-- A load is the little-endian sum of its bytes (20_memory.md R53). -/
theorem Memory.load_eq_sum (m : Memory) (a n : Nat) :
    m.load a n = ((List.range n).map fun i => (m.read (a + i)).toNat * 2 ^ (8 * i)).sum := by
  induction n generalizing a with
  | zero => rfl
  | succ n ih =>
    have shift (i : Nat) : (m.read (a + (i + 1))).toNat * 2 ^ (8 * (i + 1)) =
        256 * ((m.read (a + 1 + i)).toNat * 2 ^ (8 * i)) := by
      rw [show a + (i + 1) = a + 1 + i by omega, Nat.mul_succ, Nat.pow_add]
      ring
    rw [Memory.load, ih, List.range_succ_eq_map, List.map_cons, List.sum_cons, List.map_map, ← List.sum_map_mul_left]
    simp only [Function.comp_def, Nat.succ_eq_add_one, shift, Nat.add_zero, Nat.mul_zero, Nat.pow_zero, Nat.mul_one]

/-- Settles O53: a read in range gives the load, which fits the width; one past N reports its first byte at or beyond
N. -/
theorem memReadIsLittleEndianSum : Obligations.MemReadIsLittleEndianSum := by
  unfold Obligations.MemReadIsLittleEndianSum
  intro s a w
  refine ⟨fun h => ⟨_, State.memRead_ok ((State.inRange_iff ..).mpr h), ?_⟩,
    fun h => State.memRead_error ((State.inRange_eq_false_iff ..).mpr h)⟩
  rw [BitVec.toNat_ofNat, Width.two_pow_bits, Nat.mod_eq_of_lt (Memory.load_lt ..), Memory.load_eq_sum]

/-- Settles O54: a write in range replaces the memory by the store; one past N reports its first byte at or beyond N. -/
theorem memWriteIsLittleEndian : Obligations.MemWriteIsLittleEndian := by
  unfold Obligations.MemWriteIsLittleEndian
  intro s a w v hw
  refine ⟨fun h => ⟨_, State.memWrite_ok ((State.inRange_iff ..).mpr h) v, fun i hi => ?_,
      memKeptOutside_of_store hw rfl, rfl⟩,
    fun h => State.memWrite_error ((State.inRange_eq_false_iff ..).mpr h) v⟩
  rw [Memory.read_store_inside hw hi, BitVec.toNat_ofNat, Nat.pow_mul]

/-- A write that is accepted was in range, and replaces the memory by the store (20_memory.md R54). -/
theorem State.memWrite_eq_ok {s t : State} {a : Word} {w : Width} {v : BitVec w.bits} (h : s.memWrite a w v = .ok t) :
    s.inRange a w = true ∧ t = { s with mem := s.mem.store a.toNat w.bytes v.toNat } := by
  cases hr : s.inRange a w with
  | true =>
    rw [State.memWrite_ok hr] at h
    cases h
    exact ⟨rfl, rfl⟩
  | false =>
    rw [State.memWrite_error hr] at h
    cases h

/-- Settles O55: the read is in range where the write was, and the load of what was stored is the value. -/
theorem memReadAfterWrite : Obligations.MemReadAfterWrite := by
  unfold Obligations.MemReadAfterWrite
  intro s t a w v hw h
  obtain ⟨hr, rfl⟩ := State.memWrite_eq_ok h
  rw [State.memRead_ok (by exact hr), Memory.load_store hw, Nat.mod_eq_of_lt (Width.toNat_lt v), BitVec.ofNat_toNat,
    BitVec.setWidth_eq]

end Sys2Proof.Machine
end

section
/-! The decoder and the encoder are inverse to each other (30_encoding.md R70 to R92), and what a decoded instruction's
widths and length are read off its bytes. -/

namespace Sys2Proof

open Sys2Proof.Machine Sys2Proof.Spec

/-! ### Prefixes around an instruction -/

theorem Prefix.byte_injective : Function.Injective Prefix.byte := fun p q h => by
  have hp := ofByte_iff.mpr (rfl : p.byte = p.byte)
  rw [ofByte_iff.mpr h] at hp
  exact (Option.some.inj hp).symm

/-- The record's test for a prefix byte is the decoder's test for the prefix (30_encoding.md R72, R73). -/
theorem byte_mem_record_prefixes (p : Prefix) (i : Instr) (a : Word) : p.byte ∈ (i.record a).prefixes ↔ p ∈ i.prefixes :=
  List.mem_map_of_injective Prefix.byte_injective

theorem encode_withPrefixes (ps : List Prefix) {j : Instr} (hj : j.prefixes = []) :
    encode (j.withPrefixes ps) = (ps.map Prefix.byte ++ [j.opcode]) ++ j.tailBytes := by
  simp [encode, withPrefixes_prefixes, withPrefixes_opcode, withPrefixes_tail, hj]

theorem wf_withPrefixes (ps : List Prefix) {j : Instr} (hj : j.prefixes = []) :
    (j.withPrefixes ps).wf = j.wfAt (operandSize ps) (addressSize ps) := by
  rw [Instr.wf, withPrefixes_wfAt, withPrefixes_prefixes, hj, List.append_nil]

theorem wfAt_iff {i : Instr} {osz : OpSize} {asz : AdSize} :
    i.wfAt osz asz = true ↔ (∀ w, i.opSize? = some w → w = osz) ∧ ∀ e, i.rm? = some e → e.wf asz = true := by
  cases ho : i.opSize? <;> cases hr : i.rm? <;> simp [Instr.wfAt, ho, hr]

/-! ### Decoding and encoding -/

theorem append_prefix_iff {a b l : List Byte} : a ++ b <+: l ↔ a <+: l.drop 0 ∧ b <+: l.drop a.length := by
  simpa using append_prefix_drop (l := l) a b 0

/-- What decodes is exactly what is well-formed and has its encoding at the head of the bytes. -/
theorem decode_eq_ok_iff {l : List Byte} {i : Instr} {n : Nat} :
    decode l = .ok (i, n) ↔ i.wf = true ∧ n = (encode i).length ∧ encode i <+: l := by
  unfold decode decodeWith
  constructor
  -- the prefix scan, the dispatch table and the form have each answered, and what they read stands in the bytes
  · intro h
    split at h
    · cases h
    · next ps op hscan =>
      split at h
      · cases h
      · next f hf =>
        split at h
        · cases h
        · next j k hform =>
          cases h
          obtain ⟨hhead, -⟩ := scan_sound hscan
          obtain ⟨hj, rfl, hw, rfl, htail⟩ := (form_iff hf).mp hform
          rw [wf_withPrefixes ps hj, encode_withPrefixes ps hj, append_prefix_iff]
          simp only [List.length_append, List.length_map, List.length_singleton]
          exact ⟨hw, trivial, hhead, htail⟩
  -- the encoding is prefixes and opcode, which the scan reads, and then the bytes the form reads
  · rintro ⟨hw, rfl, hp⟩
    obtain ⟨hi, hj⟩ := withPrefixes_body i
    generalize i.body = j at hi hj
    generalize i.prefixes = ps at hi
    subst hi
    rw [wf_withPrefixes ps hj] at hw
    rw [encode_withPrefixes ps hj] at hp ⊢
    have hlen := hp.length_le
    rw [append_prefix_iff] at hp
    simp only [List.length_append, List.length_map, List.length_singleton] at hp hlen ⊢
    obtain ⟨hhead, htail⟩ := hp
    obtain ⟨hmapped, hop⟩ := opcode_mapped j
    obtain ⟨f, hf⟩ := Option.isSome_iff_exists.mp hmapped
    have hscan := scan_complete (fuel := l.length + 1) hhead hop (by omega)
    have hform := (form_iff hf).mpr ⟨hj, rfl, hw, rfl, htail⟩
    simp only [hscan, hf, hform]

/-- Settles O1: the encoding of a well-formed instruction stands at the head of itself and whatever follows. -/
theorem decodeOfEncode : Obligations.DecodeOfEncode := by
  unfold Obligations.DecodeOfEncode
  exact fun i rest hw => decode_eq_ok_iff.mpr ⟨hw, rfl, List.prefix_append _ rest⟩

/-- Settles O2: a list that stands at the head of the bytes is what is taken from them. -/
theorem encodeOfDecode : Obligations.EncodeOfDecode := by
  unfold Obligations.EncodeOfDecode
  intro l i n h
  obtain ⟨hw, rfl, hp⟩ := decode_eq_ok_iff.mp h
  exact ⟨hw, hp.length_le, List.prefix_iff_eq_take.mp hp⟩

/-! ### The length -/

/-- The fields mod and rm of the length formula, as numbers (30_encoding.md R76, R88). -/
theorem fieldsByte_toNat (t : BitVec 2) (m l : BitVec 3) :
    (fieldsByte t m l).toNat / 64 = t.toNat ∧ (fieldsByte t m l).toNat % 8 = l.toNat := by
  revert t m l; decide

theorem RM.extraLength_a16 {e : RM} (h : e.wf .a16 = true) : e.extraLength = dispLength16 e.mod.toNat e.rm.toNat := by
  rcases e with n | (d | ⟨b, d⟩) | x
  case reg => cases n <;> rfl
  case mem.a16.disp => rfl
  case mem.a16.based =>
    cases d with
    | d0 => revert h; cases b <;> decide
    | d8 d => rfl
    | full d => rfl
  case mem.a32 => cases h

/-- The SIB base of an rm operand, 0 where it has no SIB byte. -/
def RM.sibBase (e : RM) : Nat := match e.sib with | some b => b.toNat % 8 | none => 0

theorem RM.extraLength_a32 {e : RM} (h : e.wf .a32 = true) :
    e.extraLength = sibLength e.mod.toNat e.rm.toNat + dispLength32 e.mod.toNat e.rm.toNat e.sibBase := by
  rcases e with n | x | (d | ⟨b, d⟩ | ⟨sc, i, b, d⟩ | ⟨sc, i, d⟩)
  case reg => cases n <;> rfl
  case mem.a16 => cases h
  case mem.a32.disp => rfl
  case mem.a32.based =>
    have hb : b.bits.toNat ≠ 4 := by
      rintro hb
      obtain rfl : b = .r4 := by revert hb; cases b <;> decide
      cases h
    cases d with
    | d0 => revert h; cases b <;> decide
    | d8 d => simp [RM.extraLength, RM.mod, RM.rm, Disp.mod, sibLength, dispLength32, hb]
    | full d => simp [RM.extraLength, RM.mod, RM.rm, Disp.mod, sibLength, dispLength32, hb]
  case mem.a32.sib =>
    have hb : (RM.mem (.a32 (.sib sc i b d))).sibBase = b.bits.toNat := (fieldsByte_toNat _ _ _).2
    rw [hb]
    cases d with
    | d0 =>
      have h5 : b.bits.toNat ≠ 5 := by
        rintro h5
        obtain rfl : b = .r5 := by revert h5; cases b <;> decide
        simp [RM.wf, Addr32.wf] at h
      simp [RM.extraLength, RM.mod, RM.rm, Disp.mod, sibLength, dispLength32, h5]
    | d8 d => rfl
    | full d => rfl
  case mem.a32.sibDisp =>
    have hb : (RM.mem (.a32 (.sibDisp sc i d))).sibBase = 5 := (fieldsByte_toNat _ _ _).2
    rw [hb]
    rfl

/-- An immediate has one byte, w/8 bytes, or there is none (30_encoding.md R85). -/
theorem immBytes_length (i : Instr) :
    i.immBytes.length = 0 ∨ i.immBytes.length = 1 ∨ ∃ w, i.opSize? = some w ∧ i.immBytes.length = w.width.bytes := by
  have immZ (z : ImmZ) : z.bytes.length = z.size.width.bytes := by cases z <;> rfl
  induction i with
  | addALIb | orALIb | adcALIb => exact .inr (.inl rfl)
  | addEAXIz z | orEAXIz z | adcEAXIz z => exact .inr (.inr ⟨z.size, rfl, immZ z⟩)
  | es _ ih | cs _ ih | ss _ ih | ds _ ih | fs _ ih | gs _ ih | o16 _ ih | a16 _ ih => exact ih
  | _ => exact .inl rfl

/-- The record of a ModR/M form has the raw bytes of its rm operand (10_state.md R40). -/
theorem record_of_rm {i : Instr} {e : RM} (hr : i.rm? = some e) (a : Word) :
    ∃ g : RegNum, (i.record a).modrm = some (fieldsByte e.mod g.bits e.rm) ∧ (i.record a).sib = e.sib := by
  obtain ⟨g, hg⟩ : ∃ g, i.reg? = some g := Option.isSome_iff_exists.mp (by rw [i.reg?_isSome, hr]; rfl)
  exact ⟨g, by simp [Instr.record, hr, hg], by simp [Instr.record, hr]⟩

/-- Settles O6: the encoder writes `Instr.length` bytes, and that length is the formula over the raw fields. -/
theorem instructionLength : Obligations.InstructionLength := by
  unfold Obligations.InstructionLength
  intro i hi
  obtain ⟨hosz, hasz⟩ := wfAt_iff.mp hi
  rw [encode_length, Instr.length]
  cases hr : i.rm? with
  | none =>
    have hm : (i.record 0).modrm = none := by simp [Instr.record, hr]
    rw [hm]
    refine ⟨fun m h => (Option.some_ne_none m h.symm).elim, fun _ => ⟨rfl, ?_⟩⟩
    rcases immBytes_length i with h | h | ⟨w, hw, h⟩
    · exact .inl h
    · exact .inr (.inl h)
    · rw [← hosz w hw, h]
      cases w <;> exact .inr (.inr rfl)
  | some e =>
    obtain ⟨g, hm, hs⟩ := record_of_rm hr 0
    obtain ⟨hmod, hrm⟩ := fieldsByte_toNat e.mod g.bits e.rm
    have he := hasz e hr
    rw [hm, hs]
    refine ⟨fun m h => ?_, fun h => (Option.some_ne_none _ h).elim⟩
    obtain rfl := Option.some.inj h
    rw [hmod, hrm]
    cases ha : addressSize i.prefixes with
    | a16 =>
      rw [ha] at he
      simp only [RM.length, RM.extraLength_a16 he, Nat.add_assoc]
    | a32 =>
      rw [ha] at he
      simp only [RM.length, RM.extraLength_a32 he, Nat.add_assoc]
      rfl

/-! ### The widths -/

/-- Settles O7: a decoded instruction is well-formed, so its operand width is the one its prefixes select. -/
theorem operandWidthFollowsPrefix : Obligations.OperandWidthFollowsPrefix := by
  unfold Obligations.OperandWidthFollowsPrefix
  intro l i n w h hw
  obtain ⟨hi, -, -⟩ := decode_eq_ok_iff.mp h
  have hsel : w = operandSize i.prefixes := (wfAt_iff.mp hi).1 w hw
  rw [show (0x66 : Byte) = Prefix.byte .o16 from rfl, byte_mem_record_prefixes, hsel]
  exact ⟨fun hp => if_pos hp, fun hp => if_neg hp⟩

/-- A well-formed memory operand has the address width in force (30_encoding.md R73). -/
theorem RM.wf_iff {e : RM} {asz : AdSize} :
    e.wf asz = true ↔ (∀ a, e.adSize? = some a → a = asz) ∧ (e.wf .a16 = true ∨ e.wf .a32 = true) := by
  rcases e with n | x | x <;> cases asz <;> simp [RM.wf, RM.adSize?]

/-- Settles O8: a decoded instruction is well-formed, so its address width is the one its prefixes select. -/
theorem addressWidthFollowsPrefix : Obligations.AddressWidthFollowsPrefix := by
  unfold Obligations.AddressWidthFollowsPrefix
  intro l i n e a h he ha
  obtain ⟨hi, -, -⟩ := decode_eq_ok_iff.mp h
  have hsel : a = addressSize i.prefixes := (RM.wf_iff.mp ((wfAt_iff.mp hi).2 e he)).1 a ha
  rw [show (0x67 : Byte) = Prefix.byte .a16 from rfl, byte_mem_record_prefixes, hsel]
  exact ⟨fun hp => if_pos hp, fun hp => if_neg hp⟩

/-! ### The tables -/

/-- Settles O3: seven closed runs of the decoder. -/
theorem sampleWordsDecode : Obligations.SampleWordsDecode := by
  unfold Obligations.SampleWordsDecode
  decide +kernel

/-- Settles O4: the dispatch table at each of the 256 bytes. -/
theorem dispatchTableExact : Obligations.DispatchTableExact := by
  unfold Obligations.DispatchTableExact
  decide +kernel

/-- Settles O5: the prefix table at each of the 256 bytes. -/
theorem prefixBytesExact : Obligations.PrefixBytesExact := by
  unfold Obligations.PrefixBytesExact
  decide +kernel

end Sys2Proof
end

section
/-! The register table and the effective addresses, on numbers (30_encoding.md R79 to R83; 40_effective_address.md R104 to
R107). -/

namespace Sys2Proof.Machine

open Sys2Proof.Spec

/-! ### Registers by number -/

/-- Settles O52: the table at each of its eight rows and three widths. -/
theorem registerTable : Obligations.RegisterTable := by
  unfold Obligations.RegisterTable
  intro n w
  refine ⟨regView_bits n w, ?_⟩
  cases n <;> cases w <;> exact ⟨rfl, rfl⟩

theorem regValue_w32 (s : State) (n : RegNum) : regValue s n .w32 = (s.gpr (gprOf n)).toNat := by
  have hslot : slotOf n .w32 = gprOf n := by cases n <;> rfl
  have hlow : lowBitOf n .w32 = 0 := by cases n <;> rfl
  rw [regValue, hslot, hlow, Nat.pow_zero, Nat.div_one]
  exact Nat.mod_eq_of_lt (s.gpr (gprOf n)).isLt

/-! ### Sums with a displacement -/

/-- A sum with a sign-extended disp8 is the sum with its signed value (30_encoding.md R83). -/
theorem toNat_add_signExtend {n m : Nat} (x : BitVec n) (d : BitVec m) :
    ((x + d.signExtend n).toNat : Int) = ((x.toNat : Int) + d.toInt) % (2 ^ n : Nat) := by
  rw [BitVec.toNat_add, BitVec.signExtend, BitVec.toNat_ofInt, Int.natCast_emod, Int.natCast_add, Int.toNat_of_nonneg,
    Int.add_emod_emod]
  exact Int.emod_nonneg _ (by exact_mod_cast (Nat.two_pow_pos n).ne')

/-- An address expression u, with each kind of displacement after it: the sums modulo 2^n (40_effective_address.md R106). -/
theorem add_dispValue {n : Nat} {u : BitVec n} {k : Nat} (hu : u.toNat = k % 2 ^ n) (d8 : BitVec 8) (d : BitVec n) :
    (u + dispValue .d0).toNat = k % 2 ^ n ∧
    ((u + dispValue (.d8 d8)).toNat : Int) = ((k : Int) + d8.toInt) % (2 ^ n : Nat) ∧
    (u + dispValue (.full d)).toNat = (k + d.toNat) % 2 ^ n := by
  refine ⟨?_, ?_, ?_⟩
  · exact (congrArg BitVec.toNat (BitVec.add_zero u)).trans hu
  · rw [dispValue, toNat_add_signExtend, hu, Int.natCast_emod, Int.emod_add_emod]
  · rw [dispValue, BitVec.toNat_add, hu, Nat.mod_add_mod]

/-! ### 16-bit addresses -/

theorem ea_based16_toNat (s : State) (b : Base16) (d : Disp 16) :
    (s.ea (.a16 (.based b d))).toNat = (s.base16 b + dispValue d).toNat :=
  BitVec.toNat_setWidth_of_le (by decide)

theorem get_r16_toNat (s : State) (g : Gpr) : (s.get (.r16 g)).toNat = (s.gpr g).toNat % 65536 := by
  show ((s.gpr g).extractLsb' 0 16).toNat = _
  rw [BitVec.extractLsb'_toNat, Nat.shiftRight_zero]

/-- Settles O47: each base expression is a sum of 16-bit views, and each displacement is added to it. -/
theorem effectiveAddress16 : Obligations.EffectiveAddress16 := by
  unfold Obligations.EffectiveAddress16
  intro s d8 d16 bx bp si di
  refine ⟨BitVec.toNat_setWidth_of_le (by decide), fun p hp => ?_⟩
  have hbase : (s.base16 p.1).toNat = p.2 % 2 ^ 16 := by
    revert p
    simp only [List.forall_mem_cons, State.base16, BitVec.toNat_add, get_r16_toNat]
    simp [State.gpr, bx, bp, si, di]
  simp only [ea_based16_toNat]
  exact add_dispValue hbase d8 d16

/-! ### 32-bit addresses -/

/-- Settles O48: each displacement is added to the base register. -/
theorem effectiveAddress32 : Obligations.EffectiveAddress32 := by
  unfold Obligations.EffectiveAddress32
  intro s b d8 d32
  have hlt : regValue s b .w32 < 2 ^ 32 := Nat.mod_lt _ (by decide)
  have hbase : (s.gpr (gprOf b)).toNat = regValue s b .w32 % 2 ^ 32 := by rw [Nat.mod_eq_of_lt hlt, regValue_w32]
  obtain ⟨h0, h8, hfull⟩ := add_dispValue hbase d8 d32
  exact ⟨rfl, h0.trans (Nat.mod_eq_of_lt hlt), h8, hfull⟩

/-- The scaled index is the index part modulo 2^32 (30_encoding.md R77, R82). -/
theorem indexValue_toNat (s : State) {sc : Scale} {k : Nat} (hk : (scaleFactor sc).toNat = k) (i : Option RegNum) :
    (s.indexValue sc i).toNat = indexPart s k i % 2 ^ 32 := by
  cases i with
  | none => rfl
  | some n => rw [State.indexValue, BitVec.toNat_mul, hk, indexPart, regValue_w32]

/-- Settles O49: each displacement is added to base plus scaled index, or to the scaled index alone. -/
theorem effectiveAddressSib : Obligations.EffectiveAddressSib := by
  unfold Obligations.EffectiveAddressSib
  intro s index b d8 d32 p hp i
  have hscale : (scaleFactor p.1).toNat = p.2 := by
    revert p
    decide
  have hindex : (s.indexValue p.1 index).toNat = i % 2 ^ 32 := indexValue_toNat s hscale index
  have hbase : (s.gpr (gprOf b) + s.indexValue p.1 index).toNat = (regValue s b .w32 + i) % 2 ^ 32 := by
    rw [BitVec.toNat_add, hindex, Nat.add_mod_mod, regValue_w32]
  obtain ⟨h0, h8, hfull⟩ := add_dispValue hbase d8 d32
  exact ⟨h0, by exact_mod_cast h8, hfull, (add_dispValue hindex d8 d32).2.2⟩

end Sys2Proof.Machine
end

section
/-! When a cycle completes, and which encodings and prefixes make no difference but in EIP (30_encoding.md R71 to R75, R89,
R94). -/

namespace Sys2Proof.Machine

open Sys2Proof.Spec

/-! ### Completion -/

/-- Settles O15: a step that does not stop decoding runs an instruction, and every instruction has a next state. -/
theorem stepNeverRefused : Obligations.StepNeverRefused := by
  unfold Obligations.StepNeverRefused
  intro s r h
  rcases step_cases s with ⟨-, hs⟩ | ⟨-, ⟨i, n, -, hs⟩ | ⟨a, -, hs⟩ | ⟨ps, op, -, hs⟩ | ⟨-, hs⟩⟩ <;> rw [hs] at h
  case inr.inl =>
    rcases exec_cases i s with ⟨t, -, he⟩ | ⟨a, -, he⟩ <;> rw [he] at h <;> cases h
  all_goals cases h

/-- A handler ends without a report of AddressOutOfRange. -/
def Completes (x : Except Nat State) : Prop := ∃ t, x = .ok t

theorem completes_ok (t : State) : Completes (.ok t) := ⟨t, rfl⟩

theorem not_completes_error (a : Nat) : ¬ Completes (.error a) := fun ⟨_, h⟩ => by cases h

/-- An access decides whether a handler completes. -/
theorem completes_iff_inRange {s : State} {x : Except Nat State} {a : Word} {w : Width} {t : State} {e : Nat}
    (hok : s.inRange a w = true → x = .ok t) (herror : s.inRange a w = false → x = .error e) :
    Completes x ↔ a.toNat + w.bytes ≤ s.cfg.memSize := by
  rw [← State.inRange_iff]
  cases hr : s.inRange a w with
  | true => rw [hok hr]; exact iff_of_true (completes_ok t) rfl
  | false => rw [herror hr]; exact iff_of_false (not_completes_error e) Bool.false_ne_true

theorem aluRmReg_completes (op : AluOp) (w : Width) (e : RM) (g : RegNum) (s : State) :
    Completes (aluRmReg op w e g s) ↔ Accessible s w e := by
  cases e with
  | reg n => rw [aluRmReg_reg]; exact iff_of_true (completes_ok _) trivial
  | mem x => exact completes_iff_inRange (aluRmReg_mem · op g) (aluRmReg_mem_error · op g)

theorem aluRegRm_completes (op : AluOp) (w : Width) (g : RegNum) (e : RM) (s : State) :
    Completes (aluRegRm op w g e s) ↔ Accessible s w e := by
  cases e with
  | reg n => rw [aluRegRm_reg]; exact iff_of_true (completes_ok _) trivial
  | mem x => exact completes_iff_inRange (aluRegRm_mem · op g) (aluRegRm_mem_error · op g)

theorem aluAccZ_completes (op : AluOp) (z : ImmZ) (s : State) : Completes (aluAccZ op z s) := by
  cases z <;> exact completes_ok _

theorem pushSeg_completes (x : Seg) (s : State) :
    Completes (pushSeg x s) ↔ (s.esp - 2).toNat + 2 ≤ s.cfg.memSize :=
  completes_iff_inRange (w := .w16) (pushSeg_ok · x) (pushSeg_error · x)

theorem popSeg_completes (x : Seg) (s : State) : Completes (popSeg x s) ↔ s.esp.toNat + 2 ≤ s.cfg.memSize :=
  completes_iff_inRange (w := .w16) (popSeg_ok · x) (popSeg_error · x)

/-- An instruction completes exactly when its own accesses are in range, whatever it consumed before (R89). -/
theorem handler_completes (i : Instr) (s : State) : Completes (handler i s) ↔ AccessesInRange s i := by
  have behind (j : Instr) (h : Completes (handler j s) ↔ AccessesInRange s j) :
      Completes (handler j (s.consume 1)) ↔ AccessesInRange s j := by
    rw [← h, handler_consume]
    cases handler j s with
    | ok t => exact iff_of_true (completes_ok _) (completes_ok _)
    | error a => exact iff_of_false (not_completes_error a) (not_completes_error a)
  induction i with
  | addEbGb e g => exact aluRmReg_completes .add .w8 e g s
  | addEvGv w e g => exact aluRmReg_completes .add w.width e g s
  | orEbGb e g => exact aluRmReg_completes .or .w8 e g s
  | orEvGv w e g => exact aluRmReg_completes .or w.width e g s
  | adcEbGb e g => exact aluRmReg_completes .adc .w8 e g s
  | adcEvGv w e g => exact aluRmReg_completes .adc w.width e g s
  | addGbEb g e => exact aluRegRm_completes .add .w8 g e s
  | addGvEv w g e => exact aluRegRm_completes .add w.width g e s
  | orGbEb g e => exact aluRegRm_completes .or .w8 g e s
  | orGvEv w g e => exact aluRegRm_completes .or w.width g e s
  | adcGbEb g e => exact aluRegRm_completes .adc .w8 g e s
  | adcGvEv w g e => exact aluRegRm_completes .adc w.width g e s
  | addALIb | orALIb | adcALIb | hlt => exact iff_of_true (completes_ok _) trivial
  | addEAXIz z | orEAXIz z | adcEAXIz z => exact iff_of_true (aluAccZ_completes _ z s) trivial
  | pushES => exact pushSeg_completes .es s
  | pushCS => exact pushSeg_completes .cs s
  | pushSS => exact pushSeg_completes .ss s
  | popES => exact popSeg_completes .es s
  | popSS => exact popSeg_completes .ss s
  | es j ih | cs j ih | ss j ih | ds j ih | fs j ih | gs j ih | o16 j ih | a16 j ih => exact behind j ih

/-- Settles O46: a handler that completes keeps the fault status, and one that does not sets it. -/
theorem completesIffAccessesInRange : Obligations.CompletesIffAccessesInRange := by
  unfold Obligations.CompletesIffAccessesInRange
  intro s i hs
  rw [← handler_completes]
  rcases exec_cases i s with ⟨t, hi, he⟩ | ⟨a, hi, he⟩ <;> rw [hi, he]
  · exact iff_of_true (completes_ok t) ⟨t, rfl, (handler_kept i hi).1.fault.trans hs⟩
  · refine iff_of_false (not_completes_error a) ?_
    rintro ⟨t, ht, hf⟩
    cases ht
    cases hf

/-! ### Prefixes -/

/-- Settles O44: the prefix is one consumed byte, and consuming a byte before or after an instruction is the same. -/
theorem prefixedInstructionCompletes : Obligations.PrefixedInstructionCompletes := by
  unfold Obligations.PrefixedInstructionCompletes
  intro s p j hj
  obtain ⟨u, hu⟩ := (handler_completes j s).mpr hj
  refine ⟨u.consume 1, u, ?_, ?_, (handler_kept j hu).1.fault, rfl⟩
  · rw [exec_eq_endCycle, handler_before, handler_consume, hu]
    rfl
  · rw [exec_eq_endCycle, hu]
    rfl

/-- Prefixes before an instruction are consumed bytes (30_encoding.md R74, R75). -/
theorem handler_withPrefixes (ps : List Prefix) (j : Instr) (s : State) :
    handler (j.withPrefixes ps) s = (handler j s).map fun t => t.consume ps.length := by
  have hconsume : handler (j.withPrefixes ps) s = handler j (s.consume ps.length) := by
    induction ps generalizing s with
    | nil => simp [Instr.withPrefixes, State.consume]
    | cons p ps ih =>
      rw [withPrefixes_cons, handler_before, ih, State.consume_consume, List.length_cons, Nat.add_comm]
  rw [hconsume, handler_consume]

/-! ### The two encodings of a register-register operation (R94) -/

theorem aluRegRm_eq_aluRmReg (op : AluOp) (w : Width) (a b : RegNum) (s : State) :
    aluRegRm op w a (.reg b) s = aluRmReg op w (.reg a) b s := by rw [aluRegRm_reg, aluRmReg_reg]

/-- Settles O37: the two handlers read the same registers in the same order and write the same one. -/
theorem twoEncodingsAgree : Obligations.TwoEncodingsAgree := by
  unfold Obligations.TwoEncodingsAgree
  intro s w a b
  simp only [exec_addRmReg, exec_addRegRm, exec_orRmReg, exec_orRegRm, exec_adcRmReg, exec_adcRegRm,
    aluRegRm_eq_aluRmReg, and_self]

/-! ### The assembler's form -/

theorem handler_assembledBody (j : Instr) (s : State) : handler (assembledBody j) s = handler j s := by
  fun_cases assembledBody j with
  | case1 g n => exact (aluRegRm_eq_aluRmReg .add .w8 g n s).symm
  | case2 w g n => exact (aluRegRm_eq_aluRmReg .add w.width g n s).symm
  | case3 g n => exact (aluRegRm_eq_aluRmReg .or .w8 g n s).symm
  | case4 w g n => exact (aluRegRm_eq_aluRmReg .or w.width g n s).symm
  | case5 g n => exact (aluRegRm_eq_aluRmReg .adc .w8 g n s).symm
  | case6 w g n => exact (aluRegRm_eq_aluRmReg .adc w.width g n s).symm
  | case7 => rfl

theorem assembledBody_prefixes {j : Instr} (hj : j.prefixes = []) : (assembledBody j).prefixes = [] := by
  fun_cases assembledBody j with
  | case7 => exact hj
  | _ => rfl

/-- The two encodings carry the same operand width and no address width. -/
theorem assembledBody_wfAt {j : Instr} {osz : OpSize} {asz : AdSize} (h : j.wfAt osz asz = true) :
    (assembledBody j).wfAt osz asz = true := by
  fun_cases assembledBody j <;> exact h

theorem eq_operandSize_iff {ps : List Prefix} {w : OpSize} : w = operandSize ps ↔ (Prefix.o16 ∈ ps ↔ w = .o16) := by
  by_cases h : Prefix.o16 ∈ ps <;> cases w <;> simp [operandSize, defaultOpSize, h]

theorem eq_addressSize_iff {ps : List Prefix} {a : AdSize} : a = addressSize ps ↔ (Prefix.a16 ∈ ps ↔ a = .a16) := by
  by_cases h : Prefix.a16 ∈ ps <;> cases a <;> simp [addressSize, defaultAdSize, h]

/-- The prefixes of the assembler's form: the segment overrides, then the size prefixes needed (R94). -/
def assemblerPrefixes (i : Instr) : List Prefix :=
  i.prefixes.filter (fun p => p != .o16 && p != .a16) ++ neededSizePrefixes i.body

theorem assemblerForm_eq (i : Instr) : assemblerForm i = (assembledBody i.body).withPrefixes (assemblerPrefixes i) := rfl

theorem o16_mem_assemblerPrefixes (i : Instr) : Prefix.o16 ∈ assemblerPrefixes i ↔ i.body.opSize? = some .o16 := by
  simp [assemblerPrefixes, neededSizePrefixes]

theorem a16_mem_assemblerPrefixes (i : Instr) :
    Prefix.a16 ∈ assemblerPrefixes i ↔ i.body.rm?.bind RM.adSize? = some .a16 := by
  simp [assemblerPrefixes, neededSizePrefixes]

/-- The size prefixes an instruction needs select the widths it carries. -/
theorem body_wfAt_assemblerPrefixes {i : Instr} (h : i.wf = true) :
    i.body.wfAt (operandSize (assemblerPrefixes i)) (addressSize (assemblerPrefixes i)) = true := by
  obtain ⟨hi, hj⟩ := withPrefixes_body i
  rw [hi, wf_withPrefixes _ hj] at h
  refine wfAt_iff.mpr ⟨fun w hw => eq_operandSize_iff.mpr ?_, fun e he => RM.wf_iff.mpr ⟨fun a ha => ?_, ?_⟩⟩
  · rw [o16_mem_assemblerPrefixes, hw, Option.some_inj]
  · rw [eq_addressSize_iff, a16_mem_assemblerPrefixes, he, Option.bind_some, ha, Option.some_inj]
  · exact (RM.wf_iff.mp ((wfAt_iff.mp h).2 e he)).2

theorem handler_eq_body (i : Instr) (s : State) :
    handler i s = (handler i.body s).map fun t => t.consume i.prefixes.length := by
  rw [← handler_withPrefixes, ← (withPrefixes_body i).1]

theorem handler_assemblerForm (i : Instr) (s : State) :
    handler (assemblerForm i) s = (handler i.body s).map fun t => t.consume (assemblerPrefixes i).length := by
  rw [assemblerForm_eq, handler_withPrefixes, handler_assembledBody]

/-- Settles O45: both forms run the same body, each behind the bytes of its own prefixes. -/
theorem assemblerFormSameEffect : Obligations.AssemblerFormSameEffect := by
  unfold Obligations.AssemblerFormSameEffect
  intro s i hi
  constructor
  · rw [assemblerForm_eq, wf_withPrefixes _ (assembledBody_prefixes (withPrefixes_body i).2)]
    exact assembledBody_wfAt (body_wfAt_assemblerPrefixes hi)
  · rw [exec_eq_endCycle, exec_eq_endCycle, handler_eq_body, handler_assemblerForm]
    cases handler i.body s with
    | ok t => exact ⟨_, _, rfl, rfl, rfl⟩
    | error a => exact ⟨_, _, rfl, rfl, rfl⟩

end Sys2Proof.Machine
end

section
/-! The cycle (41_fetch_dispatch.md R120 to R131): a step runs the instruction whose fields stand at EIP, skips an unmapped
opcode, faults at the first field past N, or scans prefixes without end; and how far each moves EIP. -/

namespace Sys2Proof.Machine

open Sys2Proof.Spec

/-! ### The step, by what is decoded -/

/-- Settles O11: the first test of the cycle. -/
theorem stoppedCycleIsNoop : Obligations.StoppedCycleIsNoop := by
  unfold Obligations.StoppedCycleIsNoop
  intro s h
  have hs : s.stopped = true := by simpa [State.stopped] using h
  rw [step, if_pos hs]

/-- A running core executes what it decodes (R126). -/
theorem step_of_decode {s : State} (hs : s.stopped = false) {i : Instr} {n : Nat} (hd : s.fetchDecode = .ok (i, n)) :
    step s = exec i s := by
  simp [step, hs, hd]

/-- A running core that decodes no instruction ends the cycle as `stopDecode` says. -/
theorem step_of_decode_stop {s : State} (hs : s.stopped = false) {e : DecodeStop} (hd : s.fetchDecode = .error e) :
    step s = stopDecode s e := by
  simp [step, hs, hd]

/-- Settles O9: the last branch of the cycle. -/
theorem stepRunsDecodedInstruction : Obligations.StepRunsDecodedInstruction := by
  unfold Obligations.StepRunsDecodedInstruction
  intro s i n hh hf hd
  exact step_of_decode (State.stopped_eq_false.mpr ⟨hh, hf⟩) hd

/-- Settles O17: a step that neither faults nor is a no-op ran an instruction, which moves EIP by `advance`, or skipped an
unmapped opcode. -/
theorem eipAfterCycle : Obligations.EipAfterCycle := by
  unfold Obligations.EipAfterCycle
  intro s t hh hf h ht
  have hs := State.stopped_eq_false.mpr ⟨hh, hf⟩
  rcases step_next_cases h with ⟨hs', -⟩ | ⟨-, ⟨i, n, hd, hi⟩ | ⟨b, rfl⟩ | ⟨ps, op, hd, rfl⟩⟩
  · rw [hs] at hs'
    cases hs'
  · have he := (handler_kept i hi).2
    exact .inl ⟨i, n, hd, fun hc => by rw [he, advance, if_pos hc], fun hc => by rw [he, advance, if_neg hc]⟩
  · cases ht
  · exact .inr ⟨ps, op, hd, rfl⟩

/-! ### Prefixes and the opcode at EIP -/

/-- The bytes of R71 are the bytes of the eight prefixes. -/
theorem mem_prefixBytes_iff {b : Byte} : b ∈ prefixBytes ↔ ∃ p : Prefix, p.byte = b := by
  constructor
  · intro h
    simp only [prefixBytes, List.mem_cons, List.not_mem_nil, or_false] at h
    rcases h with rfl | rfl | rfl | rfl | rfl | rfl | rfl | rfl
    exacts [⟨.es, rfl⟩, ⟨.cs, rfl⟩, ⟨.ss, rfl⟩, ⟨.ds, rfl⟩, ⟨.fs, rfl⟩, ⟨.gs, rfl⟩, ⟨.o16, rfl⟩, ⟨.a16, rfl⟩]
  · rintro ⟨p, rfl⟩
    cases p <;> decide

theorem ofByte_eq_none {b : Byte} (h : b ∉ prefixBytes) : Prefix.ofByte b = none :=
  Option.eq_none_iff_forall_ne_some.mpr fun p hp => h (mem_prefixBytes_iff.mpr ⟨p, (ofByte_iff.mp hp).symm⟩)

/-- Bytes of R71 are the bytes of a list of prefixes. -/
theorem exists_prefixes {l : List Byte} (h : ∀ b ∈ l, b ∈ prefixBytes) : ∃ qs : List Prefix, qs.map Prefix.byte = l := by
  have hr : l ∈ Set.range (List.map Prefix.byte) := by
    rw [Set.range_list_map]
    exact fun b hb => mem_prefixBytes_iff.mp (h b hb)
  exact hr

/-- The scan reads the prefixes and the opcode that stand at EIP (R123). -/
theorem scan_at_eip {s : State} {qs : List Prefix} {op : Byte} (hc : s.cfg.wf) (hn : Prefix.ofByte op = none)
    (h : BytesAtEip s (qs.map Prefix.byte ++ [op])) :
    scanPrefixes s.streamReader (s.cfg.memSize + 1) 0 = .ok (qs, op) := by
  refine scan_stream hn (Spec.BytesAtEip.prefixes_lt hc hn h) ?_
  rw [BytesAtEip, List.map_append, prefixFields_eq] at h
  exact Spec.FieldsAt.stream h

/-- Settles O12: the scan ends at the byte, which is in no row of the dispatch table. -/
theorem unmappedOpcodeSkipsOneByte : Obligations.UnmappedOpcodeSkipsOneByte := by
  unfold Obligations.UnmappedOpcodeSkipsOneByte
  intro s ps op hc hh hf hps hop hm h
  obtain ⟨qs, rfl⟩ := exists_prefixes hps
  have hform : formOf op = none := by
    rw [← Option.not_isSome_iff_eq_none]
    exact fun hsome => hm ((dispatchTableExact op).mp hsome)
  have hd : s.fetchDecode = .error (.unmapped qs op) := by
    simp only [State.fetchDecode, decodeWith, scan_at_eip hc (ofByte_eq_none hop) h, hform]
  rw [step_of_decode_stop (State.stopped_eq_false.mpr ⟨hh, hf⟩) hd, stopDecode, unmappedOpcode_eq, List.length_map]

/-! ### The fields of an instruction at EIP -/

/-- The fields the prefix scan reads: each prefix, and the opcode (R123). -/
def headFields (i : Instr) : List (List Byte) := (i.prefixes.map fun p => [p.byte]) ++ [[i.opcode]]

theorem fieldsOf_eq (i : Instr) : fieldsOf i = headFields i ++ tailFields i := by simp [fieldsOf, headFields]

theorem headFields_eq_bytes (i : Instr) : headFields i = (i.prefixes.map Prefix.byte ++ [i.opcode]).map fun b => [b] := by
  simp [headFields]

theorem byteFields_flatten_length (l : List Byte) : (l.map fun b => [b]).flatten.length = l.length := by
  rw [← List.flatMap_def, List.flatMap_singleton']

theorem headFields_flatten_length (i : Instr) : (headFields i).flatten.length = i.prefixes.length + 1 := by
  rw [headFields_eq_bytes, byteFields_flatten_length, List.length_append, List.length_map, List.length_singleton]

/-- With prefixes and opcode at EIP the machine decodes the instruction, or stops where one of its other fields does. -/
theorem fetchDecode_of_fields {s : State} {i : Instr} (hc : s.cfg.wf) (hw : i.wf = true) (h : FieldsAt s 0 (headFields i))
    {r : Option Nat} (ht : Stream s.streamReader (i.prefixes.length + 1) (tailFields i) r) :
    s.fetchDecode = (outcome (i, (encode i).length) r).mapError .outOfRange := by
  have hb : BytesAtEip s (i.prefixes.map Prefix.byte ++ [i.opcode]) := by rw [BytesAtEip, ← headFields_eq_bytes]; exact h
  have hfuel := Spec.BytesAtEip.prefixes_lt hc (opcode_mapped i).2 hb
  rw [State.fetchDecode, decodeWith_stream hw hfuel (Spec.FieldsAt.stream h) ht]
  cases r <;> rfl

/-- Settles O10: every field stands at EIP, so the machine decodes the instruction and runs it. -/
theorem stepRunsBytesAtEip : Obligations.StepRunsBytesAtEip := by
  unfold Obligations.StepRunsBytesAtEip
  intro s i hc hh hf hw
  refine ⟨fieldsOf_flatten i, fun h => ?_⟩
  rw [fieldsOf_eq, Spec.FieldsAt.append, headFields_flatten_length, Nat.zero_add] at h
  obtain ⟨hhead, htail⟩ := h
  exact step_of_decode (State.stopped_eq_false.mpr ⟨hh, hf⟩)
    (fetchDecode_of_fields hc hw hhead (Spec.FieldsAt.stream htail))

/-! ### A fetch past N -/

theorem streamAddr_lt (s : State) (off : Nat) : streamAddr s off < 4294967296 := Nat.mod_lt _ (by decide)

theorem streamAddr_zero (s : State) : streamAddr s 0 = s.eip.toNat := Nat.mod_eq_of_lt s.eip.isLt

/-- Prefixes stand at EIP and the byte after them lies at or beyond N: the scan faults there (R124). -/
theorem step_of_prefixes_beyond {s : State} (hs : s.stopped = false) {qs : List Prefix}
    (h : BytesAtEip s (qs.map Prefix.byte)) (ha : s.cfg.memSize ≤ streamAddr s qs.length) :
    step s = .next (takeFault s (streamAddr s qs.length)) := by
  have hfuel : qs.length < s.cfg.memSize + 1 := by
    have := Spec.BytesAtEip.length_le h (Nat.lt_of_le_of_lt ha (streamAddr_lt s _))
    rw [List.length_map] at this
    omega
  have hread : s.streamReader (0 + qs.length) .w8 = .error (streamAddr s qs.length) := by
    rw [Nat.zero_add, streamReader_error (by simp; omega), Nat.max_eq_left ha]
  rw [BytesAtEip, prefixFields_eq] at h
  have hd : s.fetchDecode = .error (.outOfRange (streamAddr s qs.length)) := by
    simp only [State.fetchDecode, decodeWith, scan_stream_stop hfuel (Spec.FieldsAt.stream h) hread]
  exact step_of_decode_stop hs hd

/-- Fields before one of `headFields` are the fields of some prefixes, and that one is a byte. -/
theorem headFields_split {i : Instr} {fs gs : List (List Byte)} {f : List Byte} (h : headFields i = fs ++ f :: gs) :
    (∃ qs : List Prefix, fs = (qs.map Prefix.byte).map fun b => [b]) ∧ f.length = 1 := by
  constructor
  · have hlen := congrArg List.length h
    have hp : fs <+: i.prefixes.map fun p => [p.byte] := by
      refine List.prefix_of_prefix_length_le (l₃ := headFields i) ⟨_, h.symm⟩ (List.prefix_append _ _) ?_
      simp [headFields] at hlen ⊢
      omega
    obtain ⟨qs, -, rfl⟩ := List.prefix_map_iff.mp hp
    exact ⟨qs, (prefixFields_eq qs).symm⟩
  · have hf : f ∈ headFields i := by rw [h]; simp
    rw [headFields_eq_bytes] at hf
    obtain ⟨b, -, rfl⟩ := List.mem_map.mp hf
    rfl

/-- A field of an instruction is one of `tailFields`, with all of `headFields` before it, or one of `headFields`. -/
theorem fieldsOf_split {i : Instr} {fs gs : List (List Byte)} {f : List Byte} (h : fieldsOf i = fs ++ f :: gs) :
    (∃ as, fs = headFields i ++ as ∧ tailFields i = as ++ f :: gs) ∨ (∃ bs, headFields i = fs ++ f :: bs) := by
  rw [fieldsOf_eq] at h
  rcases List.append_eq_append_iff.mp h with ⟨as, h1, h2⟩ | ⟨bs, h1, h2⟩
  · exact .inl ⟨as, h1, h2⟩
  · cases bs with
    | nil => exact .inl ⟨[], by simpa using h1.symm, by simpa using h2.symm⟩
    | cons b bs =>
      obtain ⟨rfl, -⟩ := List.cons.inj h2
      exact .inr ⟨bs, h1⟩

/-- A field of an instruction runs past N, and those before it stand at EIP: the fetch faults there (R131, R215). -/
theorem step_of_field_beyond {s : State} {i : Instr} (hs : s.stopped = false) (hc : s.cfg.wf) (hw : i.wf = true)
    {fs gs : List (List Byte)} {f : List Byte} (hi : fieldsOf i = fs ++ f :: gs) (h : FieldsAt s 0 fs)
    (ha : s.cfg.memSize < streamAddr s fs.flatten.length + f.length) :
    step s = .next (takeFault s (max (streamAddr s fs.flatten.length) s.cfg.memSize)) := by
  rcases fieldsOf_split hi with ⟨as, rfl, htail⟩ | ⟨bs, hhead⟩
  · rw [Spec.FieldsAt.append] at h
    obtain ⟨h1, h2⟩ := h
    have hlen : (headFields i ++ as).flatten.length = i.prefixes.length + 1 + as.flatten.length := by
      rw [List.flatten_append, List.length_append, headFields_flatten_length]
    rw [hlen] at ha ⊢
    rw [headFields_flatten_length, Nat.zero_add] at h2
    have hstop := (Spec.FieldsAt.stream h2).append
      (.stop (f := f) (gs := gs) fun w hl => streamReader_error (by rw [hl]; exact ha))
    rw [← htail] at hstop
    exact step_of_decode_stop hs (fetchDecode_of_fields hc hw h1 hstop)
  · obtain ⟨⟨qs, rfl⟩, hf⟩ := headFields_split hhead
    rw [byteFields_flatten_length, List.length_map] at ha ⊢
    rw [hf] at ha
    rw [Nat.max_eq_left (Nat.le_of_lt_succ ha)]
    exact step_of_prefixes_beyond hs h (Nat.le_of_lt_succ ha)

/-- Settles O13: a scan stops at a byte past N, and so does the read of any other field. -/
theorem fetchBeyondMemoryFaults : Obligations.FetchBeyondMemoryFaults := by
  unfold Obligations.FetchBeyondMemoryFaults
  intro s hh hf
  have hs := State.stopped_eq_false.mpr ⟨hh, hf⟩
  refine ⟨fun ha => ?_, fun ps _ hps h ha => ?_, fun i fs f gs hc hw hi h ha => step_of_field_beyond hs hc hw hi h ha⟩
  · rw [← streamAddr_zero] at ha ⊢
    exact step_of_prefixes_beyond (qs := []) hs trivial ha
  · obtain ⟨qs, rfl⟩ := exists_prefixes hps
    rw [List.length_map] at ha ⊢
    exact step_of_prefixes_beyond hs h ha

/-! ### The endless scan -/

/-- The scan runs out of fuel exactly when every byte it reads is a prefix (R124). -/
theorem scanPrefixes_endless_iff {rd : Reader} {fuel off : Nat} :
    scanPrefixes rd fuel off = .error .endless ↔ ∀ k < fuel, ∃ p : Prefix, rd (off + k) .w8 = .ok p.byte := by
  induction fuel generalizing off with
  | zero => simp [scanPrefixes]
  | succ fuel ih =>
    have htail : (∀ k < fuel, ∃ p : Prefix, rd (off + (k + 1)) .w8 = .ok p.byte) ↔
        scanPrefixes rd fuel (off + 1) = .error .endless := by
      simp only [ih, Nat.add_assoc, Nat.add_comm 1]
    rw [Nat.forall_lt_succ_left, htail]
    constructor
    · intro h
      simp only [scanPrefixes] at h
      split at h
      · cases h
      · next b hb =>
        split at h
        · cases h
        · next p hp =>
          split at h
          · next e he =>
            cases h
            exact ⟨⟨p, by rw [← ofByte_iff.mp hp]; exact hb⟩, he⟩
          · cases h
    · rintro ⟨⟨p, hp⟩, h⟩
      simp only [scanPrefixes, show rd off .w8 = .ok p.byte from hp, ofByte_iff.mpr rfl, h]

/-- Decoding is endless exactly when the scan is. -/
theorem decodeWith_endless_iff {rd : Reader} {fuel : Nat} :
    decodeWith rd fuel = .error .endless ↔ scanPrefixes rd fuel 0 = .error .endless := by
  constructor
  · intro h
    simp only [decodeWith] at h
    split at h
    · next e he =>
      cases h
      exact he
    · split at h
      · cases h
      · split at h <;> cases h
  · intro h
    simp only [decodeWith, h]

/-- A running core hangs exactly when decoding is endless: every other end of a cycle has a next state. -/
theorem step_hang_iff {s : State} (hs : s.stopped = false) :
    step s = .fault .prefixScanHang ↔ s.fetchDecode = .error .endless := by
  constructor
  · intro h
    rcases step_cases s with ⟨-, h'⟩ | ⟨-, ⟨i, n, -, h'⟩ | ⟨a, -, h'⟩ | ⟨ps, op, -, h'⟩ | ⟨hd, -⟩⟩
    case inr.inr.inr.inr => exact hd
    case inr.inl => rcases exec_cases i s with ⟨t, -, he⟩ | ⟨a, -, he⟩ <;> rw [h', he] at h <;> cases h
    all_goals rw [h'] at h; cases h
  · exact fun hd => step_of_decode_stop hs hd

/-- A byte of the stream is read exactly when it stands below N (20_memory.md R53). -/
theorem streamReader_byte_iff {s : State} {off : Nat} {b : Byte} :
    s.streamReader off .w8 = .ok b ↔ streamAddr s off < s.cfg.memSize ∧ s.mem.read (streamAddr s off) = b := by
  by_cases h : streamAddr s off < s.cfg.memSize
  · rw [State.streamReader, State.memRead_ok (by rw [State.inRange_iff, streamAddr_eq]; exact h), streamAddr_eq]
    simp [Memory.load, h]
  · rw [streamReader_error (by simp; omega)]
    simp [h]

/-- Every address is that of a byte fewer than 2^32 bytes after EIP (10_state.md R35). -/
theorem exists_streamAddr (s : State) {a : Nat} (h : a < 4294967296) : ∃ k < 4294967296, streamAddr s k = a :=
  ⟨(a + (4294967296 - s.eip.toNat)) % 4294967296, Nat.mod_lt _ (by decide), by
    have := s.eip.isLt
    simp only [streamAddr]
    omega⟩

/-- With N below 2^32, one of the N + 1 bytes from EIP on lies at or beyond N (R124). -/
theorem exists_streamAddr_beyond {s : State} (h : s.cfg.memSize < 4294967296) :
    ∃ k < s.cfg.memSize + 1, s.cfg.memSize ≤ streamAddr s k :=
  ⟨s.cfg.memSize - s.eip.toNat, by omega, by
    have := s.eip.isLt
    simp only [streamAddr]
    omega⟩

/-- Settles O14: the scan is endless when the N + 1 bytes it reads are all prefixes below N; with N below 2^32 one of them
lies past N, and with N = 2^32 they are every byte of memory. -/
theorem hangExactly : Obligations.HangExactly := by
  unfold Obligations.HangExactly
  intro s hinv hh hf
  obtain ⟨-, -, hc, -⟩ := hinv
  rw [step_hang_iff (State.stopped_eq_false.mpr ⟨hh, hf⟩), State.fetchDecode, decodeWith_endless_iff,
    scanPrefixes_endless_iff]
  simp only [Nat.zero_add]
  constructor
  · intro h
    have hN : s.cfg.memSize = 2 ^ 32 := by
      refine Nat.le_antisymm hc.2 (Nat.le_of_not_lt fun hlt => ?_)
      obtain ⟨k, hk, ha⟩ := exists_streamAddr_beyond hlt
      obtain ⟨p, hp⟩ := h k hk
      exact absurd (streamReader_byte_iff.mp hp).1 (Nat.not_lt_of_le ha)
    refine ⟨hN, fun a ha => ?_⟩
    obtain ⟨k, hk, rfl⟩ := exists_streamAddr s ha
    obtain ⟨p, hp⟩ := h k (by omega)
    exact mem_prefixBytes_iff.mpr ⟨p, (streamReader_byte_iff.mp hp).2.symm⟩
  · rintro ⟨hN, h⟩ k -
    have ha := streamAddr_lt s k
    obtain ⟨p, hp⟩ := mem_prefixBytes_iff.mp (h _ ha)
    exact ⟨p, streamReader_byte_iff.mpr ⟨hN ▸ ha, hp.symm⟩⟩

end Sys2Proof.Machine
end

section
/-! Carry and overflow of ADD and ADC (42_alu.md R141 to R147): one lemma for each of the cells CF, OF and SF, and the
laws of R147 from them. -/

namespace Sys2Proof.Machine

open Sys2Proof.Spec

/-- With OF cleared where the refinement does not fire, the sign decides whether a carry shows as CF or as OF (R143). -/
theorem overflowHeuristic_clear (old cf sf : Bool) : overflowHeuristic .clear old cf sf = (cf && !sf, cf && sf) := by
  cases cf <;> cases sf <;> rfl

section Sum

variable {n : Nat} (a b : BitVec n) (c : Bool) (f : FlagStore)

/-- SF of ADD and ADC is the top bit of the result (R143). -/
theorem aluSum_sf (p : OfPolicy) : (aluSum p a b c f).2.get FlagName.sf.cell = (aluSum p a b c f).1.msb := by
  simp [aluSum, resultFlags, FlagStore.get_set, FlagName.cell]

/-- CF is a wrap-around with the sign clear (R142, R143). -/
theorem aluSum_clear_cf : (aluSum .clear a b c f).2.get FlagName.cf.cell =
    (decide ((aluSum .clear a b c f).1.toNat < a.toNat) && !(aluSum .clear a b c f).1.msb) := by
  simp [aluSum, overflowHeuristic_clear, resultFlags, FlagStore.get_set, FlagName.cell]

/-- OF is a wrap-around with the sign set (R142, R143). -/
theorem aluSum_clear_ovf : (aluSum .clear a b c f).2.get FlagName.ovf.cell =
    (decide ((aluSum .clear a b c f).1.toNat < a.toNat) && (aluSum .clear a b c f).1.msb) := by
  simp [aluSum, overflowHeuristic_clear, resultFlags, FlagStore.get_set, FlagName.cell]

/-- All ones and a carry-in add 2^n, which the truncation drops (R141). -/
theorem aluSum_allOnes_fst (p : OfPolicy) : (aluSum p a (BitVec.allOnes n) true f).1 = a := by
  have hpos := Nat.two_pow_pos n
  have hsum : a.toNat + (BitVec.allOnes n).toNat + true.toNat = a.toNat + 2 ^ n := by
    simp only [BitVec.toNat_allOnes, Bool.toNat_true]
    omega
  apply BitVec.eq_of_toNat_eq
  rw [aluSum, hsum]
  simp

/-- The laws of R147 that ADD and ADC share: CF and OF are the two halves of one wrap-around, split by the sign. -/
theorem aluSum_clear_exclusive :
    let r := aluSum .clear a b c f
    ¬(r.2.get FlagName.cf.cell = true ∧ r.2.get FlagName.ovf.cell = true) ∧
    (r.2.get FlagName.cf.cell = true → r.2.get FlagName.sf.cell = false) ∧
    (r.2.get FlagName.ovf.cell = true ↔ r.1.toNat < a.toNat ∧ r.1.msb = true) := by
  dsimp only
  rw [aluSum_clear_cf, aluSum_clear_ovf, aluSum_sf]
  cases (aluSum .clear a b c f).1.msb <;> simp

/-- An operand of all ones with a carry-in sets no CF, for the result is the first operand and not below it (R147). -/
theorem aluSum_clear_allOnes_cf :
    (aluSum .clear a (BitVec.allOnes n) true f).2.get FlagName.cf.cell = false := by
  rw [aluSum_clear_cf, aluSum_allOnes_fst]
  simp

end Sum

/-- Settles O38: ADD and ADC are one sum, and ADC takes its carry-in from CF. -/
theorem carryOverflowExclusive : Obligations.CarryOverflowExclusive := by
  unfold Obligations.CarryOverflowExclusive
  rintro w a b op f (rfl | rfl)
  case inl =>
    obtain ⟨hexcl, hsf, hovf⟩ := aluSum_clear_exclusive a b false f
    exact ⟨hexcl, hsf, hovf, nofun⟩
  case inr =>
    obtain ⟨hexcl, hsf, hovf⟩ := aluSum_clear_exclusive a b (f.get FlagName.cf.cell) f
    refine ⟨hexcl, hsf, hovf, fun _ (hc : f.get FlagName.cf.cell = true) hb => ?_⟩
    have hadc : alu .clear .adc a b f = aluSum .clear a (BitVec.allOnes w.bits) true f := by rw [alu, hc, hb]
    rw [hadc]
    exact ⟨aluSum_allOnes_fst a f .clear, aluSum_clear_allOnes_cf a f⟩

end Sys2Proof.Machine
end

section
/-! ADD completes (43_add.md R160 to R165; 42_alu.md R141 to R147). The sum and its flags on numbers, the value a register
or an rm operand is read as, and what each handler shape writes, for every ALU operation at once. -/

namespace Sys2Proof.Machine

open Sys2Proof.Spec

/-! ### The flags of a result -/

/-- Exclusive or over a list counts the members that satisfy p, modulo 2. -/
theorem foldl_xor_eq_odd_count {α : Type} (p : α → Bool) (l : List α) (x : Bool) :
    l.foldl (fun y i => y ^^ p i) x = (x ^^ decide ((l.filter p).length % 2 = 1)) := by
  induction l generalizing x with
  | nil => simp
  | cons i l ih =>
    rw [List.foldl_cons, ih, List.filter_cons]
    cases p i with
    | false => simp
    | true => rcases Nat.mod_two_eq_zero_or_one (l.filter p).length with h | h <;> simp [Nat.add_mod, h]

/-- PF is set when the low byte has an even number of ones (42_alu.md R145). -/
theorem parity8_eq {n : Nat} (r : BitVec n) : parity8 r = decide (lowOnes r.toNat % 2 = 0) := by
  have hfold : parity8 r = !((List.range 8).foldl (fun x i => x ^^ r.toNat.testBit i) false) := by
    simp [parity8, List.range, List.range.loop, BitVec.testBit_toNat]
  rw [hfold, foldl_xor_eq_odd_count, lowOnes]
  rcases Nat.mod_two_eq_zero_or_one ((List.range 8).filter r.toNat.testBit).length with h | h <;> simp [h]

/-- `resultFlags` writes SF, ZF and PF of its result (42_alu.md R143 to R145). -/
theorem resultFlags_flags {n : Nat} (r : BitVec n) (f : FlagStore) : ResultFlags n r.toNat (resultFlags r f) := by
  have hzf : (r == 0#n) = decide (r.toNat = 0) := by
    rw [Bool.beq_eq_decide_eq, decide_eq_decide, BitVec.toNat_eq]
    rfl
  simp [ResultFlags, resultFlags, FlagStore.get_set, FlagName.cell, BitVec.msb_eq_decide, parity8_eq, hzf]

/-- AF is none of SF, ZF and PF. -/
theorem resultFlags_set_af {n r : Nat} {f : FlagStore} (h : ResultFlags n r f) (b : Bool) :
    ResultFlags n r (f.set FlagName.af.cell b) := by
  simpa [ResultFlags, FlagStore.get_set, FlagName.cell] using h

/-! ### The sum and its flags -/

section Sum

variable {n : Nat} (p : OfPolicy) (a b : BitVec n) (c : Bool) (f : FlagStore)

/-- The result is the sum modulo 2^n (42_alu.md R141). -/
theorem aluSum_toNat : (aluSum p a b c f).1.toNat = (a.toNat + b.toNat + c.toNat) % 2 ^ n := BitVec.toNat_ofNat ..

theorem aluSum_resultFlags : ResultFlags n (aluSum p a b c f).1.toNat (aluSum p a b c f).2 :=
  resultFlags_set_af (resultFlags_flags ..) _

/-- AF is the carry out of the low nibbles (42_alu.md R146). -/
theorem aluSum_af : (aluSum p a b c f).2.get FlagName.af.cell = decide (15 < a.toNat % 16 + b.toNat % 16 + c.toNat) :=
  FlagStore.get_set_same ..

/-- CF and OF are what the refinement makes of the wrap-around and the sign (42_alu.md R142, R143). -/
theorem aluSum_cf_ovf :
    ((aluSum p a b c f).2.get FlagName.cf.cell, (aluSum p a b c f).2.get FlagName.ovf.cell) =
      overflowHeuristic p (f.get FlagName.ovf.cell) (decide ((aluSum p a b c f).1.toNat < a.toNat))
        (aluSum p a b c f).1.msb := by
  simp [aluSum, resultFlags, FlagStore.get_set, FlagName.cell]

/-- The sum of an ALU operation, ADD or ADC, has the flags of R141 to R147. -/
theorem aluSum_sumFlags {op : AluOp} (hop : alu p op a b f = aluSum p a b c f) :
    SumFlags n p a.toNat b.toNat c.toNat f (aluSum p a b c f).2 := by
  have hcf := aluSum_cf_ovf p a b c f
  rw [BitVec.msb_eq_decide, overflowHeuristic.eq_def, ← Bool.decide_and] at hcf
  unfold SumFlags
  rw [← aluSum_toNat p a b c f]
  refine ⟨aluSum_resultFlags p a b c f, aluSum_af p a b c f, fun h => ?_, fun h => ?_, hop ▸ alu_inert p op a b f⟩
  · rw [decide_eq_true h, if_pos rfl] at hcf
    exact Prod.ext_iff.mp hcf
  · rw [decide_eq_false h, if_neg Bool.false_ne_true] at hcf
    cases p <;> exact Prod.ext_iff.mp hcf

end Sum

/-! ### Operands as numbers -/

/-- `R[Reg(n, w)]` is the register's bits as a number (10_state.md R24). -/
theorem readReg_toNat (s : State) (n : RegNum) (w : Width) : (s.readReg n w).toNat = regValue s n w := by
  cases w with
  | w8 =>
    cases n <;>
      simp [State.readReg, regView, byteViewOf, State.get, ByteGpr.gpr, regValue, slotOf, lowBitOf,
        Nat.shiftRight_eq_div_pow]
  | w16 => cases n <;> simp [State.readReg, regView, gprOf, State.get, regValue, slotOf, lowBitOf]
  | w32 => simp [State.readReg, regView, State.get, regValue_w32]

/-- The value of the rm operand, as the handlers read it. -/
def rmOperand (s : State) (w : Width) : RM → BitVec w.bits
  | .reg n => s.readReg n w
  | .mem x => BitVec.ofNat w.bits (s.mem.load (s.ea x).toNat w.bytes)

theorem rmOperand_toNat (s : State) (w : Width) (e : RM) : (rmOperand s w e).toNat = rmValue s w e := by
  cases e with
  | reg n => exact readReg_toNat s n w
  | mem x =>
    rw [rmOperand, BitVec.toNat_ofNat, Width.two_pow_bits, Nat.mod_eq_of_lt (Memory.load_lt ..), rmValue]

/-! ### What a handler that completes writes -/

/-- A register write-back writes that register, the flags and EIP only (10_state.md R25). -/
theorem writeBack_written (s : State) (f : FlagStore) (n : RegNum) (w : Width) (v : BitVec w.bits) (k : Nat) :
    RegWritten n w v.toNat s ((State.writeReg { s with eflags := f } n w v).consume k) ∧
    ((State.writeReg { s with eflags := f } n w v).consume k).eflags = f := by
  obtain ⟨hf, hm, -⟩ := set_kept { s with eflags := f } (regView n w) (v.setWidth _)
  obtain ⟨hbits, hslot, hlow⟩ := registerTable n w
  refine ⟨⟨?_, fun g j hj => ?_, memKept_of_mem_eq hm⟩, hf⟩
  · rw [← readReg_toNat, State.readReg_consume, State.readReg_writeReg_same]
  · have hget := getLsbD_get_set { s with eflags := f } (regView n w) (v.setWidth _) (y := .r32 g) rfl (k := j)
      (by rw [hbits, hslot, hlow, View.r32.injEq]; exact hj)
    simpa only [State.get, State.gpr_withFlags, State.gpr_consume, State.writeReg] using hget

/-- Eb,Gb and Ev,Gv with an accessible E write the ALU's result to E, and its flags. -/
theorem aluRmReg_written {s : State} {w : Width} {e : RM} (hw : s.mem.wf) (ha : Accessible s w e) (op : AluOp)
    (g : RegNum) :
    ∃ t, aluRmReg op w e g s = .ok t ∧
      RmWritten e w (alu s.cfg.ofUntriggered op (rmOperand s w e) (s.readReg g w) s.eflags).1.toNat s t ∧
      t.eflags = (alu s.cfg.ofUntriggered op (rmOperand s w e) (s.readReg g w) s.eflags).2 := by
  cases e with
  | reg n => exact ⟨_, aluRmReg_reg .., writeBack_written ..⟩
  | mem x =>
    refine ⟨_, aluRmReg_mem ((State.inRange_iff ..).mpr ha) op g, ⟨?_, memKeptOutside_of_store hw rfl, fun g => ?_⟩, rfl⟩
    · exact (Memory.load_store hw ..).trans (Nat.mod_eq_of_lt (Width.toNat_lt _))
    · cases g <;> rfl

/-- Gb,Eb and Gv,Ev with an accessible E write the ALU's result to G, and its flags. -/
theorem aluRegRm_written {s : State} {w : Width} {e : RM} (ha : Accessible s w e) (op : AluOp) (g : RegNum) :
    ∃ t, aluRegRm op w g e s = .ok t ∧
      RegWritten g w (alu s.cfg.ofUntriggered op (s.readReg g w) (rmOperand s w e) s.eflags).1.toNat s t ∧
      t.eflags = (alu s.cfg.ofUntriggered op (s.readReg g w) (rmOperand s w e) s.eflags).2 := by
  cases e with
  | reg n => exact ⟨_, aluRegRm_reg .., writeBack_written ..⟩
  | mem x => exact ⟨_, aluRegRm_mem ((State.inRange_iff ..).mpr ha) op g, writeBack_written ..⟩

/-- AL,Ib and eAX,Iz write the ALU's result to the accumulator, and its flags. -/
theorem aluAcc_written (s : State) (op : AluOp) (w : Width) (v : BitVec w.bits) :
    ∃ t, aluAcc op w v s = .ok t ∧
      RegWritten .r0 w (alu s.cfg.ofUntriggered op (s.readReg .r0 w) v s.eflags).1.toNat s t ∧
      t.eflags = (alu s.cfg.ofUntriggered op (s.readReg .r0 w) v s.eflags).2 :=
  ⟨_, aluAcc_eq .., writeBack_written ..⟩

/-- A handler that completes ends the cycle, and an instruction that neither pops nor halts keeps the rest of the system
and moves EIP past itself (41_fetch_dispatch.md R122, R130). -/
theorem exec_completes {i : Instr} {s t : State} (h : handler i s = .ok t) (hb : i.body ∉ [.popES, .popSS, .hlt]) :
    exec i s = .next t ∧ SystemKept s t ∧ EipPast i s t := by
  obtain ⟨hk, heip⟩ := handler_kept i h
  simp only [List.mem_cons, List.not_mem_nil, or_false, not_or] at hb
  obtain ⟨hes, hss, hhlt⟩ := hb
  refine ⟨by rw [exec_eq_endCycle, h, endCycle_ok], ⟨fun x => ?_, hk.halted hhlt, hk.fault, hk.diag, hk.cfg⟩, ?_⟩
  · cases x with
    | cs => exact hk.cs
    | ds => exact hk.ds
    | es => exact hk.es hes
    | fs => exact hk.fs
    | gs => exact hk.gs
    | ss => exact hk.ss hss
  · rwa [advance, if_neg (fun hc => hhlt hc.1)] at heip

/-! ### ADD -/

theorem handler_addRmReg (e : RM) (g : RegNum) (w : Width) (s : State) :
    handler (addRmReg e g w) s = aluRmReg .add w e g s := by cases w <;> rfl

theorem handler_addRegRm (g : RegNum) (e : RM) (w : Width) (s : State) :
    handler (addRegRm g e w) s = aluRegRm .add w g e s := by cases w <;> rfl

theorem handler_addAcc (w : Width) (v : BitVec w.bits) (s : State) :
    handler (addAcc w v) s = aluAcc .add w v s := by cases w <;> rfl

/-- ADD is the sum without a carry-in, on numbers (42_alu.md R141 to R147). -/
theorem alu_add_sum_and_flags {n x y : Nat} {a b : BitVec n} (ha : a.toNat = x) (hb : b.toNat = y) (p : OfPolicy)
    (f : FlagStore) :
    (alu p .add a b f).1.toNat = (x + y) % 2 ^ n ∧ SumFlags n p x y 0 f (alu p .add a b f).2 := by
  subst ha hb
  exact ⟨aluSum_toNat p a b false f, aluSum_sumFlags p a b false f (op := .add) rfl⟩

/-- Settles O27: the handler writes the ALU's sum of E and G to E, and its frame is that of every instruction that neither
pops nor halts. -/
theorem addRmRegCompletes : Obligations.AddRmRegCompletes := by
  unfold Obligations.AddRmRegCompletes
  intro s w e g hw ha
  obtain ⟨t, ht, hwritten, hflags⟩ := aluRmReg_written hw ha .add g
  obtain ⟨hsum, hsumFlags⟩ :=
    alu_add_sum_and_flags (rmOperand_toNat s w e) (readReg_toNat s g w) s.cfg.ofUntriggered s.eflags
  obtain ⟨hexec, hkept, heip⟩ :=
    exec_completes ((handler_addRmReg e g w s).trans ht) (by cases w <;> simp [addRmReg, Instr.body])
  exact ⟨t, hexec, hsum ▸ hwritten, hflags ▸ hsumFlags, hkept, heip⟩

/-- Settles O28: the handler writes the ALU's sum of G and E to G. -/
theorem addRegRmCompletes : Obligations.AddRegRmCompletes := by
  unfold Obligations.AddRegRmCompletes
  intro s w g e ha
  obtain ⟨t, ht, hwritten, hflags⟩ := aluRegRm_written ha .add g
  obtain ⟨hsum, hsumFlags⟩ :=
    alu_add_sum_and_flags (readReg_toNat s g w) (rmOperand_toNat s w e) s.cfg.ofUntriggered s.eflags
  obtain ⟨hexec, hkept, heip⟩ :=
    exec_completes ((handler_addRegRm g e w s).trans ht) (by cases w <;> simp [addRegRm, Instr.body])
  exact ⟨t, hexec, hsum ▸ hwritten, hflags ▸ hsumFlags, hkept, heip⟩

/-- Settles O29: the handler writes the ALU's sum of the accumulator and the immediate to the accumulator. -/
theorem addAccumulatorCompletes : Obligations.AddAccumulatorCompletes := by
  unfold Obligations.AddAccumulatorCompletes
  intro s w v
  obtain ⟨t, ht, hwritten, hflags⟩ := aluAcc_written s .add w v
  obtain ⟨hsum, hsumFlags⟩ :=
    alu_add_sum_and_flags (readReg_toNat s .r0 w) (rfl : v.toNat = v.toNat) s.cfg.ofUntriggered s.eflags
  obtain ⟨hexec, hkept, heip⟩ :=
    exec_completes ((handler_addAcc w v s).trans ht) (by cases w <;> simp [addAcc, Instr.body])
  exact ⟨t, hexec, hsum ▸ hwritten, hflags ▸ hsumFlags, hkept, heip⟩

end Sys2Proof.Machine
end

section
/-! OR completes (44_or.md R170 to R175; 42_alu.md R148 to R150). What each handler shape writes is stated for every ALU
operation with ADD's proofs; what is OR's own is its result and its flags. -/

namespace Sys2Proof.Machine

open Sys2Proof.Spec

/-! ### The result of an OR and its flags -/

section Or

variable {n : Nat} (a b : BitVec n) (f : FlagStore)

theorem aluOr_resultFlags : ResultFlags n (a ||| b).toNat (aluOr a b f).2 := resultFlags_flags ..

/-- CF and OF are cleared, whatever the operands (42_alu.md R149). -/
theorem aluOr_cf_ovf :
    (aluOr a b f).2.get FlagName.cf.cell = false ∧ (aluOr a b f).2.get FlagName.ovf.cell = false := by
  simp [aluOr, resultFlags, FlagStore.get_set, FlagName.cell]

/-- OR writes CF, PF, ZF, SF and OF only: AF is among the cells it keeps (42_alu.md R150). -/
theorem aluOr_cellsKept : CellsKept [0, 2, 6, 7, 11] f (aluOr a b f).2 := by
  intro i hi
  simp only [List.mem_cons, List.not_mem_nil, or_false, not_or] at hi
  obtain ⟨hcf, hpf, hzf, hsf, hovf⟩ := hi
  simp only [aluOr, resultFlags, FlagStore.get_set, FlagName.cell, if_neg hcf, if_neg hpf, if_neg hzf, if_neg hsf,
    if_neg hovf]

end Or

/-- OR is the bitwise or, on numbers, with the flags of 42_alu.md R148 to R150. -/
theorem alu_or_and_flags {n x y : Nat} {a b : BitVec n} (ha : a.toNat = x) (hb : b.toNat = y) (p : OfPolicy)
    (f : FlagStore) :
    (alu p .or a b f).1.toNat = x ||| y ∧ OrFlags n x y f (alu p .or a b f).2 := by
  subst ha hb
  obtain ⟨hcf, hovf⟩ := aluOr_cf_ovf a b f
  exact ⟨BitVec.toNat_or .., BitVec.toNat_or .. ▸ aluOr_resultFlags a b f, hcf, hovf, aluOr_cellsKept a b f⟩

/-! ### The cycle of an ALU instruction -/

/-- An ALU instruction whose handler completes with its result written (W) and its flags (F) ends the cycle with both, and
has the frame of every instruction that neither pops nor halts (41_fetch_dispatch.md R122, R130). -/
theorem exec_completes_of_written {i : Instr} {s : State} {x : Except Nat State} {W : State → Prop} {f : FlagStore}
    {F : FlagStore → Prop} (hi : handler i s = x) (hb : i.body ∉ [.popES, .popSS, .hlt])
    (hx : ∃ t, x = .ok t ∧ W t ∧ t.eflags = f) (hF : F f) :
    ∃ t, exec i s = .next t ∧ W t ∧ F t.eflags ∧ SystemKept s t ∧ EipPast i s t := by
  obtain ⟨t, ht, hwritten, hflags⟩ := hx
  obtain ⟨hexec, hkept, heip⟩ := exec_completes (hi.trans ht) hb
  exact ⟨t, hexec, hwritten, hflags ▸ hF, hkept, heip⟩

/-! ### OR -/

theorem handler_orRmReg (e : RM) (g : RegNum) (w : Width) (s : State) :
    handler (orRmReg e g w) s = aluRmReg .or w e g s := by cases w <;> rfl

theorem handler_orRegRm (g : RegNum) (e : RM) (w : Width) (s : State) :
    handler (orRegRm g e w) s = aluRegRm .or w g e s := by cases w <;> rfl

theorem handler_orAcc (w : Width) (v : BitVec w.bits) (s : State) :
    handler (orAcc w v) s = aluAcc .or w v s := by cases w <;> rfl

/-- Settles O33: the handler writes the ALU's or of E and G to E, with OR's flags. -/
theorem orRmRegCompletes : Obligations.OrRmRegCompletes := by
  unfold Obligations.OrRmRegCompletes
  intro s w e g hw ha
  obtain ⟨hor, hflags⟩ := alu_or_and_flags (rmOperand_toNat s w e) (readReg_toNat s g w) s.cfg.ofUntriggered s.eflags
  exact exec_completes_of_written (handler_orRmReg e g w s) (by cases w <;> simp [orRmReg, Instr.body])
    (hor ▸ aluRmReg_written hw ha .or g) hflags

/-- Settles O34: the handler writes the ALU's or of G and E to G, with OR's flags. -/
theorem orRegRmCompletes : Obligations.OrRegRmCompletes := by
  unfold Obligations.OrRegRmCompletes
  intro s w g e ha
  obtain ⟨hor, hflags⟩ := alu_or_and_flags (readReg_toNat s g w) (rmOperand_toNat s w e) s.cfg.ofUntriggered s.eflags
  exact exec_completes_of_written (handler_orRegRm g e w s) (by cases w <;> simp [orRegRm, Instr.body])
    (hor ▸ aluRegRm_written ha .or g) hflags

/-- Settles O35: the handler writes the ALU's or of the accumulator and the immediate to the accumulator, with OR's
flags. -/
theorem orAccumulatorCompletes : Obligations.OrAccumulatorCompletes := by
  unfold Obligations.OrAccumulatorCompletes
  intro s w v
  obtain ⟨hor, hflags⟩ := alu_or_and_flags (readReg_toNat s .r0 w) (rfl : v.toNat = _) s.cfg.ofUntriggered s.eflags
  exact exec_completes_of_written (handler_orAcc w v s) (by cases w <;> simp [orAcc, Instr.body])
    (hor ▸ aluAcc_written s .or w v) hflags

end Sys2Proof.Machine
end

section
/-! ADC completes (45_adc.md R180 to R185; 42_alu.md R140 to R147). It is ADD's sum with CF as carry-in; what each handler
shape writes and the cycle's frame are those of every ALU operation. -/

namespace Sys2Proof.Machine

open Sys2Proof.Spec

/-! ### The result of an ADC and its flags -/

/-- The ALU's carry-in of an ADC is `carryIn`, CF before the instruction, so ADC is the sum with it, on numbers
(42_alu.md R140 to R147). -/
theorem alu_adc_sum_and_flags {n x y : Nat} {a b : BitVec n} (ha : a.toNat = x) (hb : b.toNat = y) (p : OfPolicy)
    (s : State) :
    (alu p .adc a b s.eflags).1.toNat = (x + y + carryIn s) % 2 ^ n ∧
      SumFlags n p x y (carryIn s) s.eflags (alu p .adc a b s.eflags).2 := by
  have hcarry : carryIn s = (FlagStore.get s.eflags FlagName.cf.cell).toNat := rfl
  subst ha hb
  rw [hcarry]
  exact ⟨aluSum_toNat p a b _ s.eflags, aluSum_sumFlags p a b _ s.eflags (op := .adc) rfl⟩

/-! ### ADC -/

theorem handler_adcRmReg (e : RM) (g : RegNum) (w : Width) (s : State) :
    handler (adcRmReg e g w) s = aluRmReg .adc w e g s := by cases w <;> rfl

theorem handler_adcRegRm (g : RegNum) (e : RM) (w : Width) (s : State) :
    handler (adcRegRm g e w) s = aluRegRm .adc w g e s := by cases w <;> rfl

theorem handler_adcAcc (w : Width) (v : BitVec w.bits) (s : State) :
    handler (adcAcc w v) s = aluAcc .adc w v s := by cases w <;> rfl

/-- Settles O30: the handler writes the ALU's sum of E, G and the carry-in to E, with the sum's flags. -/
theorem adcRmRegCompletes : Obligations.AdcRmRegCompletes := by
  unfold Obligations.AdcRmRegCompletes
  intro s w e g hw ha
  obtain ⟨hsum, hflags⟩ := alu_adc_sum_and_flags (rmOperand_toNat s w e) (readReg_toNat s g w) s.cfg.ofUntriggered s
  exact exec_completes_of_written (handler_adcRmReg e g w s) (by cases w <;> simp [adcRmReg, Instr.body])
    (hsum ▸ aluRmReg_written hw ha .adc g) hflags

/-- Settles O31: the handler writes the ALU's sum of G, E and the carry-in to G, with the sum's flags. -/
theorem adcRegRmCompletes : Obligations.AdcRegRmCompletes := by
  unfold Obligations.AdcRegRmCompletes
  intro s w g e ha
  obtain ⟨hsum, hflags⟩ := alu_adc_sum_and_flags (readReg_toNat s g w) (rmOperand_toNat s w e) s.cfg.ofUntriggered s
  exact exec_completes_of_written (handler_adcRegRm g e w s) (by cases w <;> simp [adcRegRm, Instr.body])
    (hsum ▸ aluRegRm_written ha .adc g) hflags

/-- Settles O32: the handler writes the ALU's sum of the accumulator, the immediate and the carry-in to the accumulator,
with the sum's flags. -/
theorem adcAccumulatorCompletes : Obligations.AdcAccumulatorCompletes := by
  unfold Obligations.AdcAccumulatorCompletes
  intro s w v
  obtain ⟨hsum, hflags⟩ := alu_adc_sum_and_flags (readReg_toNat s .r0 w) (rfl : v.toNat = _) s.cfg.ofUntriggered s
  exact exec_completes_of_written (handler_adcAcc w v s) (by cases w <;> simp [adcAcc, Instr.body])
    (hsum ▸ aluAcc_written s .adc w v) hflags

end Sys2Proof.Machine
end

section
/-! PUSH and POP of segment registers (46_segment_stack.md R190 to R196): the cycle of every push and of every pop, said
once in range and once past N, and the word a push leaves in its slot. -/

namespace Sys2Proof.Machine

open Sys2Proof.Spec

/-! ### The word in a slot -/

/-- A stored word stands low byte first (20_memory.md R52). -/
theorem Memory.read_store_word {m : Memory} (h : m.wf) (a : Nat) (v : BitVec 16) :
    (m.store a 2 v.toNat).read a = v.extractLsb' 0 8 ∧ (m.store a 2 v.toNat).read (a + 1) = v.extractLsb' 8 8 := by
  have hbyte {i : Nat} (hi : i < 2) : (m.store a 2 v.toNat).read (a + i) = v.extractLsb' (8 * i) 8 := by
    rw [Memory.read_store_inside h hi, BitVec.extractLsb', Nat.shiftRight_eq_div_pow, Nat.pow_mul]
  exact ⟨hbyte (i := 0) (by decide), hbyte (i := 1) (by decide)⟩

/-- The word at an address has the byte there as its low byte (20_memory.md R52). -/
theorem Memory.load_word (m : Memory) (a : Nat) : BitVec.ofNat 16 (m.load a 2) = m.read (a + 1) ++ m.read a := by
  apply BitVec.eq_of_toNat_eq
  have hlow := (m.read a).isLt
  have hhigh := (m.read (a + 1)).isLt
  rw [BitVec.toNat_append, ← Nat.shiftLeft_add_eq_or_of_lt hlow, BitVec.toNat_ofNat, Nat.shiftLeft_eq]
  simp only [Memory.load]
  omega

/-- A stored word is read back (20_memory.md R52). -/
theorem Memory.load_store_word {m : Memory} (h : m.wf) (a : Nat) (v : BitVec 16) :
    BitVec.ofNat 16 ((m.store a 2 v.toNat).load a 2) = v := by
  rw [Memory.load_store h, Nat.mod_eq_of_lt (Width.toNat_lt (w := .w16) v), BitVec.ofNat_toNat, BitVec.setWidth_eq]

/-! ### The cycles -/

section Cycles

variable {s : State} {p : Instr × Seg}

theorem handler_of_mem_pushes (hp : p ∈ pushes) (s : State) : handler p.1 s = pushSeg p.2 s := by
  simp only [pushes, List.mem_cons, List.not_mem_nil, or_false] at hp
  rcases hp with rfl | rfl | rfl <;> rfl

theorem handler_of_mem_pops (hp : p ∈ pops) (s : State) : handler p.1 s = popSeg p.2 s := by
  simp only [pops, List.mem_cons, List.not_mem_nil, or_false] at hp
  rcases hp with rfl | rfl <;> rfl

/-- Every push and pop is its opcode byte alone. -/
theorem encode_length_of_mem_stack : ∀ p ∈ pushes ++ pops, (encode p.1).length = 1 := by decide

/-- A push with its slot below N writes ESP, the slot and EIP (R190). -/
theorem exec_push (hp : p ∈ pushes) (h : (s.esp - 2).toNat + 2 ≤ s.cfg.memSize) :
    exec p.1 s = .next (State.consume
      { s.setGpr .esp (s.esp - 2) with mem := s.mem.store (s.esp - 2).toNat 2 (s.segReg p.2).toNat } 1) := by
  rw [exec_eq_endCycle, handler_of_mem_pushes hp, pushSeg_ok ((State.inRange_iff ..).mpr h), endCycle_ok]
  rfl

/-- A pop with its slot below N writes ESP, the segment register and EIP (R190). -/
theorem exec_pop (hp : p ∈ pops) (h : s.esp.toNat + 2 ≤ s.cfg.memSize) :
    exec p.1 s = .next
      (((s.setGpr .esp (s.esp + 2)).setSeg p.2 (BitVec.ofNat 16 (s.mem.load s.esp.toNat 2))).consume 1) := by
  rw [exec_eq_endCycle, handler_of_mem_pops hp, popSeg_ok ((State.inRange_iff ..).mpr h), endCycle_ok]

/-- A push whose slot runs past N faults (20_memory.md R54). -/
theorem exec_push_beyond (hp : p ∈ pushes) (h : s.cfg.memSize < (s.esp - 2).toNat + 2) :
    exec p.1 s = .next (takeFault s (s.outOfRangeAt (s.esp - 2))) := by
  rw [exec_eq_endCycle, handler_of_mem_pushes hp, pushSeg_error ((State.inRange_eq_false_iff ..).mpr h), endCycle_error]

/-- A pop whose slot runs past N faults (20_memory.md R53). -/
theorem exec_pop_beyond (hp : p ∈ pops) (h : s.cfg.memSize < s.esp.toNat + 2) :
    exec p.1 s = .next (takeFault s (s.outOfRangeAt s.esp)) := by
  rw [exec_eq_endCycle, handler_of_mem_pops hp, popSeg_error ((State.inRange_eq_false_iff ..).mpr h), endCycle_error]

end Cycles

/-! ### The obligations -/

/-- Settles O39: the push writes ESP, the slot and EIP, and a stored word stands low byte first. -/
theorem pushCompletes : Obligations.PushCompletes := by
  unfold Obligations.PushCompletes
  intro s hw h p hp
  obtain ⟨hlow, hhigh⟩ := Memory.read_store_word hw (s.esp - 2).toNat (s.segReg p.2)
  refine ⟨_, exec_push hp h, rfl, hlow, hhigh, memKeptOutside_of_store hw rfl, fun g hg => ?_, rfl,
    ⟨fun x => ?_, rfl, rfl, rfl, rfl⟩, ?_⟩
  · rw [State.gpr_consume, State.gpr_withMem, State.gpr_setGpr_ne _ _ hg]
  · rw [State.segReg_consume, State.segReg_withMem, State.segReg_setGpr]
  · simp [EipPast, encode_length_of_mem_stack p (List.mem_append_left _ hp)]

/-- Settles O40: the pop writes ESP, its segment register and EIP, and takes the word in its slot. -/
theorem popCompletes : Obligations.PopCompletes := by
  unfold Obligations.PopCompletes
  intro s h p hp
  refine ⟨_, exec_pop hp h, State.setSeg_esp .., ?_, memKept_of_mem_eq (State.setSeg_mem ..), fun g hg => ?_,
    fun x hx => ?_, State.setSeg_eflags .., State.setSeg_halted .., State.setSeg_faultStatus .., State.setSeg_diag ..,
    State.setSeg_cfg .., ?_⟩
  · rw [State.segReg_consume, State.segReg_setSeg_same, Memory.load_word]
  · rw [State.gpr_consume, State.gpr_setSeg, State.gpr_setGpr_ne _ _ hg]
  · rw [State.segReg_consume, State.segReg_setSeg_ne _ _ hx, State.segReg_setGpr]
  · simp [EipPast, encode_length_of_mem_stack p (List.mem_append_right _ hp)]

/-- Settles O41: the access faults, and the fault leaves the state at the start of the cycle, ESP included. -/
theorem stackBeyondMemoryFaults : Obligations.StackBeyondMemoryFaults := by
  unfold Obligations.StackBeyondMemoryFaults
  exact fun s => ⟨fun h p hp => exec_push_beyond hp h, fun h p hp => exec_pop_beyond hp h⟩

/-- Settles O42: the pop reads the slot the push has just stored to, and adds to ESP what the push took from it. -/
theorem pushThenPopMoves : Obligations.PushThenPopMoves := by
  unfold Obligations.PushThenPopMoves
  intro s hw h p hp q hq
  refine ⟨_, _, exec_push hp h, exec_pop hq h, ?_, ?_⟩
  · rw [State.segReg_consume, State.segReg_setSeg_same]
    exact Memory.load_store_word hw (s.esp - 2).toNat (s.segReg p.2)
  · exact (State.setSeg_esp ..).trans (BitVec.sub_add_cancel s.esp 2)

end Sys2Proof.Machine
end

section
/-! Lemmas and proofs about HLT (47_hlt.md): its handler consumes one byte or none, and the prefixes before it are
consumed bytes. -/

namespace Sys2Proof.Machine

/-- HLT sets the halted bit and consumes its opcode where HLT_ADVANCES_EIP is true (R200). -/
theorem handler_hlt (s : State) :
    handler .hlt s = .ok (State.consume { s with halted := true } (if s.cfg.hltAdvancesEip then 1 else 0)) := by
  show Except.ok (if s.cfg.hltAdvancesEip then State.consume { s with halted := true } 1 else { s with halted := true }) = _
  cases s.cfg.hltAdvancesEip
  · simp [State.consume]
  · rfl

/-- HLT behind prefixes completes: the prefixes are consumed on top of what HLT consumes (30_encoding.md R74, R75). -/
theorem exec_hlt_withPrefixes (ps : List Prefix) (s : State) :
    exec (Instr.hlt.withPrefixes ps) s =
      .next (State.consume { s with halted := true } (ps.length + if s.cfg.hltAdvancesEip then 1 else 0)) := by
  rw [exec_eq_endCycle, handler_withPrefixes, handler_hlt, Except.map, endCycle_ok, State.consume_consume, Nat.add_comm]

/-- Settles O43: HLT has no field behind its opcode, and it consumes its prefixes and at most the opcode. -/
theorem hltCompletes : Obligations.HltCompletes := by
  unfold Obligations.HltCompletes
  intro s ps
  constructor
  · exact (encode_withPrefixes ps rfl).trans (List.append_nil _)
  · exact exec_hlt_withPrefixes ps s

end Sys2Proof.Machine
end

section
/-! The precise fault (60_exceptions.md R212, R213): the one way a step changes the fault status is the fault entry, which
starts again from the state before the cycle. -/

namespace Sys2Proof.Machine

/-- A step that changes the fault status is the fault entry of an access out of range (R213). -/
theorem step_eq_takeFault {s t : State} (hst : step s = .next t) (hne : t.faultStatus ≠ s.faultStatus) :
    ∃ b, t = takeFault s (s.outOfRangeAt b) := by
  rcases step_next_cases hst with ⟨-, rfl⟩ | ⟨-, ⟨i, n, -, hi⟩ | hb | ⟨ps, op, -, rfl⟩⟩
  · exact absurd rfl hne
  · obtain ⟨hk, -⟩ := handler_kept i hi
    exact absurd hk.fault hne
  · exact hb
  · exact absurd rfl hne

/-- Settles O16: the fault entry writes nothing but the fault status, and the address it records is that of an access out
of range. -/
theorem faultUndoesTheCycle : Obligations.FaultUndoesTheCycle := by
  unfold Obligations.FaultUndoesTheCycle
  intro s t hinv hst hne
  obtain ⟨-, -, hc, -⟩ := hinv
  obtain ⟨b, rfl⟩ := step_eq_takeFault hst hne
  obtain ⟨hlo, hhi⟩ := State.outOfRangeAt_bounds hc b
  exact ⟨s.outOfRangeAt b, hlo, hhi, rfl⟩

end Sys2Proof.Machine
end

section
/-! Memory as a representation (20_memory.md section 1; log entry 2): the cells of a canonical memory are what its reads
give, so it is determined by its reads, and any N bytes are the reads of one. -/

namespace Sys2Proof.Machine

/-- A cell of a canonical memory is read at its address. -/
theorem Memory.read_of_mem {m : Memory} (h : m.wf) {c : Host.Cell} (hc : c ∈ m) : m.read c.1 = c.2 := by
  induction m with
  | nil => simp at hc
  | cons d m ih =>
    obtain ⟨k, v⟩ := d
    rcases List.mem_cons.mp hc with rfl | hc
    · simp [Memory.read]
    · have hne : k ≠ c.1 := Nat.ne_of_lt (Memory.wf_head_lt h c hc)
      rw [Memory.read, if_neg hne, ih (Memory.wf_tail h) hc]

/-- What is read at an address is a cell there, unless it is the byte of an unlisted address. -/
theorem Memory.mem_of_read_ne {m : Memory} {a : Nat} (h : m.read a ≠ Memory.unlisted) : (a, m.read a) ∈ m := by
  induction m with
  | nil => exact absurd rfl h
  | cons d m ih =>
    obtain ⟨k, v⟩ := d
    rw [Memory.read] at h ⊢
    by_cases e : k = a
    · simp [e]
    · rw [if_neg e] at h ⊢
      exact List.mem_cons_of_mem _ (ih h)

/-- The cells of a canonical memory, by its reads. -/
theorem Memory.mem_iff_read {m : Memory} (h : m.wf) (c : Host.Cell) :
    c ∈ m ↔ m.read c.1 = c.2 ∧ c.2 ≠ Memory.unlisted := by
  constructor
  · exact fun hc => ⟨Memory.read_of_mem h hc, h.2 c hc⟩
  · rintro ⟨hr, hne⟩
    have hmem := Memory.mem_of_read_ne (hr ▸ hne)
    rwa [hr] at hmem

/-- Settles O56: the two lists have the same cells, and a list with strictly rising addresses is determined by its cells. -/
theorem equalReadsEqualMemories : Obligations.EqualReadsEqualMemories := by
  unfold Obligations.EqualReadsEqualMemories
  intro m m' h h' hread
  have hcells : ∀ c, c ∈ m ↔ c ∈ m' := fun c => by
    rw [Memory.mem_iff_read h, Memory.mem_iff_read h', hread]
  have hirrefl : Std.Irrefl fun x y : Host.Cell => x.1 < y.1 := ⟨fun x => Nat.lt_irrefl x.1⟩
  have hantisymm : Std.Antisymm fun x y : Host.Cell => x.1 < y.1 :=
    ⟨fun _ _ hxy hyx => absurd hyx (Nat.lt_asymm hxy)⟩
  exact h.1.eq_of_mem_iff h'.1 hcells

/-- Settles O60, by induction on N: the memory of the first N bytes, with byte N written. -/
theorem everyContentsIsAMemory : Obligations.EveryContentsIsAMemory := by
  unfold Obligations.EveryContentsIsAMemory
  intro n f
  induction n with
  | zero => exact ⟨[], ⟨.nil, by simp⟩, by simp, by simp⟩
  | succ n ih =>
    obtain ⟨m, hwf, hlt, hread⟩ := ih
    refine ⟨m.write n (f n), Memory.wf_write hwf n (f n), fun c hc => ?_, fun a ha => ?_⟩
    · rcases Memory.mem_write hc with hc | ⟨rfl, -⟩
      · exact Nat.lt_succ_of_lt (hlt c hc)
      · exact Nat.lt_succ_self n
    · rw [Memory.read_write hwf]
      split
      · next e => rw [e]
      · next e => exact hread a (by omega)

end Sys2Proof.Machine
end

section
/-! Reset (70_reset_and_hazards.md R230, R233): what it gives each register and flag cell, and the invariant after it. -/

namespace Sys2Proof.Machine

@[simp] theorem State.gpr_resetOf (c : Config) (m : Memory) (d : List Diag) (g : Gpr) :
    (State.resetOf c m d).gpr g = if g = .esp then 0x0000FFFF else 0 := by cases g <;> rfl

@[simp] theorem State.segReg_resetOf (c : Config) (m : Memory) (d : List Diag) (x : Seg) :
    (State.resetOf c m d).segReg x = 0 := by cases x <;> rfl

/-- The word 2 is a flag store in which cell 1 alone is set. -/
theorem FlagStore.get_two (i : Fin flagIndexCount) : FlagStore.get 0x00000002 i = decide (i = 1) := by
  revert i
  decide

@[simp] theorem State.flag_resetOf (c : Config) (m : Memory) (d : List Diag) (i : Fin flagIndexCount) :
    (State.resetOf c m d).flag i = decide (i = 1) := FlagStore.get_two i

/-- A reset state has no fault, so its invariant is about its memory and its parameters only. -/
theorem State.inv_resetOf {c : Config} {m : Memory} (d : List Diag) (hc : c.wf) (hw : m.wf)
    (hlt : ∀ x ∈ m, x.1 < c.memSize) : (State.resetOf c m d).Inv := ⟨hw, hlt, hc, trivial⟩

/-- Settles O57: each accessor on a reset state. -/
theorem resetValues : Obligations.ResetValues := by
  unfold Obligations.ResetValues
  intro s
  exact ⟨State.gpr_resetOf _ _ _, rfl, State.segReg_resetOf _ _ _, State.flag_resetOf _ _ _, rfl, rfl, rfl, rfl, rfl⟩

/-- Settles O19: the reset state's N is legal and its memory lists nothing; for the others both are given. -/
theorem resetMeetsInvariant : Obligations.ResetMeetsInvariant := by
  unfold Obligations.ResetMeetsInvariant
  constructor
  · have hc : Config.initial.wf := by decide
    exact State.inv_resetOf [] hc Memory.wf_reset (by simp)
  · exact fun _ _ d => State.inv_resetOf d

end Sys2Proof.Machine
end
